-- ==== Sys2Proof/Word.lean ====
section
/-! DEFINITION. The widths of the engine's values (00_scope.md R7, R8). -/

namespace Sys2Proof

/-- A 16-bit register value: a `uint16`, or an `int16` read through `BitVec.toInt` (R8). -/
abbrev Word := BitVec 16

/-- A `uint8` (R8). -/
abbrev Byte := BitVec 8

/-- A 32-bit register value: an `int32`, or one of the 32-bit counters (R8, R26, R31). -/
abbrev Word32 := BitVec 32

/-- A word offset in the host register window, `0x0` to `0xF` (R20). -/
abbrev Offset := BitVec 4

end Sys2Proof
end

