-- ==== Sys2Proof/Machine/Arith.lean ====
section
/-! DEFINITION. Datapath arithmetic (00_scope.md R9, R10, R13). Sums, differences and products of words wrap by
`BitVec`'s own operations; comparisons of `int16` values are comparisons of their `toInt`. -/

namespace Sys2Proof.Machine

/-- `abs16` (R9): `abs16(-32768) = -32768`. -/
def abs16 (a : Word) : Word :=
  if a.toInt < 0 then -a else a

/-- `a / b` on `int16` (R9): the quotient truncated toward zero, wrapped. -/
def tdiv16 (a b : Word) : Word :=
  BitVec.ofInt 16 (a.toInt.tdiv b.toInt)

/-- `a / b` on `int32` (R9). -/
def tdiv32 (a b : Word32) : Word32 :=
  BitVec.ofInt 32 (a.toInt.tdiv b.toInt)

/-- An `int16` value used in an `int32` expression is sign-extended (R9). -/
def sext32 (a : Word) : Word32 :=
  a.signExtend 32

/-- The low 16 bits of an `int32` (R181). -/
def low16 (a : Word32) : Word :=
  a.setWidth 16

/-- How often `for v from a to b` runs (R10): `max(0, b - a + 1)`, exact. -/
def loopCount (a b : Int) : Nat :=
  (b - a + 1).toNat

/-- The value of a loop variable in iteration `k` (R10): `wrap16(a + k)`. -/
def loopVar (a : Word) (k : Nat) : Word :=
  a + BitVec.ofNat 16 k

/-- `ceil(w / 8)` (R13, R200) of an `int16`, exact. A command reads it only of a positive `w`. -/
def byteWidth (w : Word) : Nat :=
  ((w.toInt + 7) / 8).toNat

end Sys2Proof.Machine
end

