-- ==== Sys2Proof/Config.lean ====
section
/-! DEFINITION. What one engine instance fixes (00_scope.md R6), the turns the outside world takes (R17, R38), and the
one free value: the turn the world takes where nothing is scheduled. -/

namespace Sys2Proof

/-- `GLYPH_BIT_ORDER` (R6, R241): which bit of a glyph column byte is the top row. -/
inductive GlyphOrder where
  | lsbTop
  | msbTop
deriving DecidableEq, Repr

/-- The implementation parameters of R6. State holds them beside the registers, so that every statement about all
states is about every instance. -/
structure Config where
  /-- `BLOCK_SIZE`, legal values 1..255. -/
  blockSize : Byte
  /-- `SINK_RUNS = 1`. -/
  sinkRuns : Bool
  /-- `GLYPH_BIT_ORDER`. -/
  glyphOrder : GlyphOrder
  /-- `RAM_SIZE`, legal values 0..65536. -/
  ramSize : Nat
  /-- `ROM_SIZE`, legal values 0..65536. -/
  romSize : Nat
deriving DecidableEq, Repr

/-- The parameters have legal values (R6). -/
def Config.legal (c : Config) : Bool :=
  c.blockSize != 0 && c.ramSize ≤ 65536 && c.romSize ≤ 65536

/-- The configuration of the spec's test vectors (R6). DESIGN CHOICE (log entry 1): `State.reset` takes it. -/
def Config.testDefault : Config where
  blockSize := 16
  sinkRuns := true
  glyphOrder := .lsbTop
  ramSize := 65536
  romSize := 65536

/-- What the partner of the engine's pending action answers (R38). One record serves every action: an action looks only
at the part that concerns it. -/
structure Answer where
  /-- To a `BsRead`: the ByteStore reports no data (R71). -/
  noData : Bool := false
  /-- To a `MemRead` of RAM: 0 is the byte as it stands; `n + 1` is the `n`-th most recent value it has lost since the
  command was accepted (R79). -/
  older : Nat := 0
deriving DecidableEq, Repr, Inhabited

/-- The prompt answer: data is there and memory reads as it stands. -/
def Answer.ready : Answer := {}

/-- Whose move it is (R17, R38, R351). A partner that delays is a schedule in which `engine` comes later. -/
inductive Turn where
  /-- The host performs its next access. -/
  | host
  /-- The partner of the engine's pending action answers, and the engine takes its step. -/
  | engine (a : Answer)
  /-- The platform asserts reset. -/
  | reset
deriving DecidableEq, Repr, Inhabited

/-- FREE VALUE (log entry 2): the turn the world takes when no turn is scheduled. Nothing constrains it: the spec lets
hosts, partners and resets interleave in any order (R38, R351) and lets a partner answer at any time or never (R68,
R70, R71). -/
opaque Config.freeTurn : Nat → Turn

end Sys2Proof
end

