-- ==== Sys2Proof/Syntax.lean ====
section
/-! DEFINITION. The commands of the engine: one constructor per row of spec/opcode_table.json (30_encoding.md R92).
A command's operands stand in registers (R95), so a command as syntax is its operation and its flag bits. -/

namespace Sys2Proof

/-- The flag bits of a command word (R90): `bg` is bit 8, `src` is bit 9, `aln` is bit 10. -/
structure Flags where
  /-- BG: draw clear bits in the background colour. -/
  bg : Bool := false
  /-- SRC: the local source space is ROM, not RAM. -/
  src : Bool := false
  /-- ALN: block-aligned discipline of a stream command. -/
  aln : Bool := false
deriving DecidableEq, Repr

/-- The commands of R92. Every command word has the three flag bits; which of them a command allows is said by
`Instr.allows` (WellFormed.lean). -/
inductive Instr where
  | line (f : Flags)
  | hrun (f : Flags)
  | vrun (f : Flags)
  | rect (f : Flags)
  | fillrect (f : Flags)
  | circle (f : Flags)
  | circleh (f : Flags)
  | fillcircle (f : Flags)
  | fillcircleh (f : Flags)
  | roundrect (f : Flags)
  | fillroundrect (f : Flags)
  | triangle (f : Flags)
  | filltriangle (f : Flags)
  | blit (f : Flags)
  | blitxbm (f : Flags)
  | sblit (f : Flags)
  | sglyph (f : Flags)
deriving DecidableEq, Repr

/-- The flag bits of a command. -/
def Instr.flags : Instr → Flags
  | .line f | .hrun f | .vrun f | .rect f | .fillrect f
  | .circle f | .circleh f | .fillcircle f | .fillcircleh f | .roundrect f | .fillroundrect f
  | .triangle f | .filltriangle f
  | .blit f | .blitxbm f | .sblit f | .sglyph f => f

end Sys2Proof
end

