-- ==== Sys2Proof/WellFormed.lean ====
section
/-! DEFINITION. Which commands are well formed: those whose flag bits the operation allows (30_encoding.md R92, the
column "allowed flag bits"; R97 step 3). -/

namespace Sys2Proof

/-- The flags an operation allows: a flag is `true` here when R92 lists it for the operation. -/
def Instr.allows : Instr → Flags
  | .line _ | .hrun _ | .vrun _ | .rect _ | .fillrect _
  | .circle _ | .circleh _ | .fillcircle _ | .fillcircleh _ | .roundrect _ | .fillroundrect _
  | .triangle _ | .filltriangle _ => { bg := false, src := false, aln := false }
  | .blit _ | .blitxbm _ => { bg := true, src := true, aln := false }
  | .sblit _ => { bg := true, src := false, aln := true }
  | .sglyph _ => { bg := false, src := false, aln := true }

/-- Every flag set in `f` is set in `a`. -/
def Flags.within (f a : Flags) : Bool :=
  (!f.bg || a.bg) && (!f.src || a.src) && (!f.aln || a.aln)

/-- A command is well formed when it sets only flags its operation allows (R97 step 3). -/
def Instr.wellFormed (i : Instr) : Bool :=
  i.flags.within i.allows

end Sys2Proof
end

