-- ==== Sys2Proof/Decode.lean ====
section
/-! DEFINITION. The command word `CMD16` (30_encoding.md R90 to R98): the decoder, total on any 16-bit word and refusing
by name, and the encoder. -/

namespace Sys2Proof

/-- Why a word is no command, in the order of R97 steps 1 to 3 and R310. Each is ILLEGAL_CMD to the host. -/
inductive DecodeError where
  /-- `w[5:0]` is no opcode of R92 (R98: 0x00, 0x0E, 0x0F, 0x14..0x3F). -/
  | unknownOpcode
  /-- `w[7:6]` or `w[15:11]` is not 0. -/
  | reservedBit
  /-- Bit 8, 9 or 10 is 1 and the opcode does not allow that flag. -/
  | disallowedFlag
deriving DecidableEq, Repr

/-- The operation of an opcode, its flags still to be filled in (R92). -/
def ofOpcode (op : BitVec 6) (f : Flags) : Option Instr :=
  match op.toNat with
  | 0x01 => some (.line f)
  | 0x02 => some (.hrun f)
  | 0x03 => some (.vrun f)
  | 0x04 => some (.rect f)
  | 0x05 => some (.fillrect f)
  | 0x06 => some (.circle f)
  | 0x07 => some (.circleh f)
  | 0x08 => some (.fillcircle f)
  | 0x09 => some (.fillcircleh f)
  | 0x0A => some (.roundrect f)
  | 0x0B => some (.fillroundrect f)
  | 0x0C => some (.triangle f)
  | 0x0D => some (.filltriangle f)
  | 0x10 => some (.blit f)
  | 0x11 => some (.blitxbm f)
  | 0x12 => some (.sblit f)
  | 0x13 => some (.sglyph f)
  | _ => none

/-- The flag bits of a word (R90). -/
def flagsOf (w : Word) : Flags where
  bg := w.getLsbD 8
  src := w.getLsbD 9
  aln := w.getLsbD 10

/-- A reserved bit of the word is set (R90: bits 7:6 and 15:11). -/
def reservedSet (w : Word) : Bool :=
  w.extractLsb' 6 2 != 0 || w.extractLsb' 11 5 != 0

/-- The decoder (R91, R97 steps 1 to 3). -/
def decode (w : Word) : Except DecodeError Instr :=
  match ofOpcode (w.extractLsb' 0 6) (flagsOf w) with
  | none => .error .unknownOpcode
  | some i =>
    if reservedSet w then .error .reservedBit
    else if i.wellFormed then .ok i
    else .error .disallowedFlag

/-- The opcode of a command (R92). -/
def opcode : Instr → BitVec 6
  | .line _ => 0x01
  | .hrun _ => 0x02
  | .vrun _ => 0x03
  | .rect _ => 0x04
  | .fillrect _ => 0x05
  | .circle _ => 0x06
  | .circleh _ => 0x07
  | .fillcircle _ => 0x08
  | .fillcircleh _ => 0x09
  | .roundrect _ => 0x0A
  | .fillroundrect _ => 0x0B
  | .triangle _ => 0x0C
  | .filltriangle _ => 0x0D
  | .blit _ => 0x10
  | .blitxbm _ => 0x11
  | .sblit _ => 0x12
  | .sglyph _ => 0x13

/-- The encoder: the word of a command, fields laid out as R90 gives them. -/
def encode (i : Instr) : Word :=
  0#5 ++ BitVec.ofBool i.flags.aln ++ BitVec.ofBool i.flags.src ++ BitVec.ofBool i.flags.bg ++ 0#2 ++ opcode i

/-- One row of the pattern table of R94. -/
structure PatternRow where
  pattern : Word
  mask : Word
deriving DecidableEq, Repr

/-- The row of R94 a command belongs to. -/
def patternOf : Instr → PatternRow
  | .line _ => ⟨0x0001, 0xFFFF⟩
  | .hrun _ => ⟨0x0002, 0xFFFF⟩
  | .vrun _ => ⟨0x0003, 0xFFFF⟩
  | .rect _ => ⟨0x0004, 0xFFFF⟩
  | .fillrect _ => ⟨0x0005, 0xFFFF⟩
  | .circle _ => ⟨0x0006, 0xFFFF⟩
  | .circleh _ => ⟨0x0007, 0xFFFF⟩
  | .fillcircle _ => ⟨0x0008, 0xFFFF⟩
  | .fillcircleh _ => ⟨0x0009, 0xFFFF⟩
  | .roundrect _ => ⟨0x000A, 0xFFFF⟩
  | .fillroundrect _ => ⟨0x000B, 0xFFFF⟩
  | .triangle _ => ⟨0x000C, 0xFFFF⟩
  | .filltriangle _ => ⟨0x000D, 0xFFFF⟩
  | .blit _ => ⟨0x0010, 0xFCFF⟩
  | .blitxbm _ => ⟨0x0011, 0xFCFF⟩
  | .sblit _ => ⟨0x0012, 0xFAFF⟩
  | .sglyph _ => ⟨0x0013, 0xFBFF⟩

/-- The word agrees with the row: `(w & mask) == match` (R94). -/
def PatternRow.selects (r : PatternRow) (w : Word) : Bool :=
  w &&& r.mask == r.pattern

/-- One command of each operation, in the order of R92. -/
def operations : List Instr :=
  [.line {}, .hrun {}, .vrun {}, .rect {}, .fillrect {}, .circle {}, .circleh {}, .fillcircle {}, .fillcircleh {},
   .roundrect {}, .fillroundrect {}, .triangle {}, .filltriangle {}, .blit {}, .blitxbm {}, .sblit {}, .sglyph {}]

/-- The word a table row's bits make: one 16-bit word, written whole (R20, R91), bits above `nbits` zero. -/
def tableWord (nbits w : Nat) : Word :=
  BitVec.ofNat 16 (w % 2 ^ nbits)

/-- The instruction the decoder reads from a table row's bits. Every command is one 16-bit word (R91), so longer rows
have no reading. -/
def decodeTableWord (nbits w : Nat) : Option Instr :=
  if nbits ≤ 16 then (decode (tableWord nbits w)).toOption else none

end Sys2Proof
end

