-- ==== Sys2Proof/Machine/State.lean ====
section
/-! DEFINITION. The machine's state as plain data (10_state.md), the reasons a step can stop, and the state after reset
(70_reset_and_hazards.md R350). -/

namespace Sys2Proof.Machine

/-- The two local memory spaces (20_memory.md R60). -/
inductive Space where
  | ram
  | rom
deriving DecidableEq, Repr

/-- A byte-addressed memory: pairs of address and byte, addresses strictly rising, none equal to what an unlisted
address reads as (`Memory.wf`, Ops.lean). -/
abbrev Memory := List Host.Cell

/-- The writable 16-bit registers a command is made of: CMD, P0 to P5, FG, BG (R22, R24, R25). The live registers and
the snapshot (R30) are one each of these. -/
structure Regs where
  cmd : Word
  p0 : Word
  p1 : Word
  p2 : Word
  p3 : Word
  p4 : Word
  p5 : Word
  fg : Word
  bg : Word
deriving DecidableEq, Repr

/-- The execution state `ENG` (R29). -/
inductive Eng where
  | idle
  | exec
deriving DecidableEq, Repr

/-- The fetch state `SC.FSM` (R31, 44_stream_decoder.md R225). -/
inductive StreamFsm where
  | notStarted
  | streaming
  | requestingBlock
  | done
deriving DecidableEq, Repr

/-- The StreamCursor (R31). -/
structure StreamCursor where
  /-- `SC.RADDR`: remote address of the next byte to be read. -/
  raddr : Word
  /-- `SC.BLEFT`: bytes of the image or glyph still to be consumed. -/
  bleft : Word32
  /-- `SC.KBLK`: bytes still to be read from the current block request. -/
  kblk : Byte
  /-- `SC.FSM`. -/
  fsm : StreamFsm
deriving DecidableEq, Repr

/-- The codes of STATUS.ERR other than 0 (60_exceptions.md R300). -/
inductive ErrCode where
  | illegalCmd
  | badAddress
  | misaligned
  | incompleteStream
deriving DecidableEq, Repr

/-- What `Validate` returns (30_encoding.md R97). -/
inductive Verdict where
  | ok
  | degenerate
  | illegalCmd
  | badAddress
  | misaligned
deriving DecidableEq, Repr

/-- The requests the engine hands the PixelSink (20_memory.md R68). -/
inductive SinkReq where
  | plot (x y c : Word)
  | hrun (x y len c : Word)
  | vrun (x y len c : Word)
deriving DecidableEq, Repr

/-- The working registers of `LineCore` (40_raster_lines.md R120), after its normalisation. `xx` is the major-axis
coordinate of the next PLOT and `y` its minor-axis coordinate. -/
structure LineRegs where
  steep : Bool
  xx : Word
  y : Word
  err : Word
  dx : Word
  dy : Word
  ystep : Word
  c : Word
deriving DecidableEq, Repr

/-- The midpoint-circle registers (41_raster_circles.md R150). -/
structure Mid where
  f : Word
  ddFx : Word
  ddFy : Word
  x : Word
  y : Word
deriving DecidableEq, Repr

/-- The working registers of one scan loop of FILLTRIANGLE (42_raster_triangles.md R181, steps 4 and 5): the two edges'
start abscissae, deltas and accumulators, and the scanline. -/
structure TriRegs where
  xa : Word
  xb : Word
  dxa : Word
  dxb : Word
  dya : Word
  dyb : Word
  sa : Word32
  sb : Word32
  y : Word
  c : Word
deriving DecidableEq, Repr

/-- Bit order of a bitmap byte (20_memory.md R65). -/
inductive BitOrder where
  | msb
  | lsb
deriving DecidableEq, Repr

/-- Where a bitmap's bytes come from: a local space (43_bitmap_blitter.md R203) or the stream (44_stream_decoder.md
R233). -/
inductive ByteSource where
  | mem (sp : Space)
  | stream
deriving DecidableEq, Repr

/-- The locals of `BlitCore` (R203) and of SBLIT (R233), the loop indices apart. -/
structure BitmapRegs where
  source : ByteSource
  order : BitOrder
  x : Word
  y : Word
  addr : Word
  w : Word
  h : Word
  bw : Nat
  bgon : Bool
deriving DecidableEq, Repr

/-- The locals of SGLYPH (R244), the loop indices apart. -/
structure GlyphRegs where
  x : Word
  y : Word
  gw : Nat
  gb : Nat
deriving DecidableEq, Repr

/-- What a fetched byte is: byte `k` of row `j` of a bitmap, or the byte of column `col` of band `band` of a glyph. -/
inductive ByteUse where
  | bitmap (b : BitmapRegs) (j k : Nat)
  | glyph (g : GlyphRegs) (band col : Nat)
deriving DecidableEq, Repr

/-- The external actions (00_scope.md R12). -/
inductive Action where
  | sink (r : SinkReq)
  | memRead (sp : Space) (addr : Nat) (use : ByteUse)
  | bsSeek
  | bsRequest
  | bsRead (use : ByteUse)
deriving DecidableEq, Repr

/-- A procedure or loop of the command pseudocode, stopped at its head, with its working registers (R32). A `Nat` named
`n` is the number of iterations left, `k` the loop index (R10: counts are exact). -/
inductive Proc where
  /-- `EmitH` (R121). -/
  | emitH (x y len c : Word)
  /-- `EmitV` (R121). -/
  | emitV (x y len c : Word)
  /-- The loop of `EmitH` with `SINK_RUNS = 0`. -/
  | plotsH (x y c : Word) (k n : Nat)
  /-- The loop of `EmitV` with `SINK_RUNS = 0`. -/
  | plotsV (x y c : Word) (k n : Nat)
  /-- The loop of `LineCore` (R120). -/
  | lineLoop (l : LineRegs) (n : Nat)
  /-- The column loop of FILLRECT (R126). -/
  | fillCols (x y h c : Word) (k n : Nat)
  /-- The `while x < y` loop of CIRCLE (R151). -/
  | circleLoop (cx cy c : Word) (m : Mid)
  /-- The loop of CIRCLEH (R152). -/
  | circleHLoop (cx cy c : Word) (mask : BitVec 4) (m : Mid)
  /-- The loop of FILLCIRCLEH (R153). -/
  | fillCircleHLoop (cx cy c : Word) (mask : BitVec 2) (delta : Word) (m : Mid)
  /-- A scan loop of FILLTRIANGLE (R181). -/
  | triLoop (t : TriRegs) (n : Nat)
  /-- The row and byte loops of a bitmap, at row `j`, byte `k` (R203, R233). -/
  | bitmapLoop (b : BitmapRegs) (j k : Nat)
  /-- The band and column loops of SGLYPH (R244). -/
  | glyphLoop (g : GlyphRegs) (band col : Nat)
  /-- The bit loop over a fetched byte, at bit `b` (R203, R233, R244). -/
  | bits (use : ByteUse) (byte : Byte) (b : Nat)
deriving DecidableEq, Repr

/-- A register update the pseudocode makes between actions. -/
inductive Update where
  /-- `BDONE <- BDONE + 1`. -/
  | byteDone
  /-- `x[RDONE] <- x[RDONE] + 1`. -/
  | rowDone
  /-- `StreamInit(start, L)` (R222). -/
  | streamInit (start : Word) (len : Word32)
deriving DecidableEq, Repr

/-- What remains of a command's pseudocode (R33): actions, procedures still to run, and register updates, in order. -/
inductive Task where
  | act (a : Action)
  | call (p : Proc)
  | upd (u : Update)
deriving DecidableEq, Repr

/-- One statement of a host program (30_encoding.md R99, R100), or a host write to local RAM (20_memory.md R63). -/
inductive HostOp where
  /-- `WR reg, value`. -/
  | wr (off : Offset) (v : Word)
  /-- `RD reg`. -/
  | rd (off : Offset)
  /-- `WAIT`: `RD STATUS` until the value read has bit 0 = 0. -/
  | wait
  /-- The host writes a byte of local RAM. -/
  | ramWrite (a : Word) (b : Byte)
deriving DecidableEq, Repr

/-- What an observer of the engine sees (00_scope.md R18): each external action with the values it carries, and each
host register read with the value returned. -/
inductive Observed where
  | sink (r : SinkReq)
  | memRead (sp : Space) (addr : Nat) (b : Byte)
  | bsSeek (a : Word)
  | bsRequest (n : Byte)
  /-- `some b` is `Data(b)`, `none` is `NoData`. -/
  | bsRead (r : Option Byte)
  | hostRead (off : Offset) (v : Word)
deriving DecidableEq, Repr

/-- Why the machine stops. -/
inductive Fault where
  /-- Raised by the engine's `MemRead` at an address the space does not have (20_memory.md R61). Safe: R201's check
  rules it out for every command, and `Obligations.LocalReadsStayInside` says so. -/
  | localReadOutside
  /-- Raised by a host write to a RAM address at or above RAM_SIZE, which does not exist (20_memory.md R60, R76). Safe:
  the machine stops where the spec gives the access no meaning. -/
  | hostRamOutside
deriving DecidableEq, Repr

/-- Why an instruction has no meaning. -/
inductive Refusal where
  /-- Raised by `exec` for an instruction without a meaning. Safe. No arm uses it: every instruction has its meaning. -/
  | notModelled (mnemonic : String)
deriving DecidableEq, Repr

/-- The machine: the engine's registers, what its partners hold that the engine's rules speak of, and the schedule of
the outside world. -/
structure State where
  /-- The configuration (00_scope.md R6); CONFIG (R27) shows it. No step changes it. -/
  cfg : Config
  /-- CMD, P0 to P5, FG, BG (R22, R24, R25). -/
  live : Regs
  /-- STATUS (R23). -/
  status : Word
  /-- BDONE, read as BDONE_LO and BDONE_HI (R26). -/
  bdone : Word32
  /-- RDONE (R26). -/
  rdone : Word
  /-- `ENG` (R29). -/
  eng : Eng
  /-- The snapshot `s.*` (R30). -/
  snap : Regs
  /-- The StreamCursor (R31). -/
  sc : StreamCursor
  /-- The continuation and the locals of the running command (R32, R33); empty when no command is in flight. -/
  cont : List Task
  /-- Local RAM (R60). -/
  ram : Memory
  /-- Local ROM (R60). -/
  rom : Memory
  /-- The ByteStore's bytes (R60, R71). -/
  remote : Memory
  /-- The ByteStore's read address (R70, R72). -/
  bsPos : Word
  /-- The ByteStore's bytes left of the current request (R70, R72). -/
  bsLeft : Byte
  /-- The model's own: RAM bytes overwritten since the running command was accepted, most recent first (R79). -/
  ramOld : List Host.Cell
  /-- The rest of the host's program, next access first (R99). -/
  host : List HostOp
  /-- The scheduled turns of the world, next first (R38). -/
  world : List Turn
  /-- The model's own: how many unscheduled turns have been taken; the argument of `Config.freeTurn`. -/
  turnNo : Nat
  /-- The model's own: what has been observed (R18), most recent first. -/
  trace : List Observed
deriving DecidableEq, Repr

/-- Registers holding zero. -/
def Regs.zero : Regs := ⟨0, 0, 0, 0, 0, 0, 0, 0, 0⟩

/-- The StreamCursor after reset (R350). -/
def StreamCursor.zero : StreamCursor := ⟨0, 0, 0, .notStarted⟩

/-- The state after reset of an instance with configuration `c` (R350), nothing scheduled and nothing observed. The
snapshot, which R350 leaves unspecified, is zero (log entry 3); memories list nothing (log entry 4). -/
def State.resetWith (c : Config) : State where
  cfg := c
  live := .zero
  status := 0
  bdone := 0
  rdone := 0
  eng := .idle
  snap := .zero
  sc := .zero
  cont := []
  ram := []
  rom := []
  remote := []
  bsPos := 0
  bsLeft := 0
  ramOld := []
  host := []
  world := []
  turnNo := 0
  trace := []

/-- The machine right after reset (R350), in the test-default configuration (log entry 1). -/
def State.reset : State := State.resetWith .testDefault

end Sys2Proof.Machine
end

