-- ==== Sys2Proof/Machine/Flags.lean ====
section
/-! DEFINITION. The fields of STATUS and CONFIG (10_state.md R23, R27) and the flag bits of a snapshot command word
(30_encoding.md R90). -/

namespace Sys2Proof.Machine

/-- The 4-bit code of an error (60_exceptions.md R300). -/
def ErrCode.code : ErrCode → BitVec 4
  | .illegalCmd => 1
  | .badAddress => 2
  | .misaligned => 3
  | .incompleteStream => 4

/-- STATUS.BUSY, bit 0. -/
def busyBit (st : Word) : Bool := st.getLsbD 0

/-- STATUS.REJ, bit 1. -/
def rejBit (st : Word) : Bool := st.getLsbD 1

/-- STATUS.ERR, bits 7:4. -/
def errField (st : Word) : BitVec 4 := st.extractLsb' 4 4

/-- STATUS with BUSY set to `b`, the other bits kept. -/
def withBusy (b : Bool) (st : Word) : Word :=
  (st &&& 0xFFFE) ||| (if b then 0x0001 else 0x0000)

/-- STATUS with REJ set to `b`, the other bits kept. -/
def withRej (b : Bool) (st : Word) : Word :=
  (st &&& 0xFFFD) ||| (if b then 0x0002 else 0x0000)

/-- STATUS with ERR set to `e`, the other bits kept. -/
def withErr (e : BitVec 4) (st : Word) : Word :=
  (st &&& 0xFF0F) ||| (e.setWidth 16 <<< 4)

/-- What a host write of `v` makes of STATUS (R23): bit 1 = 1 clears REJ, and nothing else changes. -/
def statusWritten (v st : Word) : Word :=
  if v.getLsbD 1 then withRej false st else st

/-- STATUS.BUSY of the state. -/
def State.busy (s : State) : Bool := busyBit s.status

/-- STATUS.REJ of the state. -/
def State.rej (s : State) : Bool := rejBit s.status

/-- STATUS.ERR of the state. -/
def State.err (s : State) : BitVec 4 := errField s.status

/-- The CONFIG register (R27): BSIZE in 7:0, SRUNS in 8, GMSB in 9, the rest 0. -/
def configWord (c : Config) : Word :=
  0#6 ++ BitVec.ofBool (c.glyphOrder == .msbTop) ++ BitVec.ofBool c.sinkRuns ++ c.blockSize

/-- CMD.BG of a command word (R90). -/
def Regs.bgFlag (r : Regs) : Bool := r.cmd.getLsbD 8

/-- CMD.SRC of a command word (R90): 0 is RAM, 1 is ROM. -/
def Regs.srcSpace (r : Regs) : Space := if r.cmd.getLsbD 9 then .rom else .ram

/-- CMD.ALN of a command word (R90). -/
def Regs.alnFlag (r : Regs) : Bool := r.cmd.getLsbD 10

end Sys2Proof.Machine
end

