-- ==== Sys2Proof/Machine/Operands.lean ====
section
/-! DEFINITION. Operand assembly (30_encoding.md R95, R96), the degenerate conditions (60_exceptions.md R306) and the
checks of `Validate` steps 4 to 6 (R97), all on the snapshot. An `int16` operand is its register's 16 bits; a `uint16`
operand is the same bits read unsigned. -/

namespace Sys2Proof.Machine

/-- CIRCLEH's mask, P3[3:0] (R95). -/
def Regs.mask4 (r : Regs) : BitVec 4 := r.p3.extractLsb' 0 4

/-- FILLCIRCLEH's mask, P3[1:0] (R95). -/
def Regs.mask2 (r : Regs) : BitVec 2 := r.p3.extractLsb' 0 2

/-- SGLYPH's `gw`, P3[7:0] (R95). -/
def Regs.glyphWidth (r : Regs) : Nat := (r.p3.extractLsb' 0 8).toNat

/-- SGLYPH's `gb`, P4[7:0] (R95). -/
def Regs.glyphBands (r : Regs) : Nat := (r.p4.extractLsb' 0 8).toNat

/-- The number of packed bytes of a bitmap of size `w` by `h` (43_bitmap_blitter.md R200), exact. -/
def packedBytes (w h : Word) : Nat := byteWidth w * h.toInt.toNat

/-- HRUN, VRUN: `len <= 0` (R306). -/
def runDegenerate (r : Regs) : Bool := decide (r.p2.toInt ≤ 0)

/-- RECT, FILLRECT, ROUNDRECT, FILLROUNDRECT: `w <= 0` or `h <= 0` (R306). -/
def rectDegenerate (r : Regs) : Bool := decide (r.p2.toInt ≤ 0 ∨ r.p3.toInt ≤ 0)

/-- BLIT, BLITXBM, SBLIT: `w <= 0` or `h <= 0` (R306). -/
def bitmapDegenerate (r : Regs) : Bool := decide (r.p3.toInt ≤ 0 ∨ r.p4.toInt ≤ 0)

/-- SGLYPH: `gw = 0` or `gb = 0` (R306). -/
def glyphDegenerate (r : Regs) : Bool := decide (r.glyphWidth = 0 ∨ r.glyphBands = 0)

/-- The size of a local space (20_memory.md R60). -/
def spaceSize (c : Config) : Space → Nat
  | .ram => c.ramSize
  | .rom => c.romSize

/-- The bitmap of a BLIT or BLITXBM runs past its space (R201), computed exactly. -/
def outsideSpace (c : Config) (r : Regs) : Bool :=
  decide (spaceSize c r.srcSpace < r.p2.toNat + packedBytes r.p3 r.p4)

/-- A stream command of the aligned discipline starts off a block boundary (44_stream_decoder.md R226). -/
def offBoundary (c : Config) (r : Regs) : Bool :=
  r.alnFlag && decide (r.p2.toNat % c.blockSize.toNat ≠ 0)

/-- `Validate` for a command with no operand check (R97 step 7). -/
def anyVerdict (_ : Config) (_ : Regs) : Verdict := .ok

/-- `Validate` for HRUN and VRUN. -/
def runVerdict (_ : Config) (r : Regs) : Verdict :=
  if runDegenerate r then .degenerate else .ok

/-- `Validate` for the four rectangle commands. -/
def rectVerdict (_ : Config) (r : Regs) : Verdict :=
  if rectDegenerate r then .degenerate else .ok

/-- `Validate` steps 4 and 5 for BLIT and BLITXBM. -/
def blitVerdict (c : Config) (r : Regs) : Verdict :=
  if bitmapDegenerate r then .degenerate else if outsideSpace c r then .badAddress else .ok

/-- `Validate` steps 4 and 6 for SBLIT. -/
def sblitVerdict (c : Config) (r : Regs) : Verdict :=
  if bitmapDegenerate r then .degenerate else if offBoundary c r then .misaligned else .ok

/-- `Validate` steps 4 and 6 for SGLYPH. -/
def sglyphVerdict (c : Config) (r : Regs) : Verdict :=
  if glyphDegenerate r then .degenerate else if offBoundary c r then .misaligned else .ok

end Sys2Proof.Machine
end

