-- ==== Sys2Proof/Machine/Ops.lean ====
section
/-! DEFINITION. The named operations the meanings share: memory, the observation trace, acceptance and rejection of a
command word (10_state.md R35, R36), completion (R37), and raising an error (60_exceptions.md R303), which is this
engine's whole exception mechanism: it saves nothing and transfers nowhere (R311), and the way back is the next
acceptance, which clears ERR (R312). -/

namespace Sys2Proof.Machine

/-- What an unlisted address reads as. DESIGN CHOICE (log entry 4). -/
def Memory.fill : Byte := 0

/-- The byte at an address. -/
def Memory.read : Memory → Nat → Byte
  | [], _ => Memory.fill
  | (x, b) :: m, a => if x = a then b else Memory.read m a

/-- Write a byte, keeping the canonical form. -/
def Memory.write : Memory → Nat → Byte → Memory
  | [], a, v => if v = Memory.fill then [] else [(a, v)]
  | (x, b) :: m, a, v =>
    if a < x then (if v = Memory.fill then (x, b) :: m else (a, v) :: (x, b) :: m)
    else if a = x then (if v = Memory.fill then m else (x, v) :: m)
    else (x, b) :: Memory.write m a v

/-- The canonical form from address `lo` on. -/
def Memory.wfFrom : Nat → Memory → Bool
  | _, [] => true
  | lo, (x, b) :: m => decide (lo ≤ x) && b != Memory.fill && Memory.wfFrom (x + 1) m

/-- The canonical form: addresses strictly rising, no entry equal to what an unlisted address reads as. -/
def Memory.wf (m : Memory) : Bool := Memory.wfFrom 0 m

/-- Every listed address is below `size`. -/
def Memory.below (size : Nat) (m : Memory) : Bool := m.all fun c => decide (c.1 < size)

/-- Record what is observed (00_scope.md R18). -/
def State.observe (o : Observed) (s : State) : State := { s with trace := o :: s.trace }

/-- Put tasks before what remains of the command. -/
def State.push (ts : List Task) (s : State) : State := { s with cont := ts ++ s.cont }

/-- The first lines of acceptance (R35): CMD stored, the snapshot taken (R34), ERR, BDONE and RDONE cleared. The record
of overwritten RAM bytes starts anew. -/
def State.latch (w : Word) (s : State) : State :=
  { s with
    live := { s.live with cmd := w }
    snap := { s.live with cmd := w }
    status := withErr 0 s.status
    bdone := 0
    rdone := 0
    ramOld := [] }

/-- Latch an error code in STATUS.ERR (R300). -/
def State.latchError (e : ErrCode) (s : State) : State :=
  { s with status := withErr e.code s.status }

/-- BUSY rises and the engine executes `body` (R35). -/
def State.start (body : List Task) (s : State) : State :=
  { s with status := withBusy true s.status, eng := .exec, cont := body }

/-- Completion (R37): BUSY falls, the engine is idle and no command is in flight. -/
def State.complete (s : State) : State :=
  { s with status := withBusy false s.status, eng := .idle, cont := [] }

/-- Rejection (R36): REJ is set and nothing else changes. -/
def State.reject (s : State) : State :=
  { s with status := withRej true s.status }

/-- `raise Error(code)` in a running command (R303): its pseudocode ends, ERR takes the code, BUSY falls. -/
def State.raiseError (e : ErrCode) (s : State) : State := (s.latchError e).complete

/-- What acceptance makes of a verdict (R35). -/
def State.settleVerdict (v : Verdict) (body : List Task) (s : State) : State :=
  match v with
  | .ok => s.start body
  | .degenerate => s
  | .illegalCmd => s.latchError .illegalCmd
  | .badAddress => s.latchError .badAddress
  | .misaligned => s.latchError .misaligned

/-- A host write of `w` to CMD (R22): rejection while BUSY (R36), acceptance otherwise (R35). The verdict and the
command's pseudocode are taken on the snapshot. -/
def acceptWord (w : Word) (verdict : Config → Regs → Verdict) (body : Regs → List Task) (s : State) :
    Host.Outcome State Fault Refusal :=
  if s.busy then .next s.reject
  else
    let t := s.latch w
    .next (t.settleVerdict (verdict t.cfg t.snap) (body t.snap))

/-- Acceptance of a command (R35, R97): steps 1 to 3 of `Validate` are the command's well-formedness. -/
def acceptCommand (i : Instr) (verdict : Config → Regs → Verdict) (body : Regs → List Task) (s : State) :
    Host.Outcome State Fault Refusal :=
  acceptWord (encode i) (if i.wellFormed then verdict else fun _ _ => .illegalCmd) body s

/-- Acceptance of a word that is no command (R97 steps 1 to 3, R301): ILLEGAL_CMD, no action. -/
def acceptIllegal (w : Word) (s : State) : Host.Outcome State Fault Refusal :=
  acceptWord w (fun _ _ => .illegalCmd) (fun _ => []) s

end Sys2Proof.Machine
end

