-- ==== Sys2Proof/Machine/Fetch.lean ====
section
/-! DEFINITION. Fetching packed bytes: the local read port (20_memory.md R61, R79) and the ByteStore transactions with
the StreamCursor (20_memory.md R70, R71; 44_stream_decoder.md R221 to R225, R228). -/

namespace Sys2Proof.Machine

/-- The values a RAM byte has held since the running command was accepted, the present one first (R79). -/
def ramValues (s : State) (a : Nat) : List Byte :=
  s.ram.read a :: (s.ramOld.filter fun c => c.1 == a).map Prod.snd

/-- The byte a `MemRead` returns (R61, R79): of RAM, whichever of its values since acceptance the answer picks. -/
def localByte (s : State) (sp : Space) (a : Nat) (ans : Answer) : Byte :=
  match sp with
  | .rom => s.rom.read a
  | .ram => (ramValues s a).getD ans.older (s.ram.read a)

/-- Give a fetched byte to the pixel loop (R203, R233, R244). -/
def State.deliver (use : ByteUse) (b : Byte) (s : State) : State := s.push [.call (.bits use b 0)]

/-- `MemRead(sp, a, 1)` (R61). -/
def memRead (sp : Space) (a : Nat) (use : ByteUse) (ans : Answer) (s : State) : Host.Outcome State Fault Refusal :=
  if a < spaceSize s.cfg sp then
    let b := localByte s sp a ans
    .next ((s.observe (.memRead sp a b)).deliver use b)
  else .fault .localReadOutside

/-- `StreamInit(start, L)` (R222). -/
def streamStart (start : Word) (len : Word32) : StreamCursor := ⟨start, len, 0, .notStarted⟩

/-- The size of a block request, `B - (SC.RADDR mod B)` (R221). -/
def requestSize (c : Config) (raddr : Word) : Byte :=
  BitVec.ofNat 8 (c.blockSize.toNat - raddr.toNat % c.blockSize.toNat)

/-- `BsSeek(SC.RADDR)` (R70, R223). What was left of an earlier request is abandoned (R73). -/
def bsSeek (s : State) : State :=
  { s with bsPos := s.sc.raddr, bsLeft := 0 }.observe (.bsSeek s.sc.raddr)

/-- `BsRequest(n)` and the cursor updates that follow it (R224). -/
def bsRequest (s : State) : State :=
  let n := requestSize s.cfg s.sc.raddr
  { s with bsLeft := n, sc := { s.sc with kblk := n, fsm := .streaming } }.observe (.bsRequest n)

/-- The cursor after a byte is read (R224, R225). -/
def StreamCursor.consume (c : StreamCursor) : StreamCursor where
  raddr := c.raddr + 1
  bleft := c.bleft - 1
  kblk := c.kblk - 1
  fsm := if c.bleft - 1 = 0 then .done else if c.kblk - 1 = 0 then .requestingBlock else c.fsm

/-- The ByteStore answers a read with NoData: it says so, or the request has no byte left (R71). -/
def noData (ans : Answer) (s : State) : Bool := ans.noData || s.bsLeft == 0

/-- `BsRead()` (R71, R224): a byte, or NoData, which raises INCOMPLETE_STREAM (R228). -/
def bsRead (use : ByteUse) (ans : Answer) (s : State) : State :=
  if noData ans s then (s.observe (.bsRead none)).raiseError .incompleteStream
  else
    let b := s.remote.read s.bsPos.toNat
    ({ s with bsPos := s.bsPos + 1, bsLeft := s.bsLeft - 1, sc := s.sc.consume }.observe (.bsRead (some b))).deliver
      use b

/-- `nextByte()` (R224): a seek and a request first when the block is exhausted. -/
def nextByteTasks (c : StreamCursor) (use : ByteUse) : List Task :=
  if c.kblk = 0 then [.act .bsSeek, .act .bsRequest, .act (.bsRead use)] else [.act (.bsRead use)]

end Sys2Proof.Machine
end

