-- ==== Sys2Proof/Machine/Lines.lean ====
section
/-! DEFINITION. Runs, lines and rectangles (40_raster_lines.md): the shared procedures R120 and R121, one iteration of
each loop, and the commands LINE, HRUN, VRUN, RECT, FILLRECT. -/

namespace Sys2Proof.Machine

/-- A sink request as the next external action. -/
def Task.sink (r : SinkReq) : Task := .act (.sink r)

/-- `EmitH` (R121). -/
def emitHTasks (cfg : Config) (x y len c : Word) : List Task :=
  if len.toInt ≤ 0 then []
  else if cfg.sinkRuns then [.sink (.hrun x y len c)]
  else [.call (.plotsH x y c 0 len.toNat)]

/-- `EmitV` (R121). -/
def emitVTasks (cfg : Config) (x y len c : Word) : List Task :=
  if len.toInt ≤ 0 then []
  else if cfg.sinkRuns then [.sink (.vrun x y len c)]
  else [.call (.plotsV x y c 0 len.toNat)]

/-- One iteration of `EmitH`'s loop (R121), iteration `k` with `n` left. -/
def plotsHTasks (x y c : Word) (k : Nat) : Nat → List Task
  | 0 => []
  | n + 1 => [.sink (.plot (loopVar x k) y c), .call (.plotsH x y c (k + 1) n)]

/-- One iteration of `EmitV`'s loop (R121). -/
def plotsVTasks (x y c : Word) (k : Nat) : Nat → List Task
  | 0 => []
  | n + 1 => [.sink (.plot x (loopVar y k) c), .call (.plotsV x y c (k + 1) n)]

/-- The two endpoints of a line. -/
structure Segment where
  x0 : Word
  y0 : Word
  x1 : Word
  y1 : Word
deriving DecidableEq, Repr

/-- The line is steep: `abs16(y1 - y0) > abs16(x1 - x0)` (R120). -/
def segmentSteep (g : Segment) : Bool :=
  decide ((abs16 (g.x1 - g.x0)).toInt < (abs16 (g.y1 - g.y0)).toInt)

/-- Exchange the axes of a steep line (R120). -/
def transposeSteep (g : Segment) : Segment :=
  if segmentSteep g then ⟨g.y0, g.x0, g.y1, g.x1⟩ else g

/-- Order the endpoints along the major axis (R120). -/
def orderMajor (g : Segment) : Segment :=
  if g.x1.toInt < g.x0.toInt then ⟨g.x1, g.y1, g.x0, g.y0⟩ else g

/-- The working registers `LineCore` starts with (R120), for endpoints already normalised. -/
def lineRegs (steep : Bool) (g : Segment) (c : Word) : LineRegs where
  steep := steep
  xx := g.x0
  y := g.y0
  err := tdiv16 (g.x1 - g.x0) 2
  dx := g.x1 - g.x0
  dy := abs16 (g.y1 - g.y0)
  ystep := if g.y0.toInt < g.y1.toInt then 1 else -1
  c := c

/-- The endpoints of a line after `LineCore`'s normalisation (R120). -/
def normalised (x0 y0 x1 y1 : Word) : Segment :=
  orderMajor (transposeSteep ⟨x0, y0, x1, y1⟩)

/-- `LineCore(x0, y0, x1, y1, c)` (R120) up to its loop. -/
def lineCore (x0 y0 x1 y1 c : Word) : List Task :=
  let g := normalised x0 y0 x1 y1
  [.call (.lineLoop (lineRegs (segmentSteep ⟨x0, y0, x1, y1⟩) g c) (loopCount g.x0.toInt g.x1.toInt))]

/-- The PLOT of one iteration of `LineCore` (R120). -/
def linePlot (l : LineRegs) : SinkReq :=
  if l.steep then .plot l.y l.xx l.c else .plot l.xx l.y l.c

/-- The register updates of one iteration of `LineCore` (R120): the minor axis steps only on underflow. -/
def lineStep (l : LineRegs) : LineRegs :=
  let err := l.err - l.dy
  if err.toInt < 0 then { l with xx := l.xx + 1, y := l.y + l.ystep, err := err + l.dx }
  else { l with xx := l.xx + 1, err := err }

/-- One iteration of `LineCore`'s loop (R120). -/
def lineTasks (l : LineRegs) : Nat → List Task
  | 0 => []
  | n + 1 => [.sink (linePlot l), .call (.lineLoop (lineStep l) n)]

/-- The body of FILLRECT with its guard (R126). -/
def fillRectTasks (x y w h c : Word) : List Task :=
  if w.toInt ≤ 0 ∨ h.toInt ≤ 0 then [] else [.call (.fillCols x y h c 0 w.toNat)]

/-- One iteration of FILLRECT's loop (R126). -/
def fillColsTasks (x y h c : Word) (k : Nat) : Nat → List Task
  | 0 => []
  | n + 1 => [.call (.emitV (loopVar x k) y h c), .call (.fillCols x y h c (k + 1) n)]

/-- The pseudocode of LINE (R122). -/
def lineBody (r : Regs) : List Task := lineCore r.p0 r.p1 r.p2 r.p3 r.fg

/-- The pseudocode of HRUN (R123). -/
def hrunBody (r : Regs) : List Task := [.call (.emitH r.p0 r.p1 r.p2 r.fg)]

/-- The pseudocode of VRUN (R124). -/
def vrunBody (r : Regs) : List Task := [.call (.emitV r.p0 r.p1 r.p2 r.fg)]

/-- The pseudocode of RECT (R125): top, bottom, left, right. -/
def rectBody (r : Regs) : List Task :=
  if rectDegenerate r then []
  else
    [.call (.emitH r.p0 r.p1 r.p2 r.fg),
     .call (.emitH r.p0 (r.p1 + r.p3 - 1) r.p2 r.fg),
     .call (.emitV r.p0 r.p1 r.p3 r.fg),
     .call (.emitV (r.p0 + r.p2 - 1) r.p1 r.p3 r.fg)]

/-- The pseudocode of FILLRECT (R126). -/
def fillrectBody (r : Regs) : List Task := fillRectTasks r.p0 r.p1 r.p2 r.p3 r.fg

/-- LINE (R122). -/
def execLine (f : Flags) (s : State) : Host.Outcome State Fault Refusal :=
  acceptCommand (.line f) anyVerdict lineBody s

/-- HRUN (R123). -/
def execHrun (f : Flags) (s : State) : Host.Outcome State Fault Refusal :=
  acceptCommand (.hrun f) runVerdict hrunBody s

/-- VRUN (R124). -/
def execVrun (f : Flags) (s : State) : Host.Outcome State Fault Refusal :=
  acceptCommand (.vrun f) runVerdict vrunBody s

/-- RECT (R125). -/
def execRect (f : Flags) (s : State) : Host.Outcome State Fault Refusal :=
  acceptCommand (.rect f) rectVerdict rectBody s

/-- FILLRECT (R126). -/
def execFillrect (f : Flags) (s : State) : Host.Outcome State Fault Refusal :=
  acceptCommand (.fillrect f) rectVerdict fillrectBody s

end Sys2Proof.Machine
end

