-- ==== Sys2Proof/Machine/Blits.lean ====
section
/-! DEFINITION. The bitmap loops shared by the local and the streamed blit (43_bitmap_blitter.md R200 to R203,
44_stream_decoder.md R230, R233), and the commands BLIT and BLITXBM. -/

namespace Sys2Proof.Machine

/-- Fetch byte `k` of row `j` (R203, R233). -/
def fetchTasks (sc : StreamCursor) (b : BitmapRegs) (j k : Nat) : List Task :=
  match b.source with
  | .mem sp => [.act (.memRead sp (b.addr.toNat + j * b.bw + k) (.bitmap b j k))]
  | .stream => nextByteTasks sc (.bitmap b j k)

/-- One turn of the row and byte loops (R203, R233). -/
def bitmapTasks (sc : StreamCursor) (b : BitmapRegs) (j k : Nat) : List Task :=
  if (j : Int) < b.h.toInt then
    if k < b.bw then fetchTasks sc b j k ++ [.upd .byteDone, .call (.bitmapLoop b j (k + 1))]
    else [.upd .rowDone, .call (.bitmapLoop b (j + 1) 0)]
  else []

/-- Bit of the pixel at offset `b` within a bitmap byte (20_memory.md R65). -/
def bitmapBit (o : BitOrder) (byte : Byte) (b : Nat) : Bool :=
  match o with
  | .msb => byte.getLsbD (7 - b)
  | .lsb => byte.getLsbD b

/-- The request for one pixel: set bits in FG, clear bits in BG where the background is drawn (R203, R244). -/
def pixelReq (bit bgon : Bool) (x y : Word) (snap : Regs) : List SinkReq :=
  if bit then [.plot x y snap.fg] else if bgon then [.plot x y snap.bg] else []

/-- One turn of a bitmap byte's bit loop (R203, R233): padding bits end it. -/
def bitmapBitTasks (snap : Regs) (g : BitmapRegs) (j k : Nat) (byte : Byte) (b : Nat) : List Task :=
  let i := 8 * k + b
  if g.w.toInt ≤ (i : Int) then []
  else
    (pixelReq (bitmapBit g.order byte b) g.bgon (loopVar g.x i) (loopVar g.y j) snap).map .sink ++
      [.call (.bits (.bitmap g j k) byte (b + 1))]

/-- The locals of `BlitCore(order)` (R203). -/
def blitRegs (order : BitOrder) (r : Regs) : BitmapRegs where
  source := .mem r.srcSpace
  order := order
  x := r.p0
  y := r.p1
  addr := r.p2
  w := r.p3
  h := r.p4
  bw := byteWidth r.p3
  bgon := r.bgFlag

/-- `BlitCore(order)` (R203). -/
def blitCore (order : BitOrder) (r : Regs) : List Task := [.call (.bitmapLoop (blitRegs order r) 0 0)]

/-- The pseudocode of BLIT (R204). -/
def blitBody (r : Regs) : List Task := blitCore .msb r

/-- The pseudocode of BLITXBM (R205). -/
def blitxbmBody (r : Regs) : List Task := blitCore .lsb r

/-- BLIT (R204). -/
def execBlit (f : Flags) (s : State) : Host.Outcome State Fault Refusal :=
  acceptCommand (.blit f) blitVerdict blitBody s

/-- BLITXBM (R205). -/
def execBlitxbm (f : Flags) (s : State) : Host.Outcome State Fault Refusal :=
  acceptCommand (.blitxbm f) blitVerdict blitxbmBody s

end Sys2Proof.Machine
end

