-- ==== Sys2Proof/Machine/Circles.lean ====
section
/-! DEFINITION. Circles and rounded rectangles (41_raster_circles.md): the midpoint recurrence R150 and the commands
CIRCLE, CIRCLEH, FILLCIRCLEH, FILLCIRCLE, ROUNDRECT, FILLROUNDRECT. -/

namespace Sys2Proof.Machine

/-- `MidInit(r)` (R150). -/
def midInit (r : Word) : Mid where
  f := 1 - r
  ddFx := 1
  ddFy := -2 * r
  x := 0
  y := r

/-- The first half of `MidStep` (R150): what happens when `f >= 0`. -/
def midDescend (m : Mid) : Mid :=
  if 0 ≤ m.f.toInt then { m with y := m.y - 1, ddFy := m.ddFy + 2, f := m.f + (m.ddFy + 2) } else m

/-- `MidStep` (R150). -/
def midStep (m : Mid) : Mid :=
  let d := midDescend m
  { d with x := d.x + 1, ddFx := d.ddFx + 2, f := d.f + (d.ddFx + 2) }

/-- The loop condition `x < y` (R150). -/
def midMore (m : Mid) : Bool := decide (m.x.toInt < m.y.toInt)

/-- The 4 seeds of CIRCLE (R151). -/
def circleSeeds (cx cy r c : Word) : List SinkReq :=
  [.plot cx (cy + r) c, .plot cx (cy - r) c, .plot (cx + r) cy c, .plot (cx - r) cy c]

/-- The 8 symmetric points of one step of CIRCLE (R151). -/
def circlePoints (cx cy c x y : Word) : List SinkReq :=
  [.plot (cx + x) (cy + y) c, .plot (cx - x) (cy + y) c,
   .plot (cx + x) (cy - y) c, .plot (cx - x) (cy - y) c,
   .plot (cx + y) (cy + x) c, .plot (cx - y) (cy + x) c,
   .plot (cx + y) (cy - x) c, .plot (cx - y) (cy - x) c]

/-- One iteration of CIRCLE's loop (R151). -/
def circleTasks (cx cy c : Word) (m : Mid) : List Task :=
  if midMore m then
    let m' := midStep m
    (circlePoints cx cy c m'.x m'.y).map .sink ++ [.call (.circleLoop cx cy c m')]
  else []

/-- The points of one step of CIRCLEH (R152): bit 2 lower right, bit 1 upper right, bit 3 lower left, bit 0 upper
left. -/
def quadrantPoints (cx cy c : Word) (mask : BitVec 4) (x y : Word) : List SinkReq :=
  (if mask.getLsbD 2 then [.plot (cx + x) (cy + y) c, .plot (cx + y) (cy + x) c] else []) ++
  (if mask.getLsbD 1 then [.plot (cx + x) (cy - y) c, .plot (cx + y) (cy - x) c] else []) ++
  (if mask.getLsbD 3 then [.plot (cx - y) (cy + x) c, .plot (cx - x) (cy + y) c] else []) ++
  (if mask.getLsbD 0 then [.plot (cx - y) (cy - x) c, .plot (cx - x) (cy - y) c] else [])

/-- One iteration of CIRCLEH's loop (R152). -/
def circleHTasks (cx cy c : Word) (mask : BitVec 4) (m : Mid) : List Task :=
  if midMore m then
    let m' := midStep m
    (quadrantPoints cx cy c mask m'.x m'.y).map .sink ++ [.call (.circleHLoop cx cy c mask m')]
  else []

/-- The strips of one step of FILLCIRCLEH (R153): bit 0 right half, bit 1 left half. -/
def halfStrips (cx cy c : Word) (mask : BitVec 2) (delta x y : Word) : List Task :=
  (if mask.getLsbD 0 then
    [.call (.emitV (cx + x) (cy - y) (2 * y + 1 + delta) c), .call (.emitV (cx + y) (cy - x) (2 * x + 1 + delta) c)]
   else []) ++
  (if mask.getLsbD 1 then
    [.call (.emitV (cx - x) (cy - y) (2 * y + 1 + delta) c), .call (.emitV (cx - y) (cy - x) (2 * x + 1 + delta) c)]
   else [])

/-- One iteration of FILLCIRCLEH's loop (R153). -/
def fillCircleHTasks (cx cy c : Word) (mask : BitVec 2) (delta : Word) (m : Mid) : List Task :=
  if midMore m then
    let m' := midStep m
    halfStrips cx cy c mask delta m'.x m'.y ++ [.call (.fillCircleHLoop cx cy c mask delta m')]
  else []

/-- The body of CIRCLEH (R152). -/
def circleHCore (cx cy r : Word) (mask : BitVec 4) (c : Word) : List Task :=
  [.call (.circleHLoop cx cy c mask (midInit r))]

/-- The body of FILLCIRCLEH (R153). -/
def fillCircleHCore (cx cy r : Word) (mask : BitVec 2) (delta c : Word) : List Task :=
  [.call (.fillCircleHLoop cx cy c mask delta (midInit r))]

/-- The pseudocode of CIRCLE (R151). -/
def circleBody (r : Regs) : List Task :=
  (circleSeeds r.p0 r.p1 r.p2 r.fg).map .sink ++ [.call (.circleLoop r.p0 r.p1 r.fg (midInit r.p2))]

/-- The pseudocode of CIRCLEH (R152). -/
def circlehBody (r : Regs) : List Task := circleHCore r.p0 r.p1 r.p2 r.mask4 r.fg

/-- The pseudocode of FILLCIRCLEH (R153). -/
def fillcirclehBody (r : Regs) : List Task := fillCircleHCore r.p0 r.p1 r.p2 r.mask2 r.p4 r.fg

/-- The pseudocode of FILLCIRCLE (R154): the central run, then the body of FILLCIRCLEH with `m = 3`, `delta = 0`. R154
says that `r < 0` emits nothing, since `2r + 1 <= -1`. DEDUCED (log entry 20): that holds of every negative radius, also
where the 16-bit `2r + 1` of R9 would wrap to a positive length. -/
def fillcircleBody (r : Regs) : List Task :=
  (if r.p2.toInt < 0 then [] else [.call (.emitV r.p0 (r.p1 - r.p2) (2 * r.p2 + 1) r.fg)]) ++
  fillCircleHCore r.p0 r.p1 r.p2 3 0 r.fg

/-- The pseudocode of ROUNDRECT (R155). -/
def roundrectBody (g : Regs) : List Task :=
  let x := g.p0; let y := g.p1; let w := g.p2; let h := g.p3; let r := g.p4; let c := g.fg
  if rectDegenerate g then []
  else
    [.call (.emitH (x + r) y (w - 2 * r) c),
     .call (.emitH (x + r) (y + h - 1) (w - 2 * r) c),
     .call (.emitV x (y + r) (h - 2 * r) c),
     .call (.emitV (x + w - 1) (y + r) (h - 2 * r) c)] ++
    circleHCore (x + r) (y + r) r 0x1 c ++
    circleHCore (x + w - r - 1) (y + r) r 0x2 c ++
    circleHCore (x + w - r - 1) (y + h - r - 1) r 0x4 c ++
    circleHCore (x + r) (y + h - r - 1) r 0x8 c

/-- The pseudocode of FILLROUNDRECT (R156). -/
def fillroundrectBody (g : Regs) : List Task :=
  let x := g.p0; let y := g.p1; let w := g.p2; let h := g.p3; let r := g.p4; let c := g.fg
  if rectDegenerate g then []
  else
    fillRectTasks (x + r) y (w - 2 * r) h c ++
    fillCircleHCore (x + w - r - 1) (y + r) r 0x1 (h - 2 * r - 1) c ++
    fillCircleHCore (x + r) (y + r) r 0x2 (h - 2 * r - 1) c

/-- CIRCLE (R151). -/
def execCircle (f : Flags) (s : State) : Host.Outcome State Fault Refusal :=
  acceptCommand (.circle f) anyVerdict circleBody s

/-- CIRCLEH (R152). -/
def execCircleh (f : Flags) (s : State) : Host.Outcome State Fault Refusal :=
  acceptCommand (.circleh f) anyVerdict circlehBody s

/-- FILLCIRCLE (R154). -/
def execFillcircle (f : Flags) (s : State) : Host.Outcome State Fault Refusal :=
  acceptCommand (.fillcircle f) anyVerdict fillcircleBody s

/-- FILLCIRCLEH (R153). -/
def execFillcircleh (f : Flags) (s : State) : Host.Outcome State Fault Refusal :=
  acceptCommand (.fillcircleh f) anyVerdict fillcirclehBody s

/-- ROUNDRECT (R155). -/
def execRoundrect (f : Flags) (s : State) : Host.Outcome State Fault Refusal :=
  acceptCommand (.roundrect f) rectVerdict roundrectBody s

/-- FILLROUNDRECT (R156). -/
def execFillroundrect (f : Flags) (s : State) : Host.Outcome State Fault Refusal :=
  acceptCommand (.fillroundrect f) rectVerdict fillroundrectBody s

end Sys2Proof.Machine
end

