-- ==== Sys2Proof/Machine/Streams.lean ====
section
/-! DEFINITION. The paged stream decoder's commands (44_stream_decoder.md): SBLIT and SGLYPH. -/

namespace Sys2Proof.Machine

/-- The locals of SBLIT (R233). -/
def sblitRegs (r : Regs) : BitmapRegs where
  source := .stream
  order := .msb
  x := r.p0
  y := r.p1
  addr := r.p2
  w := r.p3
  h := r.p4
  bw := byteWidth r.p3
  bgon := r.bgFlag

/-- The locals of SGLYPH (R244). -/
def glyphRegs (r : Regs) : GlyphRegs where
  x := r.p0
  y := r.p1
  gw := r.glyphWidth
  gb := r.glyphBands

/-- One turn of the band and column loops (R244). -/
def glyphTasks (sc : StreamCursor) (g : GlyphRegs) (band col : Nat) : List Task :=
  if band < g.gb then
    if col < g.gw then
      nextByteTasks sc (.glyph g band col) ++ [.upd .byteDone, .call (.glyphLoop g band (col + 1))]
    else [.upd .rowDone, .call (.glyphLoop g (band + 1) 0)]
  else []

/-- Bit of row `r` of a column byte (R241). -/
def glyphBit (o : GlyphOrder) (byte : Byte) (r : Nat) : Bool :=
  match o with
  | .lsbTop => byte.getLsbD r
  | .msbTop => byte.getLsbD (7 - r)

/-- One turn of a column byte's row loop (R244). The background is drawn when the colours differ (R243). -/
def glyphBitTasks (cfg : Config) (snap : Regs) (g : GlyphRegs) (band col : Nat) (byte : Byte) (r : Nat) : List Task :=
  (pixelReq (glyphBit cfg.glyphOrder byte r) (snap.bg != snap.fg) (loopVar g.x col)
    (loopVar g.y (8 * band + r)) snap).map .sink ++ [.call (.bits (.glyph g band col) byte (r + 1))]

/-- The pseudocode of SBLIT (R233). -/
def sblitBody (r : Regs) : List Task :=
  [.upd (.streamInit r.p2 (BitVec.ofNat 32 (packedBytes r.p3 r.p4))), .call (.bitmapLoop (sblitRegs r) 0 0)]

/-- The pseudocode of SGLYPH (R244). -/
def sglyphBody (r : Regs) : List Task :=
  [.upd (.streamInit r.p2 (BitVec.ofNat 32 (r.glyphWidth * r.glyphBands))), .call (.glyphLoop (glyphRegs r) 0 0)]

/-- SBLIT (R233). -/
def execSblit (f : Flags) (s : State) : Host.Outcome State Fault Refusal :=
  acceptCommand (.sblit f) sblitVerdict sblitBody s

/-- SGLYPH (R244). -/
def execSglyph (f : Flags) (s : State) : Host.Outcome State Fault Refusal :=
  acceptCommand (.sglyph f) sglyphVerdict sglyphBody s

end Sys2Proof.Machine
end

