-- ==== Sys2Proof/Machine/Triangles.lean ====
section
/-! DEFINITION. Triangles (42_raster_triangles.md): TRIANGLE and FILLTRIANGLE. -/

namespace Sys2Proof.Machine

/-- The three vertices of a triangle. -/
structure Vertices where
  x0 : Word
  y0 : Word
  x1 : Word
  y1 : Word
  x2 : Word
  y2 : Word
deriving DecidableEq, Repr

/-- The vertices a triangle command is given (30_encoding.md R95). -/
def Regs.vertices (r : Regs) : Vertices := ⟨r.p0, r.p1, r.p2, r.p3, r.p4, r.p5⟩

/-- Compare-swap of vertices 0 and 1 by y, strict (R181 step 1). -/
def swap01 (v : Vertices) : Vertices :=
  if v.y1.toInt < v.y0.toInt then { v with x0 := v.x1, y0 := v.y1, x1 := v.x0, y1 := v.y0 } else v

/-- Compare-swap of vertices 1 and 2 by y, strict (R181 step 1). -/
def swap12 (v : Vertices) : Vertices :=
  if v.y2.toInt < v.y1.toInt then { v with x1 := v.x2, y1 := v.y2, x2 := v.x1, y2 := v.y1 } else v

/-- The vertices sorted by ascending y (R181 step 1). -/
def sortByY (v : Vertices) : Vertices := swap01 (swap12 (swap01 v))

/-- One line of step 2's else-if min/max (R181): widen the bounds to take in `x`. -/
def widen (b : Word × Word) (x : Word) : Word × Word :=
  if x.toInt < b.1.toInt then (x, b.2) else if b.2.toInt < x.toInt then (b.1, x) else b

/-- The x bounds of a triangle on one scanline (R181 step 2). -/
def rowBounds (v : Vertices) : Word × Word := widen (widen (v.x0, v.x0) v.x1) v.x2

/-- The x intercept `x + s / dy` of an edge (R181): the low 16 bits of the `int32` sum. -/
def intercept (x : Word) (s : Word32) (dy : Word) : Word := low16 (sext32 x + tdiv32 s (sext32 dy))

/-- The run of one scanline between two intercepts, sorted low to high (R181). -/
def scanRun (a b y c : Word) : Proc :=
  if b.toInt < a.toInt then .emitH b y (a - b + 1) c else .emitH a y (b - a + 1) c

/-- The run of the scanline the registers stand at (R181 steps 4 and 5). -/
def triRun (t : TriRegs) : Proc :=
  scanRun (intercept t.xa t.sa t.dya) (intercept t.xb t.sb t.dyb) t.y t.c

/-- The register updates of one scanline (R181 steps 4 and 5). -/
def triStep (t : TriRegs) : TriRegs :=
  { t with sa := t.sa + sext32 t.dxa, sb := t.sb + sext32 t.dxb, y := t.y + 1 }

/-- One iteration of a scan loop (R181). -/
def triTasks (t : TriRegs) : Nat → List Task
  | 0 => []
  | n + 1 => [.call (triRun t), .call (.triLoop (triStep t) n)]

/-- The last scanline of the upper part (R181 step 4), exact. DEDUCED (log entry 5): exact, so that no division by zero
occurs. -/
def upperLast (v : Vertices) : Int :=
  if v.y1 = v.y2 then v.y1.toInt else v.y1.toInt - 1

/-- The registers of the upper scan loop: edges 0-1 and 0-2 (R181 step 4). -/
def upperRegs (v : Vertices) (c : Word) : TriRegs where
  xa := v.x0
  xb := v.x0
  dxa := v.x1 - v.x0
  dxb := v.x2 - v.x0
  dya := v.y1 - v.y0
  dyb := v.y2 - v.y0
  sa := 0
  sb := 0
  y := v.y0
  c := c

/-- The first scanline of the lower part, `ys <- last + 1`, as an `int16` (R181 step 5). -/
def lowerStart (v : Vertices) : Word := BitVec.ofInt 16 (upperLast v + 1)

/-- The registers of the lower scan loop: edges 1-2 and 0-2 (R181 step 5). -/
def lowerRegs (v : Vertices) (c : Word) : TriRegs where
  xa := v.x1
  xb := v.x0
  dxa := v.x2 - v.x1
  dxb := v.x2 - v.x0
  dya := v.y2 - v.y1
  dyb := v.y2 - v.y0
  sa := sext32 (v.x2 - v.x1) * sext32 (lowerStart v - v.y1)
  sb := sext32 (v.x2 - v.x0) * sext32 (lowerStart v - v.y0)
  y := lowerStart v
  c := c

/-- FILLTRIANGLE of sorted vertices (R181 steps 2 to 5). -/
def fillSorted (v : Vertices) (c : Word) : List Task :=
  if v.y0 = v.y2 then
    let b := rowBounds v
    [.call (.emitH b.1 v.y0 (b.2 - b.1 + 1) c)]
  else
    [.call (.triLoop (upperRegs v c) (loopCount v.y0.toInt (upperLast v))),
     .call (.triLoop (lowerRegs v c) (loopCount (upperLast v + 1) v.y2.toInt))]

/-- The pseudocode of TRIANGLE (R180): edges 0-1, 1-2, 2-0. -/
def triangleBody (r : Regs) : List Task :=
  lineCore r.p0 r.p1 r.p2 r.p3 r.fg ++ lineCore r.p2 r.p3 r.p4 r.p5 r.fg ++ lineCore r.p4 r.p5 r.p0 r.p1 r.fg

/-- The pseudocode of FILLTRIANGLE (R181). -/
def filltriangleBody (r : Regs) : List Task := fillSorted (sortByY r.vertices) r.fg

/-- TRIANGLE (R180). -/
def execTriangle (f : Flags) (s : State) : Host.Outcome State Fault Refusal :=
  acceptCommand (.triangle f) anyVerdict triangleBody s

/-- FILLTRIANGLE (R181). -/
def execFilltriangle (f : Flags) (s : State) : Host.Outcome State Fault Refusal :=
  acceptCommand (.filltriangle f) anyVerdict filltriangleBody s

end Sys2Proof.Machine
end

