-- ==== Sys2Proof/Machine/Dispatch.lean ====
section
/-! DEFINITION. `exec`: the meaning of each command, a host write of its word to CMD (10_state.md R22, R35). -/

namespace Sys2Proof.Machine

def exec (i : Instr) (s : State) : Host.Outcome State Fault Refusal :=
  match i with
  | .line f => Sys2Proof.Machine.execLine f s
  | .hrun f => Sys2Proof.Machine.execHrun f s
  | .vrun f => Sys2Proof.Machine.execVrun f s
  | .rect f => Sys2Proof.Machine.execRect f s
  | .fillrect f => Sys2Proof.Machine.execFillrect f s
  | .circle f => Sys2Proof.Machine.execCircle f s
  | .circleh f => Sys2Proof.Machine.execCircleh f s
  | .fillcircle f => Sys2Proof.Machine.execFillcircle f s
  | .fillcircleh f => Sys2Proof.Machine.execFillcircleh f s
  | .roundrect f => Sys2Proof.Machine.execRoundrect f s
  | .fillroundrect f => Sys2Proof.Machine.execFillroundrect f s
  | .triangle f => Sys2Proof.Machine.execTriangle f s
  | .filltriangle f => Sys2Proof.Machine.execFilltriangle f s
  | .blit f => Sys2Proof.Machine.execBlit f s
  | .blitxbm f => Sys2Proof.Machine.execBlitxbm f s
  | .sblit f => Sys2Proof.Machine.execSblit f s
  | .sglyph f => Sys2Proof.Machine.execSglyph f s

end Sys2Proof.Machine
end

