-- ==== Sys2Proof/Machine/Engine.lean ====
section
/-! DEFINITION. The engine step (10_state.md R37, R38): one external action, with the internal computation up to the
next one. -/

namespace Sys2Proof.Machine

/-- The procedure or loop at the head of the continuation, unfolded by one turn (files 40 to 44). -/
def unfold (cfg : Config) (snap : Regs) (sc : StreamCursor) : Proc → List Task
  | .emitH x y len c => emitHTasks cfg x y len c
  | .emitV x y len c => emitVTasks cfg x y len c
  | .plotsH x y c k n => plotsHTasks x y c k n
  | .plotsV x y c k n => plotsVTasks x y c k n
  | .lineLoop l n => lineTasks l n
  | .fillCols x y h c k n => fillColsTasks x y h c k n
  | .circleLoop cx cy c m => circleTasks cx cy c m
  | .circleHLoop cx cy c mask m => circleHTasks cx cy c mask m
  | .fillCircleHLoop cx cy c mask delta m => fillCircleHTasks cx cy c mask delta m
  | .triLoop t n => triTasks t n
  | .bitmapLoop b j k => bitmapTasks sc b j k
  | .glyphLoop g band col => glyphTasks sc g band col
  | .bits (.bitmap g j k) byte b => if b < 8 then bitmapBitTasks snap g j k byte b else []
  | .bits (.glyph g band col) byte r => if r < 8 then glyphBitTasks cfg snap g band col byte r else []

/-- A register update the pseudocode makes between actions (R203, R222, R233, R244). -/
def State.update (u : Update) (s : State) : State :=
  match u with
  | .byteDone => { s with bdone := s.bdone + 1 }
  | .rowDone => { s with rdone := s.rdone + 1 }
  | .streamInit start len => { s with sc := streamStart start len }

/-- An upper bound on how many internal turns stand between a task and the next external action. -/
def Task.cost : Task → Nat
  | .act _ => 0
  | .upd _ => 1
  | .call p =>
    match p with
    | .emitH .. | .emitV .. => 2
    | .plotsH .. | .plotsV .. | .lineLoop .. | .circleLoop .. => 1
    | .fillCols _ _ _ _ _ n | .triLoop _ n => 3 * n + 1
    | .circleHLoop _ _ _ _ m => (m.y.toInt - m.x.toInt).toNat + 1
    | .fillCircleHLoop _ _ _ _ _ m => 9 * (m.y.toInt - m.x.toInt).toNat + 1
    | .bitmapLoop b j _ => 2 * (b.h.toInt - j).toNat + 1
    | .glyphLoop g band _ => 2 * (g.gb - band) + 1
    | .bits _ _ b => (8 - b) + 1

/-- The bound for a continuation. -/
def contCost (ts : List Task) : Nat := (ts.map Task.cost).sum

/-- Internal computation, at most `fuel` turns of it: stops before an external action or at the end of the command. -/
def settleFor : Nat → State → State
  | 0, s => s
  | fuel + 1, s =>
    match s.cont with
    | [] => s
    | .act _ :: _ => s
    | .upd u :: rest => settleFor fuel (State.update u { s with cont := rest })
    | .call p :: rest => settleFor fuel (State.push (unfold s.cfg s.snap s.sc p) { s with cont := rest })

/-- The internal computation that precedes the next action (R38). `contCost` is fuel enough (Laws/Engine.lean). -/
def settle (s : State) : State := settleFor (contCost s.cont) s

/-- One external action, its partner answering `ans` (00_scope.md R12). -/
def perform (a : Action) (ans : Answer) (s : State) : Host.Outcome State Fault Refusal :=
  match a with
  | .sink r => .next (s.observe (.sink r))
  | .memRead sp addr use => memRead sp addr use ans s
  | .bsSeek => .next (bsSeek s)
  | .bsRequest => .next (bsRequest s)
  | .bsRead use => .next (bsRead use ans s)

/-- After an action (R37, R38): the internal computation that follows, and completion when nothing remains. -/
def finishAction (s : State) : State :=
  let t := settle s
  if t.cont.isEmpty then t.complete else t

/-- The engine's step, the partner of its pending action answering `ans` (R38). Idle, the engine offers no action and
nothing happens. A command that ends without any action takes one internal step (R37). The last arm is never reached: `settle`
stops only before an action or at the end (Laws/Engine.lean). -/
def engineTurn (ans : Answer) (s : State) : Host.Outcome State Fault Refusal :=
  match s.eng with
  | .idle => .next s
  | .exec =>
    let t := settle s
    match t.cont with
    | .act a :: rest =>
      match perform a ans { t with cont := rest } with
      | .next u => .next (finishAction u)
      | .fault e => .fault e
      | .refused e => .refused e
    | [] => .next t.complete
    | _ => .next t

/-- Engine steps one after another, one answer each. -/
def engineRun : List Answer → State → Host.Outcome State Fault Refusal
  | [], s => .next s
  | a :: as, s =>
    match engineTurn a s with
    | .next t => engineRun as t
    | .fault e => .fault e
    | .refused e => .refused e

end Sys2Proof.Machine
end

