-- ==== Sys2Proof/Machine/HostPort.lean ====
section
/-! DEFINITION. The host's side (10_state.md R20 to R27, 70_reset_and_hazards.md R350 to R352): register reads and
writes, writes to local RAM, the WAIT loop, and the reset input. -/

namespace Sys2Proof.Machine

/-- Offset of CMD (R21). -/
def offCmd : Offset := 0x0

/-- Offset of STATUS (R21). -/
def offStatus : Offset := 0x1

/-- A host read of a register (R21): the value returned. -/
def readReg (off : Offset) (s : State) : Word :=
  match off.toNat with
  | 0x0 => s.live.cmd
  | 0x1 => s.status
  | 0x2 => s.live.p0
  | 0x3 => s.live.p1
  | 0x4 => s.live.p2
  | 0x5 => s.live.p3
  | 0x6 => s.live.p4
  | 0x7 => s.live.p5
  | 0x8 => s.live.fg
  | 0x9 => s.live.bg
  | 0xA => s.bdone.extractLsb' 0 16
  | 0xB => s.bdone.extractLsb' 16 16
  | 0xC => s.rdone
  | 0xD => configWord s.cfg
  | _ => 0

/-- A host write of `w` to CMD (R22): the command the word decodes to, or an illegal word. -/
def writeCmd (w : Word) (s : State) : Host.Outcome State Fault Refusal :=
  match decode w with
  | .ok i => exec i s
  | .error _ => acceptIllegal w s

/-- A host write to a register other than CMD (R21, R23 to R25): a write to a read-only or reserved offset changes
nothing. -/
def writeReg (off : Offset) (v : Word) (s : State) : State :=
  match off.toNat with
  | 0x1 => { s with status := statusWritten v s.status }
  | 0x2 => { s with live := { s.live with p0 := v } }
  | 0x3 => { s with live := { s.live with p1 := v } }
  | 0x4 => { s with live := { s.live with p2 := v } }
  | 0x5 => { s with live := { s.live with p3 := v } }
  | 0x6 => { s with live := { s.live with p4 := v } }
  | 0x7 => { s with live := { s.live with p5 := v } }
  | 0x8 => { s with live := { s.live with fg := v } }
  | 0x9 => { s with live := { s.live with bg := v } }
  | _ => s

/-- A host write of a whole register (R20, R21). -/
def hostWrite (off : Offset) (v : Word) (s : State) : Host.Outcome State Fault Refusal :=
  if off = offCmd then writeCmd v s else .next (writeReg off v s)

/-- A host read of a whole register (R20, R21). -/
def hostRead (off : Offset) (s : State) : State := s.observe (.hostRead off (readReg off s))

/-- A host write of a byte of local RAM (20_memory.md R63, R79). While a command runs, the byte it overwrites is kept,
since a later read of the command may still return it. -/
def hostRamWrite (a : Word) (b : Byte) (s : State) : Host.Outcome State Fault Refusal :=
  if a.toNat < s.cfg.ramSize then
    .next { s with
      ram := s.ram.write a.toNat b
      ramOld := if s.busy then (a.toNat, s.ram.read a.toNat) :: s.ramOld else s.ramOld }
  else .fault .hostRamOutside

/-- The host's turn: its next access. `WAIT` reads STATUS and stays in the program until it reads BUSY = 0 (30_encoding.md
R100). A host whose program has ended does nothing. -/
def hostTurn (s : State) : Host.Outcome State Fault Refusal :=
  match s.host with
  | [] => .next s
  | .wr off v :: rest => hostWrite off v { s with host := rest }
  | .rd off :: rest => .next (hostRead off { s with host := rest })
  | .wait :: rest => .next (hostRead offStatus (if s.busy then s else { s with host := rest }))
  | .ramWrite a b :: rest => hostRamWrite a b { s with host := rest }

/-- Reset (R350 to R353): every piece of engine state takes its reset value. CONFIG, the memories, the ByteStore and the
world's schedule are not the engine's to reset; what was observed stays observed. -/
def assertReset (s : State) : State :=
  { State.resetWith s.cfg with
    ram := s.ram
    rom := s.rom
    remote := s.remote
    bsPos := s.bsPos
    bsLeft := s.bsLeft
    host := s.host
    world := s.world
    turnNo := s.turnNo
    trace := s.trace }

/-- One turn of the world (00_scope.md R17). -/
def takeTurn (t : Turn) (s : State) : Host.Outcome State Fault Refusal :=
  match t with
  | .host => hostTurn s
  | .engine ans => engineTurn ans s
  | .reset => .next (assertReset s)

/-- The turn that is next, and the state it is taken in: the schedule's, or a free one (log entry 2). -/
def nextTurn (s : State) : Turn × State :=
  match s.world with
  | t :: ts => (t, { s with world := ts })
  | [] => (Config.freeTurn s.turnNo, { s with turnNo := s.turnNo + 1 })

end Sys2Proof.Machine
end

