-- ==== Sys2Proof/Machine/Step.lean ====
section
/-! DEFINITION. One step of the machine: one turn of the world (10_state.md R38). The engine has no program counter and
fetches nothing (R33); a command is delivered whole by the host's write of its word to CMD. -/

namespace Sys2Proof.Machine

/-- One step: the next turn is taken. -/
def step (s : State) : Host.Outcome State Fault Refusal :=
  takeTurn (nextTurn s).1 (nextTurn s).2

/-- The state in which the very next step is the host's write of a table row's word to CMD (log entry 6). -/
def State.withFetchWord (s : State) (nbits w : Nat) : State :=
  { s with host := .wr offCmd (tableWord nbits w) :: s.host, world := .host :: s.world }

end Sys2Proof.Machine
end

