-- ==== Sys2Proof/Machine/HostSyntax.lean ====
section
/-! DEFINITION. The host's assembler (30_encoding.md R99, R100): the text of a host program, statement by statement, to
the register accesses it stands for. A line is a list of characters. -/

namespace Sys2Proof.Machine

/-- The register names of R21 and their offsets. -/
def regNames : List (List Char × Offset) :=
  [(['C', 'M', 'D'], 0x0), (['S', 'T', 'A', 'T', 'U', 'S'], 0x1),
   (['P', '0'], 0x2), (['P', '1'], 0x3), (['P', '2'], 0x4), (['P', '3'], 0x5), (['P', '4'], 0x6), (['P', '5'], 0x7),
   (['F', 'G'], 0x8), (['B', 'G'], 0x9),
   (['B', 'D', 'O', 'N', 'E', '_', 'L', 'O'], 0xA), (['B', 'D', 'O', 'N', 'E', '_', 'H', 'I'], 0xB),
   (['R', 'D', 'O', 'N', 'E'], 0xC), (['C', 'O', 'N', 'F', 'I', 'G'], 0xD)]

/-- The mnemonics of R92. -/
def mnemonics : List (List Char × (Flags → Instr)) :=
  [(['L', 'I', 'N', 'E'], .line), (['H', 'R', 'U', 'N'], .hrun), (['V', 'R', 'U', 'N'], .vrun),
   (['R', 'E', 'C', 'T'], .rect), (['F', 'I', 'L', 'L', 'R', 'E', 'C', 'T'], .fillrect),
   (['C', 'I', 'R', 'C', 'L', 'E'], .circle), (['C', 'I', 'R', 'C', 'L', 'E', 'H'], .circleh),
   (['F', 'I', 'L', 'L', 'C', 'I', 'R', 'C', 'L', 'E'], .fillcircle),
   (['F', 'I', 'L', 'L', 'C', 'I', 'R', 'C', 'L', 'E', 'H'], .fillcircleh),
   (['R', 'O', 'U', 'N', 'D', 'R', 'E', 'C', 'T'], .roundrect),
   (['F', 'I', 'L', 'L', 'R', 'O', 'U', 'N', 'D', 'R', 'E', 'C', 'T'], .fillroundrect),
   (['T', 'R', 'I', 'A', 'N', 'G', 'L', 'E'], .triangle),
   (['F', 'I', 'L', 'L', 'T', 'R', 'I', 'A', 'N', 'G', 'L', 'E'], .filltriangle),
   (['B', 'L', 'I', 'T'], .blit), (['B', 'L', 'I', 'T', 'X', 'B', 'M'], .blitxbm),
   (['S', 'B', 'L', 'I', 'T'], .sblit), (['S', 'G', 'L', 'Y', 'P', 'H'], .sglyph)]

/-- How many operand registers a command names (R95). -/
def arity : Instr → Nat
  | .hrun _ | .vrun _ | .circle _ | .fillcircle _ => 3
  | .line _ | .rect _ | .fillrect _ | .circleh _ => 4
  | .fillcircleh _ | .roundrect _ | .fillroundrect _ | .blit _ | .blitxbm _ | .sblit _ | .sglyph _ => 5
  | .triangle _ | .filltriangle _ => 6

/-- Whether the suffix `w` stands next, and the suffixes after it. -/
def takeSuffix (w : List Char) (sufs : List (List Char)) : Bool × List (List Char) :=
  if sufs.head? = some w then (true, sufs.tail) else (false, sufs)

/-- The flags that the suffixes `[.BG][.ROM][.ALN]` set (R100). DESIGN CHOICE (log entry 13): each stands at most once and
in this order, as R100 writes them; suffixes in another order, repeated, or of another name are refused. -/
def suffixFlags (sufs : List (List Char)) : Option Flags :=
  let bg := takeSuffix ['B', 'G'] sufs
  let rom := takeSuffix ['R', 'O', 'M'] bg.2
  let aln := takeSuffix ['A', 'L', 'N'] rom.2
  if aln.2 = [] then some { bg := bg.1, src := rom.1, aln := aln.1 } else none

/-- The value of a decimal digit. -/
def decDigit (c : Char) : Option Nat :=
  if '0'.toNat ≤ c.toNat ∧ c.toNat ≤ '9'.toNat then some (c.toNat - '0'.toNat) else none

/-- The value of a hexadecimal digit. -/
def hexDigit (c : Char) : Option Nat :=
  if 'A'.toNat ≤ c.toNat ∧ c.toNat ≤ 'F'.toNat then some (c.toNat - 'A'.toNat + 10)
  else if 'a'.toNat ≤ c.toNat ∧ c.toNat ≤ 'f'.toNat then some (c.toNat - 'a'.toNat + 10)
  else decDigit c

/-- The number a list of digits writes, from the number read so far. -/
def digits (base : Nat) (digit : Char → Option Nat) : Nat → List Char → Option Nat
  | acc, [] => some acc
  | acc, c :: cs => (digit c).bind fun d => digits base digit (acc * base + d) cs

/-- A number with at least one digit. -/
def number (base : Nat) (digit : Char → Option Nat) : List Char → Option Nat
  | [] => none
  | cs => digits base digit 0 cs

/-- A `<value>` (R99): decimal in -32768..65535 or hexadecimal in 0x0000..0xFFFF, as its 16-bit pattern. DESIGN CHOICE (log
entry 13): R99's bounds are read as bounds of the value, so the number of digits is free (`0x1`, `0x00001`, `007`), and
`-0` is 0. -/
def parseValue (w : List Char) : Option Word :=
  match w with
  | '0' :: 'x' :: cs => (number 16 hexDigit cs).bind fun n => if n ≤ 0xFFFF then some (BitVec.ofNat 16 n) else none
  | '-' :: cs => (number 10 decDigit cs).bind fun n => if n ≤ 32768 then some (BitVec.ofInt 16 (-n)) else none
  | cs => (number 10 decDigit cs).bind fun n => if n ≤ 65535 then some (BitVec.ofNat 16 n) else none

/-- A `<reg>` (R99): a register name of R21 or an offset `0x0`..`0xF`. DESIGN CHOICE (log entry 13): an offset has exactly
one digit. -/
def parseReg (w : List Char) : Option Offset :=
  match regNames.lookup w with
  | some off => some off
  | none =>
    match w with
    | ['0', 'x', c] => (hexDigit c).map (BitVec.ofNat 4)
    | _ => none

/-- Pieces of a line between occurrences of `sep`. -/
def splitOn (sep : Char) : List Char → List (List Char)
  | [] => [[]]
  | c :: cs =>
    match splitOn sep cs with
    | [] => [[]]
    | w :: ws => if c = sep then [] :: w :: ws else (c :: w) :: ws

/-- The words of a piece of text. -/
def wordsOf (cs : List Char) : List (List Char) := (splitOn ' ' cs).filter (!·.isEmpty)

/-- The line without its comment (R99), which may follow a statement on its line (as in the programs of
95_test_vectors.md). -/
def uncomment (cs : List Char) : List Char := cs.takeWhile (· != ';')

/-- The register writes of a command pseudo-instruction (R100): each operand to its P register, then the word to
CMD. -/
def expandCommand (i : Instr) (args : List Word) : Option (List HostOp) :=
  if args.length = arity i then
    some (args.mapIdx (fun k v => .wr (BitVec.ofNat 4 (2 + k)) v) ++ [.wr 0x0 (encode i)])
  else none

/-- A command's mnemonic with its suffixes (R100), on any mnemonic: the engine refuses a flag the operation does not
allow (R97). -/
def parseMnemonic (w : List Char) : Option Instr :=
  match splitOn '.' w with
  | [] => none
  | m :: sufs => (mnemonics.lookup m).bind fun op => (suffixFlags sufs).map op

/-- The one word of a piece of text. -/
def oneWord (cs : List Char) : Option (List Char) :=
  match wordsOf cs with
  | [w] => some w
  | _ => none

/-- The statement whose words up to the first comma are `first` and whose further operands are `rest` (R99, R100). -/
def parseParts (first : List (List Char)) (rest : List (List Char)) : Option (List HostOp) :=
  match first, rest with
  | [], [] => some []
  | [['W', 'A', 'I', 'T']], [] => some [.wait]
  | [['W', 'R'], r], [v] => (parseReg r).bind fun off => (parseValue v).map fun x => [.wr off x]
  | [['R', 'D'], r], [] => (parseReg r).map fun off => [.rd off]
  | [['C', 'O', 'L', 'O', 'R'], v], [] => (parseValue v).map fun x => [.wr 0x8 x]
  | [['B', 'G', 'C', 'O', 'L', 'O', 'R'], v], [] => (parseValue v).map fun x => [.wr 0x9 x]
  | [m, a], vs => (parseMnemonic m).bind fun i => ((a :: vs).mapM parseValue).bind (expandCommand i)
  | _, _ => none

/-- One line of a host program (R99, R100); a blank line or a comment stands for no access. -/
def parseLine (line : List Char) : Option (List HostOp) :=
  match splitOn ',' (uncomment line) with
  | [] => some []
  | first :: rest => (rest.mapM oneWord).bind (parseParts (wordsOf first))

/-- A host program, line by line. -/
def assemble (lines : List (List Char)) : Option (List HostOp) :=
  (lines.mapM parseLine).map List.flatten

end Sys2Proof.Machine
end

