-- ==== Sys2Proof/Machine/Emission.lean ====
section
/-! DEFINITION. What a command owes its observer (00_scope.md R16, R18), as lists written without the engine's loops:
the vocabulary of the statements. The k-th element of a list is given directly, where the engine arrives at it register
by register. -/

namespace Sys2Proof.Machine

/-- The requests of `EmitH` (40_raster_lines.md R121). -/
def runH (cfg : Config) (x y len c : Word) : List SinkReq :=
  if len.toInt ≤ 0 then []
  else if cfg.sinkRuns then [.hrun x y len c]
  else (List.range len.toNat).map fun k => .plot (loopVar x k) y c

/-- The requests of `EmitV` (R121). -/
def runV (cfg : Config) (x y len c : Word) : List SinkReq :=
  if len.toInt ≤ 0 then []
  else if cfg.sinkRuns then [.vrun x y len c]
  else (List.range len.toNat).map fun k => .plot x (loopVar y k) c

/-- The PLOTs of `LineCore` (R120): the k-th is made of the registers after k iterations. -/
def linePlots (x0 y0 x1 y1 c : Word) : List SinkReq :=
  let g := normalised x0 y0 x1 y1
  let l := lineRegs (segmentSteep ⟨x0, y0, x1, y1⟩) g c
  (List.range (loopCount g.x0.toInt g.x1.toInt)).map fun k => linePlot (lineStep^[k] l)

/-- The columns of FILLRECT with its guard (R126). -/
def rectColumns (cfg : Config) (x y w h c : Word) : List SinkReq :=
  if h.toInt ≤ 0 then [] else (List.range w.toInt.toNat).flatMap fun k => runV cfg (loopVar x k) y h c

/-- The pairs `(x, y)` the midpoint loop emits, at most `n` of them (41_raster_circles.md R150). -/
def midLoop : Nat → Mid → List (Word × Word)
  | 0, _ => []
  | n + 1, m => if midMore m then ((midStep m).x, (midStep m).y) :: midLoop n (midStep m) else []

/-- The pairs `(x, y)` the midpoint loop emits for radius `r` (R150: at most `r` of them). -/
def midPairs (r : Word) : List (Word × Word) := midLoop r.toInt.toNat (midInit r)

/-- The points of CIRCLEH (R152). -/
def arcPoints (cx cy r : Word) (mask : BitVec 4) (c : Word) : List SinkReq :=
  (midPairs r).flatMap fun p => quadrantPoints cx cy c mask p.1 p.2

/-- The strips of one pair of FILLCIRCLEH (R153). -/
def stripRuns (cfg : Config) (cx cy : Word) (mask : BitVec 2) (delta c x y : Word) : List SinkReq :=
  (if mask.getLsbD 0 then
    runV cfg (cx + x) (cy - y) (2 * y + 1 + delta) c ++ runV cfg (cx + y) (cy - x) (2 * x + 1 + delta) c else []) ++
  (if mask.getLsbD 1 then
    runV cfg (cx - x) (cy - y) (2 * y + 1 + delta) c ++ runV cfg (cx - y) (cy - x) (2 * x + 1 + delta) c else [])

/-- The strips of FILLCIRCLEH (R153). -/
def diskStrips (cfg : Config) (cx cy r : Word) (mask : BitVec 2) (delta c : Word) : List SinkReq :=
  (midPairs r).flatMap fun p => stripRuns cfg cx cy mask delta c p.1 p.2

/-- The requests of an `EmitH` (R181 emits no other run). -/
def scanRequests (cfg : Config) (a b y c : Word) : List SinkReq :=
  if b.toInt < a.toInt then runH cfg b y (a - b + 1) c else runH cfg a y (b - a + 1) c

/-- The requests of `n` scanlines (42_raster_triangles.md R181): scanline `k` has its numerators computed outright, not
accumulated. -/
def scanLines (cfg : Config) (t : TriRegs) (n : Nat) : List SinkReq :=
  (List.range n).flatMap fun k =>
    scanRequests cfg (intercept t.xa (t.sa + BitVec.ofNat 32 k * sext32 t.dxa) t.dya)
      (intercept t.xb (t.sb + BitVec.ofNat 32 k * sext32 t.dxb) t.dyb) (loopVar t.y k) t.c

/-- LINE (R122). -/
def lineEmission (r : Regs) : List SinkReq := linePlots r.p0 r.p1 r.p2 r.p3 r.fg

/-- HRUN (R123). -/
def hrunEmission (cfg : Config) (r : Regs) : List SinkReq := runH cfg r.p0 r.p1 r.p2 r.fg

/-- VRUN (R124). -/
def vrunEmission (cfg : Config) (r : Regs) : List SinkReq := runV cfg r.p0 r.p1 r.p2 r.fg

/-- RECT (R125). -/
def rectEmission (cfg : Config) (r : Regs) : List SinkReq :=
  runH cfg r.p0 r.p1 r.p2 r.fg ++ runH cfg r.p0 (r.p1 + r.p3 - 1) r.p2 r.fg ++
  runV cfg r.p0 r.p1 r.p3 r.fg ++ runV cfg (r.p0 + r.p2 - 1) r.p1 r.p3 r.fg

/-- FILLRECT (R126). -/
def fillrectEmission (cfg : Config) (r : Regs) : List SinkReq := rectColumns cfg r.p0 r.p1 r.p2 r.p3 r.fg

/-- CIRCLE (R151). -/
def circleEmission (r : Regs) : List SinkReq :=
  circleSeeds r.p0 r.p1 r.p2 r.fg ++ (midPairs r.p2).flatMap fun p => circlePoints r.p0 r.p1 r.fg p.1 p.2

/-- CIRCLEH (R152). -/
def circlehEmission (r : Regs) : List SinkReq := arcPoints r.p0 r.p1 r.p2 r.mask4 r.fg

/-- FILLCIRCLEH (R153). -/
def fillcirclehEmission (cfg : Config) (r : Regs) : List SinkReq :=
  diskStrips cfg r.p0 r.p1 r.p2 r.mask2 r.p4 r.fg

/-- FILLCIRCLE (R154): nothing for a negative radius (log entry 20). -/
def fillcircleEmission (cfg : Config) (r : Regs) : List SinkReq :=
  if r.p2.toInt < 0 then []
  else runV cfg r.p0 (r.p1 - r.p2) (2 * r.p2 + 1) r.fg ++ diskStrips cfg r.p0 r.p1 r.p2 3 0 r.fg

/-- ROUNDRECT (R155). -/
def roundrectEmission (cfg : Config) (g : Regs) : List SinkReq :=
  let x := g.p0; let y := g.p1; let w := g.p2; let h := g.p3; let r := g.p4; let c := g.fg
  runH cfg (x + r) y (w - 2 * r) c ++ runH cfg (x + r) (y + h - 1) (w - 2 * r) c ++
  runV cfg x (y + r) (h - 2 * r) c ++ runV cfg (x + w - 1) (y + r) (h - 2 * r) c ++
  arcPoints (x + r) (y + r) r 0x1 c ++ arcPoints (x + w - r - 1) (y + r) r 0x2 c ++
  arcPoints (x + w - r - 1) (y + h - r - 1) r 0x4 c ++ arcPoints (x + r) (y + h - r - 1) r 0x8 c

/-- FILLROUNDRECT (R156). -/
def fillroundrectEmission (cfg : Config) (g : Regs) : List SinkReq :=
  let x := g.p0; let y := g.p1; let w := g.p2; let h := g.p3; let r := g.p4; let c := g.fg
  rectColumns cfg (x + r) y (w - 2 * r) h c ++
  diskStrips cfg (x + w - r - 1) (y + r) r 0x1 (h - 2 * r - 1) c ++
  diskStrips cfg (x + r) (y + r) r 0x2 (h - 2 * r - 1) c

/-- TRIANGLE (R180). -/
def triangleEmission (r : Regs) : List SinkReq :=
  linePlots r.p0 r.p1 r.p2 r.p3 r.fg ++ linePlots r.p2 r.p3 r.p4 r.p5 r.fg ++ linePlots r.p4 r.p5 r.p0 r.p1 r.fg

/-- FILLTRIANGLE of sorted vertices (R181 steps 2 to 5). -/
def sortedEmission (cfg : Config) (v : Vertices) (c : Word) : List SinkReq :=
  if v.y0 = v.y2 then
    runH cfg (rowBounds v).1 v.y0 ((rowBounds v).2 - (rowBounds v).1 + 1) c
  else
    scanLines cfg (upperRegs v c) (loopCount v.y0.toInt (upperLast v)) ++
    scanLines cfg (lowerRegs v c) (loopCount (upperLast v + 1) v.y2.toInt)

/-- FILLTRIANGLE (R181). -/
def filltriangleEmission (cfg : Config) (r : Regs) : List SinkReq := sortedEmission cfg (sortByY r.vertices) r.fg

/-- The pixels of byte `k` of row `j` of a bitmap (43_bitmap_blitter.md R203). -/
def bytePixels (snap : Regs) (g : BitmapRegs) (j k : Nat) (byte : Byte) : List SinkReq :=
  (List.range 8).flatMap fun b =>
    if g.w.toInt ≤ ((8 * k + b : Nat) : Int) then []
    else pixelReq (bitmapBit g.order byte b) g.bgon (loopVar g.x (8 * k + b)) (loopVar g.y j) snap

/-- The pixels of the byte at column `col` of band `band` of a glyph (44_stream_decoder.md R244). -/
def columnPixels (cfg : Config) (snap : Regs) (g : GlyphRegs) (band col : Nat) (byte : Byte) : List SinkReq :=
  (List.range 8).flatMap fun r =>
    pixelReq (glyphBit cfg.glyphOrder byte r) (snap.bg != snap.fg) (loopVar g.x col) (loopVar g.y (8 * band + r)) snap

/-- The positions `(j, k)` of an `h` by `w` grid, row by row. -/
def gridOrder (h w : Nat) : List (Nat × Nat) :=
  (List.range h).flatMap fun j => (List.range w).map fun k => (j, k)

/-- The pixels of a bitmap whose byte number `m` is `bytes m`, row by row (R202, R203). -/
def bitmapPixels (snap : Regs) (g : BitmapRegs) (bytes : Nat → Byte) : List SinkReq :=
  (gridOrder g.h.toInt.toNat g.bw).flatMap fun p => bytePixels snap g p.1 p.2 (bytes (p.1 * g.bw + p.2))

/-- The byte a local space holds now. -/
def spaceByte (s : State) : Space → Nat → Byte
  | .ram, a => s.ram.read a
  | .rom, a => s.rom.read a

/-- What a local blit shows its observer (R202, R203): each byte read once, in ascending order, its pixels after it. -/
def blitObserved (s : State) (sp : Space) (snap : Regs) (g : BitmapRegs) : List Observed :=
  (gridOrder g.h.toInt.toNat g.bw).flatMap fun p =>
    let a := g.addr.toNat + p.1 * g.bw + p.2
    .memRead sp a (spaceByte s sp a) :: (bytePixels snap g p.1 p.2 (spaceByte s sp a)).map .sink

/-- The cursor as `nextByte` leaves it for its `BsRead` (R224). -/
def cursorReady (cfg : Config) (c : StreamCursor) : StreamCursor :=
  if c.kblk = 0 then { c with kblk := requestSize cfg c.raddr, fsm := .streaming } else c

/-- The transactions of one `nextByte` answered with data (R221, R223, R224). -/
def fetchObserved (cfg : Config) (c : StreamCursor) (b : Byte) : List Observed :=
  (if c.kblk = 0 then [.bsSeek c.raddr, .bsRequest (requestSize cfg c.raddr)] else []) ++ [.bsRead (some b)]

/-- What a stream of bytes shows its observer when every read answers Data: each byte's transactions, then what the byte
draws (R224, R233, R244). `draws` holds one function per byte. -/
def streamObserved (cfg : Config) (remote : Memory) : StreamCursor → List (Byte → List SinkReq) → List Observed
  | _, [] => []
  | c, draw :: draws =>
    let b := remote.read c.raddr.toNat
    fetchObserved cfg c b ++ (draw b).map .sink ++ streamObserved cfg remote (cursorReady cfg c).consume draws

/-- The cursor after `n` bytes (R224). -/
def cursorAfter (cfg : Config) (c : StreamCursor) : Nat → StreamCursor
  | 0 => c
  | n + 1 => cursorAfter cfg (cursorReady cfg c).consume n

/-- What SBLIT shows its observer when every read answers Data (R233). -/
def sblitObserved (cfg : Config) (remote : Memory) (r : Regs) : List Observed :=
  let g := sblitRegs r
  streamObserved cfg remote (streamStart r.p2 (BitVec.ofNat 32 (packedBytes r.p3 r.p4)))
    ((gridOrder r.p4.toInt.toNat (byteWidth r.p3)).map fun p => bytePixels r g p.1 p.2)

/-- What SGLYPH shows its observer when every read answers Data (R244). -/
def sglyphObserved (cfg : Config) (remote : Memory) (r : Regs) : List Observed :=
  streamObserved cfg remote (streamStart r.p2 (BitVec.ofNat 32 (r.glyphWidth * r.glyphBands)))
    ((gridOrder r.glyphBands r.glyphWidth).map fun p => columnPixels cfg r (glyphRegs r) p.1 p.2)

/-- The sink requests among what is observed, in the order given (R18: the emission sequence). -/
def sinkPart (os : List Observed) : List SinkReq :=
  os.filterMap fun o => match o with | .sink r => some r | _ => none

/-- The pixels a request stands for, with their colours, `len > 0` (R18, R69). -/
def reqPixels : SinkReq → List (Word × Word × Word)
  | .plot x y c => [(x, y, c)]
  | .hrun x y len c => (List.range len.toInt.toNat).map fun k => (loopVar x k, y, c)
  | .vrun x y len c => (List.range len.toInt.toNat).map fun k => (x, loopVar y k, c)

/-- The scanline of a horizontal run. -/
def runRow : SinkReq → Option Word
  | .hrun _ y _ _ => some y
  | _ => none

/-- The PLOTs of the pixels a request stands for, in order (R121 with SINK_RUNS = 0). -/
def reqPlots (q : SinkReq) : List SinkReq := (reqPixels q).map fun p => .plot p.1 p.2.1 p.2.2

/-- The length of a horizontal run. -/
def runLength : SinkReq → Option Word
  | .hrun _ _ len _ => some len
  | _ => none

/-- The addresses read from local memory among what is observed, in the order given (R18). -/
def readAddresses (os : List Observed) : List Nat :=
  os.filterMap fun o => match o with | .memRead _ a _ => some a | _ => none

/-- How many of the observed are seeks, block requests and reads of the ByteStore (R227). -/
def transactionCounts (os : List Observed) : Nat × Nat × Nat :=
  (os.countP fun o => match o with | .bsSeek _ => true | _ => false,
   os.countP fun o => match o with | .bsRequest _ => true | _ => false,
   os.countP fun o => match o with | .bsRead _ => true | _ => false)

/-- P0, P1, ... hold `args` in order, the other registers as before (30_encoding.md R100). -/
def Regs.loadOperands (args : List Word) (r : Regs) : Regs :=
  { r with
    p0 := args.getD 0 r.p0
    p1 := args.getD 1 r.p1
    p2 := args.getD 2 r.p2
    p3 := args.getD 3 r.p3
    p4 := args.getD 4 r.p4
    p5 := args.getD 5 r.p5 }

/-- The state an idle machine is in once a command with word `w` has run and shown `os` (oldest first): the word stored,
the snapshot taken, ERR and the record of overwritten RAM cleared, the counters as given, all else as before. -/
def State.afterCommand (w : Word) (os : List Observed) (bytes : Word32) (rows : Word) (s : State) : State :=
  { s with
    live := { s.live with cmd := w }
    snap := { s.live with cmd := w }
    status := withErr 0 s.status
    eng := .idle
    cont := []
    bdone := bytes
    rdone := rows
    ramOld := []
    trace := os.reverse ++ s.trace }

/-- The state an idle machine is in once a stream command has run (`State.afterCommand`), with the cursor and the
ByteStore where the last read left them. -/
def State.afterStream (w : Word) (os : List Observed) (bytes : Word32) (rows : Word) (c : StreamCursor) (s : State) :
    State :=
  { s.afterCommand w os bytes rows with sc := c, bsPos := c.raddr, bsLeft := c.kblk }

/-- The operand registers as a command with word `w` will see them (R34). -/
def State.snapshotFor (w : Word) (s : State) : Regs := { s.live with cmd := w }

end Sys2Proof.Machine
end

