-- ==== Sys2Proof/Safety.lean ====
section
/-! DEFINITION. What holds of every state the machine can be in: the terms of the invariant statements. -/

namespace Sys2Proof.Machine

/-- STATUS has its reserved bits 0 (10_state.md R23) and a code of R300 that is produced (60_exceptions.md R300: 5..15
never). -/
def statusLegal (st : Word) : Bool :=
  st &&& 0xFF0C == 0 && decide ((errField st).toNat ≤ 4)

/-- The memories are in canonical form and list only addresses their space has. -/
def memoriesLegal (s : State) : Bool :=
  s.ram.wf && s.ram.below s.cfg.ramSize && s.rom.wf && s.rom.below s.cfg.romSize && s.remote.wf &&
    s.remote.below 65536

/-- A legal configuration (00_scope.md R6), a legal STATUS, `ENG = EXEC` exactly when BUSY (R29), nothing in flight when
idle (R350), and legal memories. -/
def State.consistent (s : State) : Bool :=
  s.cfg.legal && statusLegal s.status && (s.busy == (s.eng == .exec)) && (s.eng == .exec || s.cont.isEmpty) &&
    memoriesLegal s

/-- A task reads local memory only at addresses its space has (43_bitmap_blitter.md R201). -/
def taskInside (cfg : Config) : Task → Bool
  | .act (.memRead sp a _) => decide (a < spaceSize cfg sp)
  | .call (.bitmapLoop b _ _) =>
    match b.source with
    | .mem sp => decide (b.addr.toNat + b.bw * b.h.toInt.toNat ≤ spaceSize cfg sp)
    | .stream => true
  | _ => true

/-- Everything the running command has still to do reads local memory inside its space. -/
def State.readsInside (s : State) : Bool := s.cont.all (taskInside s.cfg)

end Sys2Proof.Machine
end

