-- ==== Sys2Proof/Certificates/Slice0/Obligations.lean ====
section
/-! DEFINITION. The statements for the provers. Each docstring names the rules of spec/ it formalises or rests on. Where
a run of the engine is spoken of, `engineRun as` takes one engine step per answer in `as`;
`Obligations.ScheduledEngineTurnsAreSteps` says that these are steps of the machine. -/

open Sys2Proof Sys2Proof.Machine

/-! ## The command word -/

/-- R90 to R92, R98: no bit of a well-formed command is lost in its word, and a word is at most one command, every bit
of it counting. -/
def Obligations.DecodeAndEncodeAgree : Prop :=
  (∀ i : Instr, i.wellFormed = true → decode (encode i) = .ok i) ∧
  (∀ (w : Word) (i : Instr), decode w = .ok i → i.wellFormed = true ∧ encode i = w)

/-- R94: a word selects an operation exactly when it agrees with the operation's row of the pattern table. -/
def Obligations.MaskAndMatchSelectTheOperation : Prop :=
  ∀ (w : Word) (o : Instr), o ∈ operations →
    ((patternOf o).selects w = true ↔ ∃ i, decode w = .ok i ∧ patternOf i = patternOf o)

/-- R98, R301: which words use a reserved encoding, and that an idle engine refuses each of them with ILLEGAL_CMD and
no action. -/
def Obligations.ReservedEncodingsAreIllegal : Prop :=
  ∀ w : Word,
    let op := w.extractLsb' 0 6
    let reserved : Prop :=
      op.toNat ∈ [0x00, 0x0E, 0x0F] ∨ 0x14 ≤ op.toNat ∨ w.extractLsb' 6 2 ≠ 0 ∨ w.extractLsb' 11 5 ≠ 0 ∨
        ∃ o ∈ operations, opcode o = op ∧ (flagsOf w).within o.allows = false
    ((∃ e, decode w = .error e) ↔ reserved) ∧
    (reserved → ∀ s : State, s.busy = false →
      ∃ t, hostWrite offCmd w s = .next t ∧ t.err = 1 ∧ t.busy = false ∧ t.trace = s.trace ∧
        t = (s.latch w).latchError .illegalCmd)

/-- R92, R94: words written out from the table read as their commands. -/
def Obligations.TableWordsReadAsTheirCommands : Prop :=
  decode 0b0000000000000001 = .ok (.line {}) ∧
  decode 0b0000000000001001 = .ok (.fillcircleh {}) ∧
  decode 0b0000000000001101 = .ok (.filltriangle {}) ∧
  decode 0b0000001100010000 = .ok (.blit { bg := true, src := true }) ∧
  decode 0b0000010100010010 = .ok (.sblit { bg := true, aln := true }) ∧
  decode 0b0000010000010011 = .ok (.sglyph { aln := true })

/-! ## The register window and acceptance -/

/-- R20, R21, R26, R66: a host read returns the register at its offset and changes nothing; BDONE_HI over BDONE_LO is
BDONE. -/
def Obligations.HostReadReturnsTheRegister : Prop :=
  ∀ (s : State) (off : Offset) (rest : List HostOp), s.host = .rd off :: rest →
    (hostTurn s = .next { s with host := rest, trace := .hostRead off (readReg off s) :: s.trace }) ∧
    readReg 0x0 s = s.live.cmd ∧ readReg 0x1 s = s.status ∧
    readReg 0x2 s = s.live.p0 ∧ readReg 0x3 s = s.live.p1 ∧ readReg 0x4 s = s.live.p2 ∧
    readReg 0x5 s = s.live.p3 ∧ readReg 0x6 s = s.live.p4 ∧ readReg 0x7 s = s.live.p5 ∧
    readReg 0x8 s = s.live.fg ∧ readReg 0x9 s = s.live.bg ∧
    (readReg 0xB s ++ readReg 0xA s : Word32) = s.bdone ∧ readReg 0xC s = s.rdone ∧
    readReg 0xD s = configWord s.cfg ∧ readReg 0xE s = 0 ∧ readReg 0xF s = 0

/-- R21, R23 to R25: what a host write to an offset other than CMD's makes of the window. P0 to P5, FG and BG take the
value; STATUS changes as R23 says; the rest of the window, and the rest of the state, is as before. -/
def Obligations.HostWriteChangesOnlyItsRegister : Prop :=
  ∀ (s : State) (off : Offset) (v : Word), off ≠ offCmd →
    ∃ t, hostWrite off v s = .next t ∧
      t = { s with live := t.live, status := t.status } ∧
      ∀ o : Offset, readReg o t =
        if o = off ∧ 2 ≤ off.toNat ∧ off.toNat ≤ 9 then v
        else if o = off ∧ off = offStatus then statusWritten v s.status
        else readReg o s

/-- R23: a host write to STATUS clears REJ when its bit 1 is 1, and changes no other bit. -/
def Obligations.StatusWriteChangesOnlyRej : Prop :=
  ∀ (v st : Word) (n : Nat),
    (statusWritten v st).getLsbD n = if n = 1 then st.getLsbD 1 && !v.getLsbD 1 else st.getLsbD n

/-- R36, R308: a CMD write while BUSY sets REJ and changes nothing else, whatever the word. -/
def Obligations.CmdWriteWhileBusyIsRejected : Prop :=
  ∀ (s : State) (w : Word), s.busy = true →
    ∃ st : Word, hostWrite offCmd w s = .next { s with status := st } ∧
      ∀ n, st.getLsbD n = if n = 1 then true else s.status.getLsbD n

/-- R34: acceptance copies the new word, P0 to P5, FG and BG into the snapshot in the step of the write; later host
writes to those registers change the live ones only. -/
def Obligations.AcceptanceTakesTheSnapshot : Prop :=
  (∀ (s : State) (w : Word), s.busy = false →
    ∃ t, hostWrite offCmd w s = .next t ∧ t.snap = { s.live with cmd := w } ∧ t.live = { s.live with cmd := w }) ∧
  (∀ (s : State) (off : Offset) (v : Word), 2 ≤ off.toNat → off.toNat ≤ 9 →
    ∃ t, hostWrite off v s = .next t ∧ readReg off t = v ∧ t = { s with live := t.live })

/-- R35: every acceptance, of a command or of an illegal word, stores the word, clears BDONE and RDONE, leaves REJ and
the operand registers as they were and shows nothing; BUSY rises exactly with ENG = EXEC. -/
def Obligations.AcceptanceClearsTheReport : Prop :=
  ∀ (s : State) (w : Word), s.busy = false → s.eng = .idle →
    ∃ t, hostWrite offCmd w s = .next t ∧ t.live = { s.live with cmd := w } ∧ t.bdone = 0 ∧ t.rdone = 0 ∧
      t.rej = s.rej ∧ t.trace = s.trace ∧ (t.busy = true ↔ t.eng = .exec) ∧ (t.busy = true → t.err = 0) ∧
      t = { s with live := t.live, snap := t.snap, status := t.status, eng := t.eng, cont := t.cont, bdone := 0,
                   rdone := 0, ramOld := [] }

/-- R97 step 3, R301: a command with a flag its operation does not allow is refused with ILLEGAL_CMD. -/
def Obligations.DisallowedFlagIsRefused : Prop :=
  ∀ (s : State) (i : Instr), s.busy = false → i.wellFormed = false →
    exec i s = .next ((s.latch (encode i)).latchError .illegalCmd) ∧
    ((s.latch (encode i)).latchError .illegalCmd).err = 1

/-- R306, R310: a command meeting its degenerate condition is accepted with ERR = 0 and does nothing: BUSY does not
rise, nothing is shown, BDONE and RDONE are 0. It has priority over the address and alignment checks. -/
def Obligations.DegenerateCommandsDoNothing : Prop :=
  ∀ (s : State), s.busy = false → ∀ i : Instr, i.wellFormed = true →
    (match i with
      | .hrun _ | .vrun _ => s.live.p2.toInt ≤ 0
      | .rect _ | .fillrect _ | .roundrect _ | .fillroundrect _ => s.live.p2.toInt ≤ 0 ∨ s.live.p3.toInt ≤ 0
      | .blit _ | .blitxbm _ | .sblit _ => s.live.p3.toInt ≤ 0 ∨ s.live.p4.toInt ≤ 0
      | .sglyph _ => s.live.p3.toNat % 256 = 0 ∨ s.live.p4.toNat % 256 = 0
      | _ => False) →
    ∃ t, exec i s = .next t ∧ t = s.latch (encode i) ∧ t.busy = false ∧ t.err = 0 ∧ t.trace = s.trace ∧
      t.bdone = 0 ∧ t.rdone = 0

/-- R201, R302: a BLIT or BLITXBM that is not degenerate and whose bitmap does not fit its space is refused with
BAD_ADDRESS and no action. -/
def Obligations.BlitOutsideItsSpaceIsRefused : Prop :=
  ∀ (s : State) (f : Flags), s.busy = false → f.aln = false → 0 < s.live.p3.toInt → 0 < s.live.p4.toInt →
    (if f.src then s.cfg.romSize else s.cfg.ramSize) <
      s.live.p2.toNat + (s.live.p3.toNat + 7) / 8 * s.live.p4.toNat →
    exec (.blit f) s = .next ((s.latch (encode (.blit f))).latchError .badAddress) ∧
    exec (.blitxbm f) s = .next ((s.latch (encode (.blitxbm f))).latchError .badAddress) ∧
    ((s.latch (encode (.blit f))).latchError .badAddress).err = 2

/-- R226, R97 step 6: a stream command of the aligned discipline that starts off a block boundary is refused with
MISALIGNED and no transaction. -/
def Obligations.MisalignedStreamIsRefused : Prop :=
  ∀ (s : State) (f : Flags), s.busy = false → f.src = false → f.aln = true →
    s.live.p2.toNat % s.cfg.blockSize.toNat ≠ 0 →
    (0 < s.live.p3.toInt → 0 < s.live.p4.toInt →
      exec (.sblit f) s = .next ((s.latch (encode (.sblit f))).latchError .misaligned)) ∧
    (f.bg = false → s.live.p3.toNat % 256 ≠ 0 → s.live.p4.toNat % 256 ≠ 0 →
      exec (.sglyph f) s = .next ((s.latch (encode (.sglyph f))).latchError .misaligned)) ∧
    ((s.latch (encode (.sblit f))).latchError .misaligned).err = 3

/-! ## The shape commands, each from acceptance to completion -/

/-- R122, R120: LINE emits the PLOTs of LineCore, in its order. From any idle state it starts; after one engine step per
request (one step when there is none) it has shown exactly these, is idle again, and all else is as acceptance left it
(`State.afterCommand`). -/
def Obligations.LineEmitsLineCore : Prop :=
  ∀ (s : State) (as : List Answer), s.busy = false → as.length = max 1 (lineEmission s.live).length →
    ∃ t, exec (.line {}) s = .next t ∧ t.busy = true ∧
      engineRun as t = .next (s.afterCommand 0x0001 ((lineEmission s.live).map .sink) 0 0)

/-- R123, R121: HRUN with `len > 0` emits one HRUN request, or with SINK_RUNS = 0 `len` PLOTs in ascending x. From any
idle state it starts; after one engine step per request (one step when there is none) it has shown exactly these, is
idle again, and all else is as acceptance left it (`State.afterCommand`). -/
def Obligations.HrunEmitsItsRun : Prop :=
  ∀ (s : State) (as : List Answer), s.busy = false → 0 < s.live.p2.toInt →
    as.length = max 1 (hrunEmission s.cfg s.live).length →
    ∃ t, exec (.hrun {}) s = .next t ∧ t.busy = true ∧
      engineRun as t = .next (s.afterCommand 0x0002 ((hrunEmission s.cfg s.live).map .sink) 0 0)

/-- R124, R121: VRUN with `len > 0` emits one VRUN request, or with SINK_RUNS = 0 `len` PLOTs in ascending y. From any
idle state it starts; after one engine step per request (one step when there is none) it has shown exactly these, is
idle again, and all else is as acceptance left it (`State.afterCommand`). -/
def Obligations.VrunEmitsItsRun : Prop :=
  ∀ (s : State) (as : List Answer), s.busy = false → 0 < s.live.p2.toInt →
    as.length = max 1 (vrunEmission s.cfg s.live).length →
    ∃ t, exec (.vrun {}) s = .next t ∧ t.busy = true ∧
      engineRun as t = .next (s.afterCommand 0x0003 ((vrunEmission s.cfg s.live).map .sink) 0 0)

/-- R125, R121: RECT with `w > 0` and `h > 0` emits its top, bottom, left and right runs. From any idle state it starts;
after one engine step per request (one step when there is none) it has shown exactly these, is idle again, and all
else is as acceptance left it (`State.afterCommand`). -/
def Obligations.RectEmitsItsFourEdges : Prop :=
  ∀ (s : State) (as : List Answer), s.busy = false → 0 < s.live.p2.toInt → 0 < s.live.p3.toInt →
    as.length = max 1 (rectEmission s.cfg s.live).length →
    ∃ t, exec (.rect {}) s = .next t ∧ t.busy = true ∧
      engineRun as t = .next (s.afterCommand 0x0004 ((rectEmission s.cfg s.live).map .sink) 0 0)

/-- R126, R121: FILLRECT with `w > 0` and `h > 0` emits its `w` vertical runs left to right. From any idle state it
starts; after one engine step per request (one step when there is none) it has shown exactly these, is idle again, and
all else is as acceptance left it (`State.afterCommand`). -/
def Obligations.FillrectEmitsItsColumns : Prop :=
  ∀ (s : State) (as : List Answer), s.busy = false → 0 < s.live.p2.toInt → 0 < s.live.p3.toInt →
    as.length = max 1 (fillrectEmission s.cfg s.live).length →
    ∃ t, exec (.fillrect {}) s = .next t ∧ t.busy = true ∧
      engineRun as t = .next (s.afterCommand 0x0005 ((fillrectEmission s.cfg s.live).map .sink) 0 0)

/-- R151, R150: CIRCLE emits its four seeds and then eight points a step, for every radius. From any idle state it starts;
after one engine step per request (one step when there is none) it has shown exactly these, is idle again, and all
else is as acceptance left it (`State.afterCommand`). -/
def Obligations.CircleEmitsSeedsAndOctants : Prop :=
  ∀ (s : State) (as : List Answer), s.busy = false → as.length = max 1 (circleEmission s.live).length →
    ∃ t, exec (.circle {}) s = .next t ∧ t.busy = true ∧
      engineRun as t = .next (s.afterCommand 0x0006 ((circleEmission s.live).map .sink) 0 0)

/-- R152, R150: CIRCLEH emits the octant pairs its mask selects, which may be none (R37). From any idle state it starts;
after one engine step per request (one step when there is none) it has shown exactly these, is idle again, and all
else is as acceptance left it (`State.afterCommand`). -/
def Obligations.CirclehEmitsSelectedArcs : Prop :=
  ∀ (s : State) (as : List Answer), s.busy = false → as.length = max 1 (circlehEmission s.live).length →
    ∃ t, exec (.circleh {}) s = .next t ∧ t.busy = true ∧
      engineRun as t = .next (s.afterCommand 0x0007 ((circlehEmission s.live).map .sink) 0 0)

/-- R154, R153: FILLCIRCLE emits its central run and then the strips of both halves, and nothing for a negative radius
(which R154 says; that it holds also of r <= -16385, where a 16-bit `2r + 1` is positive, is the model's reading, log
entry 20). From any idle state it starts; after one engine step per request (one step when there is none) it has shown
exactly these, is idle again, and all else is as acceptance left it (`State.afterCommand`). -/
def Obligations.FillcircleEmitsItsDisk : Prop :=
  ∀ (s : State) (as : List Answer), s.busy = false →
    as.length = max 1 (fillcircleEmission s.cfg s.live).length →
    ∃ t, exec (.fillcircle {}) s = .next t ∧ t.busy = true ∧
      engineRun as t = .next (s.afterCommand 0x0008 ((fillcircleEmission s.cfg s.live).map .sink) 0 0) ∧
      (s.live.p2.toInt < 0 → fillcircleEmission s.cfg s.live = [])

/-- R153, R150: FILLCIRCLEH emits the strips its mask selects, those of length <= 0 dropped. From any idle state it
starts; after one engine step per request (one step when there is none) it has shown exactly these, is idle again, and
all else is as acceptance left it (`State.afterCommand`). -/
def Obligations.FillcirclehEmitsSelectedStrips : Prop :=
  ∀ (s : State) (as : List Answer), s.busy = false →
    as.length = max 1 (fillcirclehEmission s.cfg s.live).length →
    ∃ t, exec (.fillcircleh {}) s = .next t ∧ t.busy = true ∧
      engineRun as t = .next (s.afterCommand 0x0009 ((fillcirclehEmission s.cfg s.live).map .sink) 0 0)

/-- R155, R152: ROUNDRECT with `w > 0` and `h > 0` emits four edges and four arcs, for every radius. From any idle state
it starts; after one engine step per request (one step when there is none) it has shown exactly these, is idle again,
and all else is as acceptance left it (`State.afterCommand`). -/
def Obligations.RoundrectEmitsEdgesAndArcs : Prop :=
  ∀ (s : State) (as : List Answer), s.busy = false → 0 < s.live.p2.toInt → 0 < s.live.p3.toInt →
    as.length = max 1 (roundrectEmission s.cfg s.live).length →
    ∃ t, exec (.roundrect {}) s = .next t ∧ t.busy = true ∧
      engineRun as t = .next (s.afterCommand 0x000A ((roundrectEmission s.cfg s.live).map .sink) 0 0)

/-- R156, R153, R126: FILLROUNDRECT with `w > 0` and `h > 0` emits the central columns and the strips of both sides, for
every radius. From any idle state it starts; after one engine step per request (one step when there is none) it has
shown exactly these, is idle again, and all else is as acceptance left it (`State.afterCommand`). -/
def Obligations.FillroundrectEmitsColumnsAndStrips : Prop :=
  ∀ (s : State) (as : List Answer), s.busy = false → 0 < s.live.p2.toInt → 0 < s.live.p3.toInt →
    as.length = max 1 (fillroundrectEmission s.cfg s.live).length →
    ∃ t, exec (.fillroundrect {}) s = .next t ∧ t.busy = true ∧
      engineRun as t = .next (s.afterCommand 0x000B ((fillroundrectEmission s.cfg s.live).map .sink) 0 0)

/-- R180, R120: TRIANGLE emits the lines 0-1, 1-2, 2-0. From any idle state it starts; after one engine step per request
(one step when there is none) it has shown exactly these, is idle again, and all else is as acceptance left it
(`State.afterCommand`). -/
def Obligations.TriangleEmitsThreeLines : Prop :=
  ∀ (s : State) (as : List Answer), s.busy = false → as.length = max 1 (triangleEmission s.live).length →
    ∃ t, exec (.triangle {}) s = .next t ∧ t.busy = true ∧
      engineRun as t = .next (s.afterCommand 0x000C ((triangleEmission s.live).map .sink) 0 0)

/-- R181: FILLTRIANGLE emits its scanlines, every numerator computed outright where the engine accumulates it. `last` and
the loop counts are exact, which is the model's reading (log entry 5). From any idle state it starts; after one engine
step per request (one step when there is none) it has shown exactly these, is idle again, and all else is as
acceptance left it (`State.afterCommand`). -/
def Obligations.FilltriangleEmitsItsScanlines : Prop :=
  ∀ (s : State) (as : List Answer), s.busy = false →
    as.length = max 1 (filltriangleEmission s.cfg s.live).length →
    ∃ t, exec (.filltriangle {}) s = .next t ∧ t.busy = true ∧
      engineRun as t = .next (s.afterCommand 0x000D ((filltriangleEmission s.cfg s.live).map .sink) 0 0)

/-! ## The bitmap and stream commands, each from acceptance to completion -/

/-- R204, R203, R202: a BLIT that passes its checks reads each byte once and draws its pixels MSB-first; BDONE = L and
RDONE = h at the end, and all else is as acceptance left it. -/
def Obligations.BlitDrawsItsBitmap : Prop :=
  ∀ (s : State) (f : Flags) (as : List Answer), s.busy = false → f.aln = false →
    let r := s.snapshotFor (encode (.blit f))
    let os := blitObserved s r.srcSpace r (blitRegs .msb r)
    blitVerdict s.cfg r = .ok → as.length = os.length →
    ∃ t, exec (.blit f) s = .next t ∧ t.busy = true ∧
      engineRun as t =
        .next (s.afterCommand (encode (.blit f)) os (BitVec.ofNat 32 (packedBytes r.p3 r.p4)) r.p4)

/-- R205, R203, R202: a BLITXBM that passes its checks reads each byte once and draws its pixels LSB-first; BDONE = L and
RDONE = h at the end, and all else is as acceptance left it. -/
def Obligations.BlitxbmDrawsItsBitmap : Prop :=
  ∀ (s : State) (f : Flags) (as : List Answer), s.busy = false → f.aln = false →
    let r := s.snapshotFor (encode (.blitxbm f))
    let os := blitObserved s r.srcSpace r (blitRegs .lsb r)
    blitVerdict s.cfg r = .ok → as.length = os.length →
    ∃ t, exec (.blitxbm f) s = .next t ∧ t.busy = true ∧
      engineRun as t =
        .next (s.afterCommand (encode (.blitxbm f)) os (BitVec.ofNat 32 (packedBytes r.p3 r.p4)) r.p4)

/-- R233, R221 to R225, R232: an SBLIT that passes its checks, every read answering Data, shows its seeks, requests and
reads with each byte's pixels after it; BDONE = L and RDONE = h at the end. Where the ByteStore itself then stands is
the model's (log entry 7). -/
def Obligations.SblitStreamsItsBitmap : Prop :=
  ∀ (s : State) (f : Flags) (as : List Answer), s.busy = false → s.cfg.legal = true → f.src = false →
    let r := s.snapshotFor (encode (.sblit f))
    let os := sblitObserved s.cfg s.remote r
    let n := packedBytes r.p3 r.p4
    sblitVerdict s.cfg r = .ok → as.length = os.length → (∀ a ∈ as, a.noData = false) →
    ∃ t, exec (.sblit f) s = .next t ∧ t.busy = true ∧
      engineRun as t =
        .next (s.afterStream (encode (.sblit f)) os (BitVec.ofNat 32 n) r.p4
          (cursorAfter s.cfg (streamStart r.p2 (BitVec.ofNat 32 n)) n))

/-- R244, R221 to R225, R241 to R243: an SGLYPH that passes its checks, every read answering Data, shows its seeks,
requests and reads with each byte's pixels after it; BDONE = gw * gb and RDONE = gb at the end. Where the ByteStore
itself then stands is the model's (log entry 7). -/
def Obligations.SglyphStreamsItsGlyph : Prop :=
  ∀ (s : State) (f : Flags) (as : List Answer), s.busy = false → s.cfg.legal = true → f.bg = false →
    f.src = false →
    let r := s.snapshotFor (encode (.sglyph f))
    let os := sglyphObserved s.cfg s.remote r
    let n := r.glyphWidth * r.glyphBands
    sglyphVerdict s.cfg r = .ok → as.length = os.length → (∀ a ∈ as, a.noData = false) →
    ∃ t, exec (.sglyph f) s = .next t ∧ t.busy = true ∧
      engineRun as t =
        .next (s.afterStream (encode (.sglyph f)) os (BitVec.ofNat 32 n) (BitVec.ofNat 16 r.glyphBands)
          (cursorAfter s.cfg (streamStart r.p2 (BitVec.ofNat 32 n)) n))

/-- R231, R225, R74: after a stream of `n` bytes the cursor stands `n` bytes on, modulo 2^16, with nothing left and DONE. -/
def Obligations.StreamEndsDoneAfterItsBytes : Prop :=
  ∀ (cfg : Config) (start : Word) (n : Nat), cfg.legal = true → 1 ≤ n → n ≤ 4096 * 32767 →
    let c := cursorAfter cfg (streamStart start (BitVec.ofNat 32 n)) n
    c.raddr = start + BitVec.ofNat 16 n ∧ c.bleft = 0 ∧ c.fsm = .done

/-- R202: BLIT and BLITXBM read each byte of the bitmap exactly once, in ascending address order. -/
def Obligations.BlitReadsEachByteOnceAscending : Prop :=
  ∀ (s : State) (f : Flags) (i : Instr), s.busy = false → f.aln = false → (i = .blit f ∨ i = .blitxbm f) →
    let r := s.snapshotFor (encode i)
    blitVerdict s.cfg r = .ok →
    ∃ t n u os, exec i s = .next t ∧ engineRun (List.replicate n .ready) t = .next u ∧ u.busy = false ∧
      u.trace = os.reverse ++ s.trace ∧
      readAddresses os = (List.range (packedBytes r.p3 r.p4)).map (r.p2.toNat + ·)

/-- R204, R205, property L1-P4: a bitmap with the bit of every pixel set, whatever its padding bits hold, draws exactly
`w * h` pixels, row by row, all in FG, with or without BG; BLIT and BLITXBM each in their bit order. -/
def Obligations.AllSetBitmapDrawsEveryPixelInFg : Prop :=
  ∀ (s : State) (f : Flags) (i : Instr) (order : BitOrder), s.busy = false → f.aln = false →
    (i = .blit f ∧ order = .msb ∨ i = .blitxbm f ∧ order = .lsb) →
    let r := s.snapshotFor (encode i)
    let w := r.p3.toNat
    let h := r.p4.toNat
    blitVerdict s.cfg r = .ok →
    (∀ j k, j < h → k < w →
      bitmapBit order (spaceByte s r.srcSpace (r.p2.toNat + j * byteWidth r.p3 + k / 8)) (k % 8) = true) →
    ∃ t n u os, exec i s = .next t ∧ engineRun (List.replicate n .ready) t = .next u ∧ u.busy = false ∧
      u.trace = os.reverse ++ s.trace ∧ (sinkPart os).length = w * h ∧
      sinkPart os = (gridOrder h w).map fun p => .plot (loopVar r.p0 p.2) (loopVar r.p1 p.1) r.fg

/-- R233, R230, property L1-P5: when every read answers Data, SBLIT emits exactly what a BLIT of the same bytes emits. -/
def Obligations.SblitEmitsWhatBlitEmits : Prop :=
  ∀ (s : State) (bg src aln : Bool), s.busy = false → s.cfg.legal = true →
    let i : Instr := .blit { bg := bg, src := src }
    let j : Instr := .sblit { bg := bg, aln := aln }
    let r := s.snapshotFor (encode i)
    blitVerdict s.cfg r = .ok → sblitVerdict s.cfg (s.snapshotFor (encode j)) = .ok →
    (∀ m, m < packedBytes r.p3 r.p4 →
      s.remote.read (r.p2 + BitVec.ofNat 16 m).toNat = spaceByte s r.srcSpace (r.p2.toNat + m)) →
    ∃ t n u os t' n' u' os',
      exec i s = .next t ∧ engineRun (List.replicate n .ready) t = .next u ∧ u.busy = false ∧
      exec j s = .next t' ∧ engineRun (List.replicate n' .ready) t' = .next u' ∧ u'.busy = false ∧
      u.trace = os.reverse ++ s.trace ∧ u'.trace = os'.reverse ++ s.trace ∧
      sinkPart os = sinkPart os' ∧ u.bdone = u'.bdone ∧ u.rdone = u'.rdone

/-- R227: a stream of `L` bytes from `start` with `start + L <= 65536` issues `ceil(((start mod B) + L) / B)`
seek/request pairs and `L` reads, and its last request leaves `B * pairs - (start mod B) - L` bytes unread. -/
def Obligations.StreamRequestCount : Prop :=
  ∀ (s : State) (f : Flags) (i : Instr) (n : Nat), s.busy = false → s.cfg.legal = true →
    let r := s.snapshotFor (encode i)
    let b := s.cfg.blockSize.toNat
    let o := r.p2.toNat % b
    let pairs := (o + n + b - 1) / b
    (i = .sblit f ∧ f.src = false ∧ sblitVerdict s.cfg r = .ok ∧ n = packedBytes r.p3 r.p4 ∨
      i = .sglyph f ∧ f.bg = false ∧ f.src = false ∧ sglyphVerdict s.cfg r = .ok ∧
        n = r.glyphWidth * r.glyphBands) →
    r.p2.toNat + n ≤ 65536 →
    ∃ t k u os, exec i s = .next t ∧ engineRun (List.replicate k .ready) t = .next u ∧ u.busy = false ∧
      u.trace = os.reverse ++ s.trace ∧ transactionCounts os = (pairs, pairs, n) ∧
      u.sc.kblk.toNat = b * pairs - o - n

/-- R228, R303, R304: a `BsRead` that answers NoData ends the command in that step with INCOMPLETE_STREAM. Nothing
follows, nothing emitted is undone, BDONE and RDONE keep their values. The read answers NoData when its partner says so
(R71); that it does so too when the request has no byte left (`s.bsLeft = 0`) is the model's choice (log entry 7), since
R70 says that the engine never issues such a read. -/
def Obligations.NoDataEndsTheCommand : Prop :=
  ∀ (s : State) (use : ByteUse) (rest : List Task) (a : Answer), s.eng = .exec →
    s.cont = .act (.bsRead use) :: rest → (a.noData = true ∨ s.bsLeft = 0) →
    ∃ t, engineTurn a s = .next t ∧ t.err = 4 ∧ t.busy = false ∧ t.rej = s.rej ∧
      t = { s with status := t.status, eng := .idle, cont := [], trace := .bsRead none :: s.trace }

/-- R228, R232, R242: a stream command whose reads answer Data up to some read, and NoData at that one, ends there with
INCOMPLETE_STREAM: it has shown exactly what comes before that read, BDONE is the number of bytes decoded, and RDONE the
number of whole rows or bands among them. -/
def Obligations.IncompleteStreamReportsProgress : Prop :=
  ∀ (s : State) (f : Flags) (i : Instr) (os pre post : List Observed) (b : Byte) (width : Nat) (as : List Answer),
    s.busy = false → s.cfg.legal = true →
    let r := s.snapshotFor (encode i)
    (i = .sblit f ∧ f.src = false ∧ sblitVerdict s.cfg r = .ok ∧ os = sblitObserved s.cfg s.remote r ∧
        width = byteWidth r.p3 ∨
      i = .sglyph f ∧ f.bg = false ∧ f.src = false ∧ sglyphVerdict s.cfg r = .ok ∧
        os = sglyphObserved s.cfg s.remote r ∧ width = r.glyphWidth) →
    os = pre ++ .bsRead (some b) :: post → as.length = pre.length → (∀ a ∈ as, a.noData = false) →
    let n := (transactionCounts pre).2.2
    ∃ t u, exec i s = .next t ∧ engineRun (as ++ [{ noData := true }]) t = .next u ∧ u.err = 4 ∧ u.busy = false ∧
      u.trace = .bsRead none :: pre.reverse ++ s.trace ∧
      u.bdone = BitVec.ofNat 32 n ∧ u.rdone = BitVec.ofNat 16 (n / width)

/-- R79: a `MemRead` of RAM returns a value the byte has held since acceptance, and each such value is admitted; a host
write while the command runs adds the new value to them. -/
def Obligations.RamReadReturnsAValueHeld : Prop :=
  (∀ (s : State) (x : Nat) (use : ByteUse) (rest : List Task), s.eng = .exec →
    s.cont = .act (.memRead .ram x use) :: rest → x < s.cfg.ramSize →
    (∀ a, ∃ t b, engineTurn a s = .next t ∧ b ∈ ramValues s x ∧ t.trace = .memRead .ram x b :: s.trace) ∧
    (∀ b ∈ ramValues s x, ∃ a t, engineTurn a s = .next t ∧ t.trace = .memRead .ram x b :: s.trace)) ∧
  (∀ (s : State) (x : Word) (b : Byte), s.busy = true → s.ram.wf = true → x.toNat < s.cfg.ramSize →
    ∃ t, hostRamWrite x b s = .next t ∧ ramValues t x.toNat = b :: ramValues s x.toNat ∧
      ∀ y, y ≠ x.toNat → ramValues t y = ramValues s y)

/-! ## The whole machine -/

/-- R38: an engine step shows at most one external action, and exactly one while an action is pending. -/
def Obligations.EngineStepIsOneAction : Prop :=
  ∀ (s t : State) (a : Answer), engineTurn a s = .next t →
    (t.trace = s.trace ∨ ∃ o, t.trace = o :: s.trace) ∧
    (∀ act rest, s.eng = .exec → s.cont = .act act :: rest → ∃ o, t.trace = o :: s.trace)

/-- R63: the engine writes no memory, and its step leaves the configuration, the live registers, the snapshot and the
world's schedule as they were. -/
def Obligations.EngineWritesNoMemory : Prop :=
  ∀ (s t : State) (a : Answer), engineTurn a s = .next t →
    t.ram = s.ram ∧ t.rom = s.rom ∧ t.remote = s.remote ∧ t.cfg = s.cfg ∧ t.live = s.live ∧ t.snap = s.snap ∧
    t.ramOld = s.ramOld ∧ t.host = s.host ∧ t.world = s.world ∧ t.turnNo = s.turnNo ∧ t.rej = s.rej

/-- R83, R362: a running command does not depend on the live registers: with others in their place it does the same. -/
def Obligations.RunningCommandIgnoresLiveRegisters : Prop :=
  ∀ (as : List Answer) (s : State) (r : Regs),
    engineRun as { s with live := r } =
      match engineRun as s with
      | .next t => .next { t with live := r }
      | .fault e => .fault e
      | .refused e => .refused e

/-- R39: no host access stops or changes a running command. -/
def Obligations.HostAccessLeavesTheRunningCommand : Prop :=
  ∀ (s t : State), s.busy = true → hostTurn s = .next t →
    t.busy = true ∧ t.eng = s.eng ∧ t.cont = s.cont ∧ t.snap = s.snap ∧ t.sc = s.sc ∧ t.err = s.err ∧
    t.bdone = s.bdone ∧ t.rdone = s.rdone ∧ t.rom = s.rom ∧ t.remote = s.remote ∧ t.bsPos = s.bsPos ∧
    t.bsLeft = s.bsLeft ∧ t.cfg = s.cfg

/-- R63, R60, R79: a host write to RAM sets its byte and no other, and changes nothing else but the model's record of
overwritten bytes (log entries 9 and 11). That such a write is of one byte is the model's choice (log entry 18): R63 gives
the access no form. -/
def Obligations.HostRamWriteSetsOneByte : Prop :=
  ∀ (s : State) (x : Word) (b : Byte), x.toNat < s.cfg.ramSize → s.ram.wf = true →
    ∃ t, hostRamWrite x b s = .next t ∧ t.ram.read x.toNat = b ∧
      (∀ y, y ≠ x.toNat → t.ram.read y = s.ram.read y) ∧
      t = { s with ram := t.ram, ramOld := t.ramOld }

/-- R100: `WAIT` reads STATUS, is shown its value, and stays in the host's program while BUSY is 1. -/
def Obligations.WaitPollsStatusUntilIdle : Prop :=
  ∀ (s : State) (rest : List HostOp), s.host = .wait :: rest →
    hostTurn s = .next { s with host := if s.busy then s.host else rest,
                                trace := .hostRead 0x1 s.status :: s.trace }

/-- R99, R100: the accesses a command pseudo-instruction stands for load its operand registers and start it. -/
def Obligations.CommandStatementLoadsAndStarts : Prop :=
  ∀ (s : State) (i : Instr) (args : List Word) (ops rest : List HostOp) (ts : List Turn),
    i.wellFormed = true → expandCommand i args = some ops →
    s.host = ops ++ rest → s.world = List.replicate ops.length .host ++ ts →
    Host.Core.run Sys2Proof.core ops.length s =
      exec i { s with live := s.live.loadOperands args, host := rest, world := ts }

/-- R27: CONFIG shows BSIZE, SRUNS and GMSB and nothing else, shows no memory size, and no step changes it. -/
def Obligations.ConfigShowsTheConfiguration : Prop :=
  (∀ s : State, let v := readReg 0xD s
    v.extractLsb' 0 8 = s.cfg.blockSize ∧ v.getLsbD 8 = s.cfg.sinkRuns ∧
    (v.getLsbD 9 = true ↔ s.cfg.glyphOrder = .msbTop) ∧ v.extractLsb' 10 6 = 0) ∧
  (∀ (s : State) (m n : Nat) (off : Offset),
    readReg off { s with cfg := { s.cfg with ramSize := m, romSize := n } } = readReg off s) ∧
  (∀ s t : State, step s = .next t → readReg 0xD t = readReg 0xD s)

/-- R350, R352, R353: reset gives every register and the StreamCursor its reset value, ends a running command without a
code, and leaves the configuration, the memories, the ByteStore and what was shown as they were. The ByteStore is its
bytes and the model's read address and bytes left of its request (log entry 7); the host's program and the schedule are
the model's (log entries 2 and 6). -/
def Obligations.ResetAbortsAndClears : Prop :=
  ∀ s : State, ∃ t, takeTurn .reset s = .next t ∧
    t.live = .zero ∧ t.status = 0 ∧ t.bdone = 0 ∧ t.rdone = 0 ∧ t.eng = .idle ∧ t.cont = [] ∧
    t.sc = ⟨0, 0, 0, .notStarted⟩ ∧ t.cfg = s.cfg ∧ t.ram = s.ram ∧ t.rom = s.rom ∧ t.remote = s.remote ∧
    t.bsPos = s.bsPos ∧ t.bsLeft = s.bsLeft ∧ t.trace = s.trace ∧ t.host = s.host ∧ t.world = s.world

/-- R22, R33: when the next turn is the host's and its next access writes a word to CMD, the step is `exec` of the command
the word decodes to, in the state with that turn and that access taken (log entries 2 and 6). -/
def Obligations.CmdWriteStepRunsTheCommand : Prop :=
  ∀ (s : State) (w : Word) (i : Instr) (rest : List HostOp) (ts : List Turn),
    s.world = .host :: ts → s.host = .wr offCmd w :: rest → decode w = .ok i →
    step s = exec i { s with host := rest, world := ts }

/-- R38: engine turns that are scheduled are steps of the machine. The schedule is the model's form for the order in which
partners answer (log entry 2). -/
def Obligations.ScheduledEngineTurnsAreSteps : Prop :=
  ∀ (as : List Answer) (s : State) (ts : List Turn),
    Host.Core.run Sys2Proof.core as.length { s with world := as.map .engine ++ ts } =
      engineRun as { s with world := ts }

/-- R29, R23, R300, R6: every step keeps STATUS legal, `ENG = EXEC` exactly when BUSY = 1, nothing in flight when idle,
and the memories canonical and inside their spaces. -/
def Obligations.StepKeepsConsistent : Prop :=
  ∀ s t : State, s.consistent = true → step s = .next t → t.consistent = true

/-- R350: the state after reset is consistent and has no read pending, for every legal configuration. -/
def Obligations.ResetIsConsistent : Prop :=
  State.reset.consistent = true ∧ State.reset.readsInside = true ∧
  ∀ c : Config, c.legal = true → (State.resetWith c).consistent = true ∧ (State.resetWith c).readsInside = true

/-- R201, R61: from a state whose pending reads are inside their spaces, no step reads local memory outside, and every
step leads to such a state again. -/
def Obligations.LocalReadsStayInside : Prop :=
  ∀ s : State, s.readsInside = true →
    step s ≠ .fault .localReadOutside ∧ ∀ t, step s = .next t → t.readsInside = true

/-! ## Properties of the emissions -/

/-- R122, property L1-P1: a line whose differences fit emits `max(|x1-x0|, |y1-y0|) + 1` PLOTs, no two alike, both
endpoints among them. -/
def Obligations.LineEmitsSpanPlusOne : Prop :=
  ∀ x0 y0 x1 y1 c : Word,
    (x1.toInt - x0.toInt).natAbs ≤ 32767 → (y1.toInt - y0.toInt).natAbs ≤ 32767 →
    let ps := linePlots x0 y0 x1 y1 c
    ps.length = max (x1.toInt - x0.toInt).natAbs (y1.toInt - y0.toInt).natAbs + 1 ∧
    ps.Nodup ∧ .plot x0 y0 c ∈ ps ∧ .plot x1 y1 c ∈ ps

/-- R121: with SINK_RUNS = 0 a run that does not wrap is the line from its first pixel to its last. -/
def Obligations.RunExpandsToItsLine : Prop :=
  ∀ (cfg : Config) (x y len c : Word), cfg.sinkRuns = false → 1 ≤ len.toInt →
    (x.toInt + len.toInt - 1 ≤ 32767 → runH cfg x y len c = linePlots x y (x + len - 1) y c) ∧
    (y.toInt + len.toInt - 1 ≤ 32767 → runV cfg x y len c = linePlots x y x (y + len - 1) c)

/-- R121, R69: whether runs are forwarded or expanded does not change the pixels of any command. -/
def Obligations.SinkRunsKeepsThePixels : Prop :=
  ∀ (cfg : Config) (r : Regs) (emission : Config → Regs → List SinkReq),
    emission ∈ [hrunEmission, vrunEmission, rectEmission, fillrectEmission, fillcircleEmission,
      fillcirclehEmission, roundrectEmission, fillroundrectEmission, filltriangleEmission] →
    (emission { cfg with sinkRuns := true } r).flatMap reqPixels =
      (emission { cfg with sinkRuns := false } r).flatMap reqPixels

/-- R150: the midpoint loop ends after at most `r` steps, none when `r <= 0`, and before each step `0 <= x < y <= r`. -/
def Obligations.MidpointLoopEnds : Prop :=
  ∀ r : Word, ∃ n, n ≤ r.toInt.toNat ∧ midMore (midStep^[n] (midInit r)) = false ∧
    (midPairs r).length = n ∧
    ∀ j, j < n → let m := midStep^[j] (midInit r)
      midMore m = true ∧ m.x.toInt = j ∧ m.y.toInt ≤ r.toInt

/-- R151, property L1-P2: what CIRCLE emits is symmetric about both axes through its centre and about the diagonal. -/
def Obligations.CircleIsEightfoldSymmetric : Prop :=
  ∀ (r : Regs) (a b : Word), .plot (r.p0 + a) (r.p1 + b) r.fg ∈ circleEmission r →
    .plot (r.p0 - a) (r.p1 + b) r.fg ∈ circleEmission r ∧
    .plot (r.p0 + a) (r.p1 - b) r.fg ∈ circleEmission r ∧
    .plot (r.p0 + b) (r.p1 + a) r.fg ∈ circleEmission r

/-- R181: no scan loop of FILLTRIANGLE that runs divides by zero, for any vertices. It rests on the model's reading of
`last` as exact (log entry 5). -/
def Obligations.FilltriangleNeverDividesByZero : Prop :=
  ∀ (r : Regs), let v := sortByY r.vertices
    v.y0 ≠ v.y2 →
    (0 < loopCount v.y0.toInt (upperLast v) → (upperRegs v r.fg).dya ≠ 0 ∧ (upperRegs v r.fg).dyb ≠ 0) ∧
    (0 < loopCount (upperLast v + 1) v.y2.toInt → (lowerRegs v r.fg).dya ≠ 0 ∧ (lowerRegs v r.fg).dyb ≠ 0)

/-- R181, property L1-P3: when the y differences do not wrap and no two x are more than 32766 apart, so that no run's
length `b - a + 1` wraps, FILLTRIANGLE's runs lie on every scanline from the least y to the greatest exactly once, in
ascending order, each of at least one pixel. With SINK_RUNS = 1 it emits these runs, with SINK_RUNS = 0 their pixels, run
by run, each from left to right (R121). -/
def Obligations.FilltriangleScansEachLineOnce : Prop :=
  ∀ (cfg : Config) (r : Regs),
    (∀ x ∈ [r.p0, r.p2, r.p4], ∀ x' ∈ [r.p0, r.p2, r.p4], x.toInt - x'.toInt ≤ 32766) →
    let v := sortByY r.vertices
    v.y2.toInt - v.y0.toInt ≤ 32767 →
    ∃ runs : List SinkReq,
      runs.map runRow =
        (List.range (v.y2.toInt - v.y0.toInt + 1).toNat).map (fun k => some (loopVar v.y0 k)) ∧
      (∀ q ∈ runs, ∃ len, runLength q = some len ∧ 1 ≤ len.toInt) ∧
      filltriangleEmission cfg r = if cfg.sinkRuns then runs else runs.flatMap reqPlots
end

