-- ==== Sys2Proof/Laws/State.lean ====
section
/-! SUPPORT. One lemma per field per update of the state, each by unfolding the update. -/

namespace Sys2Proof.Machine

variable (s : State)

/-! `State.observe` -/

@[simp] theorem State.observe_cfg (o : Observed) : (s.observe o).cfg = s.cfg := rfl
@[simp] theorem State.observe_live (o : Observed) : (s.observe o).live = s.live := rfl
@[simp] theorem State.observe_status (o : Observed) : (s.observe o).status = s.status := rfl
@[simp] theorem State.observe_bdone (o : Observed) : (s.observe o).bdone = s.bdone := rfl
@[simp] theorem State.observe_rdone (o : Observed) : (s.observe o).rdone = s.rdone := rfl
@[simp] theorem State.observe_eng (o : Observed) : (s.observe o).eng = s.eng := rfl
@[simp] theorem State.observe_snap (o : Observed) : (s.observe o).snap = s.snap := rfl
@[simp] theorem State.observe_sc (o : Observed) : (s.observe o).sc = s.sc := rfl
@[simp] theorem State.observe_cont (o : Observed) : (s.observe o).cont = s.cont := rfl
@[simp] theorem State.observe_ram (o : Observed) : (s.observe o).ram = s.ram := rfl
@[simp] theorem State.observe_rom (o : Observed) : (s.observe o).rom = s.rom := rfl
@[simp] theorem State.observe_remote (o : Observed) : (s.observe o).remote = s.remote := rfl
@[simp] theorem State.observe_bsPos (o : Observed) : (s.observe o).bsPos = s.bsPos := rfl
@[simp] theorem State.observe_bsLeft (o : Observed) : (s.observe o).bsLeft = s.bsLeft := rfl
@[simp] theorem State.observe_ramOld (o : Observed) : (s.observe o).ramOld = s.ramOld := rfl
@[simp] theorem State.observe_host (o : Observed) : (s.observe o).host = s.host := rfl
@[simp] theorem State.observe_world (o : Observed) : (s.observe o).world = s.world := rfl
@[simp] theorem State.observe_turnNo (o : Observed) : (s.observe o).turnNo = s.turnNo := rfl
@[simp] theorem State.observe_trace (o : Observed) : (s.observe o).trace = o :: s.trace := rfl

/-! `State.push` -/

@[simp] theorem State.push_cfg (ts : List Task) : (s.push ts).cfg = s.cfg := rfl
@[simp] theorem State.push_live (ts : List Task) : (s.push ts).live = s.live := rfl
@[simp] theorem State.push_status (ts : List Task) : (s.push ts).status = s.status := rfl
@[simp] theorem State.push_bdone (ts : List Task) : (s.push ts).bdone = s.bdone := rfl
@[simp] theorem State.push_rdone (ts : List Task) : (s.push ts).rdone = s.rdone := rfl
@[simp] theorem State.push_eng (ts : List Task) : (s.push ts).eng = s.eng := rfl
@[simp] theorem State.push_snap (ts : List Task) : (s.push ts).snap = s.snap := rfl
@[simp] theorem State.push_sc (ts : List Task) : (s.push ts).sc = s.sc := rfl
@[simp] theorem State.push_cont (ts : List Task) : (s.push ts).cont = ts ++ s.cont := rfl
@[simp] theorem State.push_ram (ts : List Task) : (s.push ts).ram = s.ram := rfl
@[simp] theorem State.push_rom (ts : List Task) : (s.push ts).rom = s.rom := rfl
@[simp] theorem State.push_remote (ts : List Task) : (s.push ts).remote = s.remote := rfl
@[simp] theorem State.push_bsPos (ts : List Task) : (s.push ts).bsPos = s.bsPos := rfl
@[simp] theorem State.push_bsLeft (ts : List Task) : (s.push ts).bsLeft = s.bsLeft := rfl
@[simp] theorem State.push_ramOld (ts : List Task) : (s.push ts).ramOld = s.ramOld := rfl
@[simp] theorem State.push_host (ts : List Task) : (s.push ts).host = s.host := rfl
@[simp] theorem State.push_world (ts : List Task) : (s.push ts).world = s.world := rfl
@[simp] theorem State.push_turnNo (ts : List Task) : (s.push ts).turnNo = s.turnNo := rfl
@[simp] theorem State.push_trace (ts : List Task) : (s.push ts).trace = s.trace := rfl

/-! `State.latch` -/

@[simp] theorem State.latch_cfg (w : Word) : (s.latch w).cfg = s.cfg := rfl
@[simp] theorem State.latch_live (w : Word) : (s.latch w).live = { s.live with cmd := w } := rfl
@[simp] theorem State.latch_status (w : Word) : (s.latch w).status = withErr 0 s.status := rfl
@[simp] theorem State.latch_bdone (w : Word) : (s.latch w).bdone = 0 := rfl
@[simp] theorem State.latch_rdone (w : Word) : (s.latch w).rdone = 0 := rfl
@[simp] theorem State.latch_eng (w : Word) : (s.latch w).eng = s.eng := rfl
@[simp] theorem State.latch_snap (w : Word) : (s.latch w).snap = { s.live with cmd := w } := rfl
@[simp] theorem State.latch_sc (w : Word) : (s.latch w).sc = s.sc := rfl
@[simp] theorem State.latch_cont (w : Word) : (s.latch w).cont = s.cont := rfl
@[simp] theorem State.latch_ram (w : Word) : (s.latch w).ram = s.ram := rfl
@[simp] theorem State.latch_rom (w : Word) : (s.latch w).rom = s.rom := rfl
@[simp] theorem State.latch_remote (w : Word) : (s.latch w).remote = s.remote := rfl
@[simp] theorem State.latch_bsPos (w : Word) : (s.latch w).bsPos = s.bsPos := rfl
@[simp] theorem State.latch_bsLeft (w : Word) : (s.latch w).bsLeft = s.bsLeft := rfl
@[simp] theorem State.latch_ramOld (w : Word) : (s.latch w).ramOld = [] := rfl
@[simp] theorem State.latch_host (w : Word) : (s.latch w).host = s.host := rfl
@[simp] theorem State.latch_world (w : Word) : (s.latch w).world = s.world := rfl
@[simp] theorem State.latch_turnNo (w : Word) : (s.latch w).turnNo = s.turnNo := rfl
@[simp] theorem State.latch_trace (w : Word) : (s.latch w).trace = s.trace := rfl

/-! `State.latchError` -/

@[simp] theorem State.latchError_cfg (e : ErrCode) : (s.latchError e).cfg = s.cfg := rfl
@[simp] theorem State.latchError_live (e : ErrCode) : (s.latchError e).live = s.live := rfl
@[simp] theorem State.latchError_status (e : ErrCode) : (s.latchError e).status = withErr e.code s.status := rfl
@[simp] theorem State.latchError_bdone (e : ErrCode) : (s.latchError e).bdone = s.bdone := rfl
@[simp] theorem State.latchError_rdone (e : ErrCode) : (s.latchError e).rdone = s.rdone := rfl
@[simp] theorem State.latchError_eng (e : ErrCode) : (s.latchError e).eng = s.eng := rfl
@[simp] theorem State.latchError_snap (e : ErrCode) : (s.latchError e).snap = s.snap := rfl
@[simp] theorem State.latchError_sc (e : ErrCode) : (s.latchError e).sc = s.sc := rfl
@[simp] theorem State.latchError_cont (e : ErrCode) : (s.latchError e).cont = s.cont := rfl
@[simp] theorem State.latchError_ram (e : ErrCode) : (s.latchError e).ram = s.ram := rfl
@[simp] theorem State.latchError_rom (e : ErrCode) : (s.latchError e).rom = s.rom := rfl
@[simp] theorem State.latchError_remote (e : ErrCode) : (s.latchError e).remote = s.remote := rfl
@[simp] theorem State.latchError_bsPos (e : ErrCode) : (s.latchError e).bsPos = s.bsPos := rfl
@[simp] theorem State.latchError_bsLeft (e : ErrCode) : (s.latchError e).bsLeft = s.bsLeft := rfl
@[simp] theorem State.latchError_ramOld (e : ErrCode) : (s.latchError e).ramOld = s.ramOld := rfl
@[simp] theorem State.latchError_host (e : ErrCode) : (s.latchError e).host = s.host := rfl
@[simp] theorem State.latchError_world (e : ErrCode) : (s.latchError e).world = s.world := rfl
@[simp] theorem State.latchError_turnNo (e : ErrCode) : (s.latchError e).turnNo = s.turnNo := rfl
@[simp] theorem State.latchError_trace (e : ErrCode) : (s.latchError e).trace = s.trace := rfl

/-! `State.start` -/

@[simp] theorem State.start_cfg (b : List Task) : (s.start b).cfg = s.cfg := rfl
@[simp] theorem State.start_live (b : List Task) : (s.start b).live = s.live := rfl
@[simp] theorem State.start_status (b : List Task) : (s.start b).status = withBusy true s.status := rfl
@[simp] theorem State.start_bdone (b : List Task) : (s.start b).bdone = s.bdone := rfl
@[simp] theorem State.start_rdone (b : List Task) : (s.start b).rdone = s.rdone := rfl
@[simp] theorem State.start_eng (b : List Task) : (s.start b).eng = .exec := rfl
@[simp] theorem State.start_snap (b : List Task) : (s.start b).snap = s.snap := rfl
@[simp] theorem State.start_sc (b : List Task) : (s.start b).sc = s.sc := rfl
@[simp] theorem State.start_cont (b : List Task) : (s.start b).cont = b := rfl
@[simp] theorem State.start_ram (b : List Task) : (s.start b).ram = s.ram := rfl
@[simp] theorem State.start_rom (b : List Task) : (s.start b).rom = s.rom := rfl
@[simp] theorem State.start_remote (b : List Task) : (s.start b).remote = s.remote := rfl
@[simp] theorem State.start_bsPos (b : List Task) : (s.start b).bsPos = s.bsPos := rfl
@[simp] theorem State.start_bsLeft (b : List Task) : (s.start b).bsLeft = s.bsLeft := rfl
@[simp] theorem State.start_ramOld (b : List Task) : (s.start b).ramOld = s.ramOld := rfl
@[simp] theorem State.start_host (b : List Task) : (s.start b).host = s.host := rfl
@[simp] theorem State.start_world (b : List Task) : (s.start b).world = s.world := rfl
@[simp] theorem State.start_turnNo (b : List Task) : (s.start b).turnNo = s.turnNo := rfl
@[simp] theorem State.start_trace (b : List Task) : (s.start b).trace = s.trace := rfl

/-! `State.complete` -/

@[simp] theorem State.complete_cfg : (s.complete).cfg = s.cfg := rfl
@[simp] theorem State.complete_live : (s.complete).live = s.live := rfl
@[simp] theorem State.complete_status : (s.complete).status = withBusy false s.status := rfl
@[simp] theorem State.complete_bdone : (s.complete).bdone = s.bdone := rfl
@[simp] theorem State.complete_rdone : (s.complete).rdone = s.rdone := rfl
@[simp] theorem State.complete_eng : (s.complete).eng = .idle := rfl
@[simp] theorem State.complete_snap : (s.complete).snap = s.snap := rfl
@[simp] theorem State.complete_sc : (s.complete).sc = s.sc := rfl
@[simp] theorem State.complete_cont : (s.complete).cont = [] := rfl
@[simp] theorem State.complete_ram : (s.complete).ram = s.ram := rfl
@[simp] theorem State.complete_rom : (s.complete).rom = s.rom := rfl
@[simp] theorem State.complete_remote : (s.complete).remote = s.remote := rfl
@[simp] theorem State.complete_bsPos : (s.complete).bsPos = s.bsPos := rfl
@[simp] theorem State.complete_bsLeft : (s.complete).bsLeft = s.bsLeft := rfl
@[simp] theorem State.complete_ramOld : (s.complete).ramOld = s.ramOld := rfl
@[simp] theorem State.complete_host : (s.complete).host = s.host := rfl
@[simp] theorem State.complete_world : (s.complete).world = s.world := rfl
@[simp] theorem State.complete_turnNo : (s.complete).turnNo = s.turnNo := rfl
@[simp] theorem State.complete_trace : (s.complete).trace = s.trace := rfl

/-! `State.reject` -/

@[simp] theorem State.reject_cfg : (s.reject).cfg = s.cfg := rfl
@[simp] theorem State.reject_live : (s.reject).live = s.live := rfl
@[simp] theorem State.reject_status : (s.reject).status = withRej true s.status := rfl
@[simp] theorem State.reject_bdone : (s.reject).bdone = s.bdone := rfl
@[simp] theorem State.reject_rdone : (s.reject).rdone = s.rdone := rfl
@[simp] theorem State.reject_eng : (s.reject).eng = s.eng := rfl
@[simp] theorem State.reject_snap : (s.reject).snap = s.snap := rfl
@[simp] theorem State.reject_sc : (s.reject).sc = s.sc := rfl
@[simp] theorem State.reject_cont : (s.reject).cont = s.cont := rfl
@[simp] theorem State.reject_ram : (s.reject).ram = s.ram := rfl
@[simp] theorem State.reject_rom : (s.reject).rom = s.rom := rfl
@[simp] theorem State.reject_remote : (s.reject).remote = s.remote := rfl
@[simp] theorem State.reject_bsPos : (s.reject).bsPos = s.bsPos := rfl
@[simp] theorem State.reject_bsLeft : (s.reject).bsLeft = s.bsLeft := rfl
@[simp] theorem State.reject_ramOld : (s.reject).ramOld = s.ramOld := rfl
@[simp] theorem State.reject_host : (s.reject).host = s.host := rfl
@[simp] theorem State.reject_world : (s.reject).world = s.world := rfl
@[simp] theorem State.reject_turnNo : (s.reject).turnNo = s.turnNo := rfl
@[simp] theorem State.reject_trace : (s.reject).trace = s.trace := rfl

/-! `State.raiseError` -/

@[simp] theorem State.raiseError_cfg (e : ErrCode) : (s.raiseError e).cfg = s.cfg := rfl
@[simp] theorem State.raiseError_live (e : ErrCode) : (s.raiseError e).live = s.live := rfl
@[simp] theorem State.raiseError_status (e : ErrCode) : (s.raiseError e).status = withBusy false (withErr e.code s.status) := rfl
@[simp] theorem State.raiseError_bdone (e : ErrCode) : (s.raiseError e).bdone = s.bdone := rfl
@[simp] theorem State.raiseError_rdone (e : ErrCode) : (s.raiseError e).rdone = s.rdone := rfl
@[simp] theorem State.raiseError_eng (e : ErrCode) : (s.raiseError e).eng = .idle := rfl
@[simp] theorem State.raiseError_snap (e : ErrCode) : (s.raiseError e).snap = s.snap := rfl
@[simp] theorem State.raiseError_sc (e : ErrCode) : (s.raiseError e).sc = s.sc := rfl
@[simp] theorem State.raiseError_cont (e : ErrCode) : (s.raiseError e).cont = [] := rfl
@[simp] theorem State.raiseError_ram (e : ErrCode) : (s.raiseError e).ram = s.ram := rfl
@[simp] theorem State.raiseError_rom (e : ErrCode) : (s.raiseError e).rom = s.rom := rfl
@[simp] theorem State.raiseError_remote (e : ErrCode) : (s.raiseError e).remote = s.remote := rfl
@[simp] theorem State.raiseError_bsPos (e : ErrCode) : (s.raiseError e).bsPos = s.bsPos := rfl
@[simp] theorem State.raiseError_bsLeft (e : ErrCode) : (s.raiseError e).bsLeft = s.bsLeft := rfl
@[simp] theorem State.raiseError_ramOld (e : ErrCode) : (s.raiseError e).ramOld = s.ramOld := rfl
@[simp] theorem State.raiseError_host (e : ErrCode) : (s.raiseError e).host = s.host := rfl
@[simp] theorem State.raiseError_world (e : ErrCode) : (s.raiseError e).world = s.world := rfl
@[simp] theorem State.raiseError_turnNo (e : ErrCode) : (s.raiseError e).turnNo = s.turnNo := rfl
@[simp] theorem State.raiseError_trace (e : ErrCode) : (s.raiseError e).trace = s.trace := rfl

/-! `State.deliver` -/

@[simp] theorem State.deliver_cfg (u : ByteUse) (b : Byte) : (s.deliver u b).cfg = s.cfg := rfl
@[simp] theorem State.deliver_live (u : ByteUse) (b : Byte) : (s.deliver u b).live = s.live := rfl
@[simp] theorem State.deliver_status (u : ByteUse) (b : Byte) : (s.deliver u b).status = s.status := rfl
@[simp] theorem State.deliver_bdone (u : ByteUse) (b : Byte) : (s.deliver u b).bdone = s.bdone := rfl
@[simp] theorem State.deliver_rdone (u : ByteUse) (b : Byte) : (s.deliver u b).rdone = s.rdone := rfl
@[simp] theorem State.deliver_eng (u : ByteUse) (b : Byte) : (s.deliver u b).eng = s.eng := rfl
@[simp] theorem State.deliver_snap (u : ByteUse) (b : Byte) : (s.deliver u b).snap = s.snap := rfl
@[simp] theorem State.deliver_sc (u : ByteUse) (b : Byte) : (s.deliver u b).sc = s.sc := rfl
@[simp] theorem State.deliver_cont (u : ByteUse) (b : Byte) : (s.deliver u b).cont = .call (.bits u b 0) :: s.cont := rfl
@[simp] theorem State.deliver_ram (u : ByteUse) (b : Byte) : (s.deliver u b).ram = s.ram := rfl
@[simp] theorem State.deliver_rom (u : ByteUse) (b : Byte) : (s.deliver u b).rom = s.rom := rfl
@[simp] theorem State.deliver_remote (u : ByteUse) (b : Byte) : (s.deliver u b).remote = s.remote := rfl
@[simp] theorem State.deliver_bsPos (u : ByteUse) (b : Byte) : (s.deliver u b).bsPos = s.bsPos := rfl
@[simp] theorem State.deliver_bsLeft (u : ByteUse) (b : Byte) : (s.deliver u b).bsLeft = s.bsLeft := rfl
@[simp] theorem State.deliver_ramOld (u : ByteUse) (b : Byte) : (s.deliver u b).ramOld = s.ramOld := rfl
@[simp] theorem State.deliver_host (u : ByteUse) (b : Byte) : (s.deliver u b).host = s.host := rfl
@[simp] theorem State.deliver_world (u : ByteUse) (b : Byte) : (s.deliver u b).world = s.world := rfl
@[simp] theorem State.deliver_turnNo (u : ByteUse) (b : Byte) : (s.deliver u b).turnNo = s.turnNo := rfl
@[simp] theorem State.deliver_trace (u : ByteUse) (b : Byte) : (s.deliver u b).trace = s.trace := rfl

/-! `State.update` -/

@[simp] theorem State.update_cfg (u : Update) : (s.update u).cfg = s.cfg := by cases u <;> rfl
@[simp] theorem State.update_live (u : Update) : (s.update u).live = s.live := by cases u <;> rfl
@[simp] theorem State.update_status (u : Update) : (s.update u).status = s.status := by cases u <;> rfl
@[simp] theorem State.update_eng (u : Update) : (s.update u).eng = s.eng := by cases u <;> rfl
@[simp] theorem State.update_snap (u : Update) : (s.update u).snap = s.snap := by cases u <;> rfl
@[simp] theorem State.update_cont (u : Update) : (s.update u).cont = s.cont := by cases u <;> rfl
@[simp] theorem State.update_ram (u : Update) : (s.update u).ram = s.ram := by cases u <;> rfl
@[simp] theorem State.update_rom (u : Update) : (s.update u).rom = s.rom := by cases u <;> rfl
@[simp] theorem State.update_remote (u : Update) : (s.update u).remote = s.remote := by cases u <;> rfl
@[simp] theorem State.update_bsPos (u : Update) : (s.update u).bsPos = s.bsPos := by cases u <;> rfl
@[simp] theorem State.update_bsLeft (u : Update) : (s.update u).bsLeft = s.bsLeft := by cases u <;> rfl
@[simp] theorem State.update_ramOld (u : Update) : (s.update u).ramOld = s.ramOld := by cases u <;> rfl
@[simp] theorem State.update_host (u : Update) : (s.update u).host = s.host := by cases u <;> rfl
@[simp] theorem State.update_world (u : Update) : (s.update u).world = s.world := by cases u <;> rfl
@[simp] theorem State.update_turnNo (u : Update) : (s.update u).turnNo = s.turnNo := by cases u <;> rfl
@[simp] theorem State.update_trace (u : Update) : (s.update u).trace = s.trace := by cases u <;> rfl

end Sys2Proof.Machine
end

