-- ==== Sys2Proof/Laws/Engine.lean ====
section
/-! SUPPORT. What the engine's internal computation and its step do, said once: `settle` stops only before an action or
at the end of the command, it touches nothing but the continuation, the counters and the cursor, and a run of the engine
follows any `Reach` derivation. -/

namespace Sys2Proof.Machine

/-- Nothing internal is pending: the continuation is empty or stands before an action. -/
def atAction : List Task → Bool
  | [] => true
  | .act _ :: _ => true
  | _ => false

theorem settleFor_of_atAction (n : Nat) (s : State) (h : atAction s.cont = true) : settleFor n s = s := by
  cases n with
  | zero => rfl
  | succ n =>
    unfold settleFor
    split
    · rfl
    · rfl
    · rename_i hc; simp [hc, atAction] at h
    · rename_i hc; simp [hc, atAction] at h

theorem settleFor_call {n : Nat} {s : State} {p : Proc} {rest : List Task} (h : s.cont = .call p :: rest) :
    settleFor (n + 1) s = settleFor n (State.push (unfold s.cfg s.snap s.sc p) { s with cont := rest }) := by
  rw [settleFor, h]

theorem settleFor_upd {n : Nat} {s : State} {u : Update} {rest : List Task} (h : s.cont = .upd u :: rest) :
    settleFor (n + 1) s = settleFor n (State.update u { s with cont := rest }) := by
  rw [settleFor, h]

@[simp] theorem contCost_nil : contCost [] = 0 := rfl

@[simp] theorem contCost_cons (t : Task) (ts : List Task) : contCost (t :: ts) = t.cost + contCost ts := by
  simp [contCost]

@[simp] theorem contCost_append (ts us : List Task) : contCost (ts ++ us) = contCost ts + contCost us := by
  simp [contCost]

/-- A list of sink requests costs nothing. -/
@[simp] theorem contCost_map_sink (rs : List SinkReq) : contCost (rs.map Task.sink) = 0 := by
  induction rs with
  | nil => rfl
  | cons r rs ih => simp [ih, Task.sink, Task.cost]

/-- Every internal task costs something. -/
theorem one_le_cost_call (p : Proc) : 1 ≤ (Task.call p).cost := by
  cases p <;> simp [Task.cost]

/-- While `x < y`, a midpoint step brings `x` and `y` closer and wraps neither (41_raster_circles.md R150). -/
theorem midStep_closer {m : Mid} (h : midMore m = true) :
    (midStep m).x.toInt = m.x.toInt + 1 ∧ (midStep m).y.toInt ≤ m.y.toInt ∧
      m.x.toInt ≤ (midStep m).y.toInt := by
  have hlt : m.x.toInt < m.y.toInt := by simpa [midMore] using h
  have hx1 := BitVec.toInt_lt (x := m.y)
  have hx2 := BitVec.le_toInt (x := m.x)
  have key : (midStep m).x = m.x + 1 ∧ ((midStep m).y = m.y ∨ (midStep m).y = m.y - 1) := by
    unfold midStep midDescend
    by_cases hf : 0 ≤ m.f.toInt
    · simp [hf]
    · simp [hf]
  have hxs : (m.x + 1).toInt = m.x.toInt + 1 := by
    rw [BitVec.toInt_add]
    simp only [BitVec.reduceToInt, Int.bmod]
    omega
  have hys : (m.y - 1).toInt = m.y.toInt - 1 := by
    rw [BitVec.toInt_sub]
    simp only [BitVec.reduceToInt, Int.bmod]
    omega
  refine ⟨by rw [key.1, hxs], ?_, ?_⟩
  · rcases key.2 with h | h
    · rw [h]
    · rw [h, hys]; omega
  · rcases key.2 with h | h
    · rw [h]; omega
    · rw [h, hys]; omega

/-- An internal turn either arrives at an action or makes the continuation cheaper. -/
theorem unfold_progress (cfg : Config) (snap : Regs) (sc : StreamCursor) (p : Proc) :
    (∃ a ts, unfold cfg snap sc p = .act a :: ts) ∨ contCost (unfold cfg snap sc p) < (Task.call p).cost := by
  cases p with
  | emitH x y len c =>
    simp only [unfold, emitHTasks]
    split
    · right; simp [Task.cost]
    · split
      · left; exact ⟨_, _, rfl⟩
      · right; simp [Task.cost]
  | emitV x y len c =>
    simp only [unfold, emitVTasks]
    split
    · right; simp [Task.cost]
    · split
      · left; exact ⟨_, _, rfl⟩
      · right; simp [Task.cost]
  | plotsH x y c k n =>
    cases n with
    | zero => right; simp [unfold, plotsHTasks, Task.cost]
    | succ n => left; exact ⟨_, _, rfl⟩
  | plotsV x y c k n =>
    cases n with
    | zero => right; simp [unfold, plotsVTasks, Task.cost]
    | succ n => left; exact ⟨_, _, rfl⟩
  | lineLoop l n =>
    cases n with
    | zero => right; simp [unfold, lineTasks, Task.cost]
    | succ n => left; exact ⟨_, _, rfl⟩
  | fillCols x y h c k n =>
    right
    cases n with
    | zero => simp [unfold, fillColsTasks, Task.cost]
    | succ n => simp [unfold, fillColsTasks, Task.cost]; omega
  | circleLoop cx cy c m =>
    simp only [unfold, circleTasks]
    split
    · left; exact ⟨_, _, rfl⟩
    · right; simp [Task.cost]
  | circleHLoop cx cy c mask m =>
    right
    simp only [unfold, circleHTasks]
    split
    · rename_i h
      have := midStep_closer h
      have hlt : m.x.toInt < m.y.toInt := by simpa [midMore] using h
      simp only [contCost_append, contCost_map_sink, contCost_cons, contCost_nil, Task.cost]
      omega
    · simp [Task.cost]
  | fillCircleHLoop cx cy c mask delta m =>
    right
    simp only [unfold, fillCircleHTasks]
    split
    · rename_i h
      have := midStep_closer h
      have hlt : m.x.toInt < m.y.toInt := by simpa [midMore] using h
      have hs : ∀ x y, contCost (halfStrips cx cy c mask delta x y) ≤ 8 := by
        intro x y
        unfold halfStrips
        split <;> split <;> simp [Task.cost]
      have := hs (midStep m).x (midStep m).y
      simp only [contCost_append, contCost_cons, contCost_nil, Task.cost]
      omega
    · simp [Task.cost]
  | triLoop t n =>
    right
    cases n with
    | zero => simp [unfold, triTasks, Task.cost]
    | succ n =>
      have : (Task.call (triRun t)).cost = 2 := by
        unfold triRun scanRun
        split <;> simp [Task.cost]
      simp only [unfold, triTasks, contCost_cons, contCost_nil, this]
      simp only [Task.cost]
      omega
  | bitmapLoop b j k =>
    simp only [unfold, bitmapTasks]
    split
    · split
      · left
        simp only [fetchTasks]
        split
        · exact ⟨_, _, rfl⟩
        · simp only [nextByteTasks]
          split <;> exact ⟨_, _, rfl⟩
      · right
        simp only [contCost_cons, contCost_nil, Task.cost]
        omega
    · right; simp [Task.cost]
  | glyphLoop g band col =>
    simp only [unfold, glyphTasks]
    split
    · split
      · left
        simp only [nextByteTasks]
        split <;> exact ⟨_, _, rfl⟩
      · right
        simp only [contCost_cons, contCost_nil, Task.cost]
        omega
    · right; simp [Task.cost]
  | bits use byte b =>
    right
    cases use with
    | bitmap g j k =>
      simp only [unfold]
      split
      · simp only [bitmapBitTasks]
        split
        · simp [Task.cost]
        · simp only [contCost_append, contCost_map_sink, contCost_cons, contCost_nil, Task.cost]
          omega
      · simp [Task.cost]
    | glyph g band col =>
      simp only [unfold]
      split
      · simp only [glyphBitTasks, contCost_append, contCost_map_sink, contCost_cons, contCost_nil, Task.cost]
        omega
      · simp [Task.cost]

/-- Fuel enough brings the internal computation to its end. -/
theorem settleFor_atAction (n : Nat) (s : State) (h : contCost s.cont ≤ n) : atAction (settleFor n s).cont = true := by
  induction n generalizing s with
  | zero =>
    rcases hc : s.cont with _ | ⟨_ | p | u, rest⟩
    · simp [settleFor, hc, atAction]
    · simp [settleFor, hc, atAction]
    · have := one_le_cost_call p; rw [hc, contCost_cons] at h; omega
    · rw [hc, contCost_cons] at h; simp [Task.cost] at h
  | succ n ih =>
    rcases hc : s.cont with _ | ⟨_ | p | u, rest⟩
    · rw [settleFor_of_atAction _ _ (by simp [hc, atAction])]; simp [hc, atAction]
    · rw [settleFor_of_atAction _ _ (by simp [hc, atAction])]; simp [hc, atAction]
    · rw [settleFor_call hc]
      rcases unfold_progress s.cfg s.snap s.sc p with ⟨a, ts, he⟩ | hlt
      · rw [settleFor_of_atAction _ _ (by simp [he, atAction])]; simp [he, atAction]
      · apply ih
        rw [hc, contCost_cons] at h
        simp only [State.push_cont, contCost_append]
        omega
    · rw [settleFor_upd hc]
      apply ih
      rw [hc, contCost_cons] at h
      simp only [State.update_cont]
      simp [Task.cost] at h
      omega

theorem settleFor_add (n k : Nat) (s : State) : settleFor (n + k) s = settleFor k (settleFor n s) := by
  induction n generalizing s with
  | zero => simp [settleFor]
  | succ n ih =>
    rw [Nat.add_right_comm]
    rcases hc : s.cont with _ | ⟨_ | p | u, rest⟩
    · rw [settleFor_of_atAction _ s (by simp [hc, atAction]), settleFor_of_atAction _ s (by simp [hc, atAction]),
        settleFor_of_atAction _ s (by simp [hc, atAction])]
    · rw [settleFor_of_atAction _ s (by simp [hc, atAction]), settleFor_of_atAction _ s (by simp [hc, atAction]),
        settleFor_of_atAction _ s (by simp [hc, atAction])]
    · rw [settleFor_call hc, settleFor_call hc, ih]
    · rw [settleFor_upd hc, settleFor_upd hc, ih]

/-- More fuel than `contCost` changes nothing. -/
theorem settleFor_enough {n : Nat} {s : State} (h : contCost s.cont ≤ n) : settleFor n s = settle s := by
  obtain ⟨k, rfl⟩ := Nat.exists_eq_add_of_le h
  rw [settleFor_add, settleFor_of_atAction _ _ (settleFor_atAction _ _ (Nat.le_refl _))]
  rfl

/-- The internal computation stops only before an action or at the end of the command (R38). -/
theorem settle_atAction (s : State) : atAction (settle s).cont = true :=
  settleFor_atAction _ _ (Nat.le_refl _)

theorem settle_of_atAction {s : State} (h : atAction s.cont = true) : settle s = s := settleFor_of_atAction _ _ h

@[simp] theorem settle_settle (s : State) : settle (settle s) = settle s := settle_of_atAction (settle_atAction s)

/-- A procedure at the head is unfolded. -/
theorem settle_call {s : State} {p : Proc} {rest : List Task} (h : s.cont = .call p :: rest) :
    settle s = settle (State.push (unfold s.cfg s.snap s.sc p) { s with cont := rest }) := by
  have h1 := one_le_cost_call p
  obtain ⟨k, hk⟩ : ∃ k, contCost s.cont = k + 1 := ⟨contCost s.cont - 1, by rw [h, contCost_cons]; omega⟩
  have hs : settle s = settleFor (k + 1) s := by rw [← hk]; rfl
  rw [hs, settleFor_call h]
  rcases unfold_progress s.cfg s.snap s.sc p with ⟨a, ts, he⟩ | hlt
  · rw [settleFor_of_atAction _ _ (by simp [he, atAction]), settle_of_atAction (by simp [he, atAction])]
  · apply settleFor_enough
    rw [h, contCost_cons] at hk
    simp only [State.push_cont, contCost_append]
    omega

/-- A register update at the head is made. -/
theorem settle_upd {s : State} {u : Update} {rest : List Task} (h : s.cont = .upd u :: rest) :
    settle s = settle (State.update u { s with cont := rest }) := by
  obtain ⟨k, hk⟩ : ∃ k, contCost s.cont = k + 1 :=
    ⟨contCost rest, by rw [h, contCost_cons]; simp [Task.cost]; omega⟩
  have hs : settle s = settleFor (k + 1) s := by rw [← hk]; rfl
  rw [hs, settleFor_upd h]
  apply settleFor_enough
  rw [h, contCost_cons] at hk
  simp only [State.update_cont]
  simp [Task.cost] at hk
  omega

/-- The internal computation touches nothing but the continuation, the counters and the cursor. -/
theorem settleFor_frame (n : Nat) (s : State) :
    settleFor n s =
      { s with cont := (settleFor n s).cont, bdone := (settleFor n s).bdone, rdone := (settleFor n s).rdone,
               sc := (settleFor n s).sc } := by
  induction n generalizing s with
  | zero => rfl
  | succ n ih =>
    rcases hc : s.cont with _ | ⟨_ | p | u, rest⟩
    · rw [settleFor_of_atAction _ _ (by simp [hc, atAction])]
    · rw [settleFor_of_atAction _ _ (by simp [hc, atAction])]
    · rw [settleFor_call hc]
      conv => lhs; rw [ih]
      rfl
    · rw [settleFor_upd hc]
      conv => lhs; rw [ih]
      cases u <;> rfl

theorem settle_frame (s : State) :
    settle s = { s with cont := (settle s).cont, bdone := (settle s).bdone, rdone := (settle s).rdone,
                        sc := (settle s).sc } :=
  settleFor_frame _ s

@[simp] theorem settle_cfg (s : State) : (settle s).cfg = s.cfg := by rw [settle_frame]
@[simp] theorem settle_live (s : State) : (settle s).live = s.live := by rw [settle_frame]
@[simp] theorem settle_status (s : State) : (settle s).status = s.status := by rw [settle_frame]
@[simp] theorem settle_eng (s : State) : (settle s).eng = s.eng := by rw [settle_frame]
@[simp] theorem settle_snap (s : State) : (settle s).snap = s.snap := by rw [settle_frame]
@[simp] theorem settle_ram (s : State) : (settle s).ram = s.ram := by rw [settle_frame]
@[simp] theorem settle_rom (s : State) : (settle s).rom = s.rom := by rw [settle_frame]
@[simp] theorem settle_remote (s : State) : (settle s).remote = s.remote := by rw [settle_frame]
@[simp] theorem settle_bsPos (s : State) : (settle s).bsPos = s.bsPos := by rw [settle_frame]
@[simp] theorem settle_bsLeft (s : State) : (settle s).bsLeft = s.bsLeft := by rw [settle_frame]
@[simp] theorem settle_ramOld (s : State) : (settle s).ramOld = s.ramOld := by rw [settle_frame]
@[simp] theorem settle_host (s : State) : (settle s).host = s.host := by rw [settle_frame]
@[simp] theorem settle_world (s : State) : (settle s).world = s.world := by rw [settle_frame]
@[simp] theorem settle_turnNo (s : State) : (settle s).turnNo = s.turnNo := by rw [settle_frame]
@[simp] theorem settle_trace (s : State) : (settle s).trace = s.trace := by rw [settle_frame]

/-- An idle engine does nothing. -/
theorem engineTurn_idle {s : State} (ans : Answer) (h : s.eng = .idle) : engineTurn ans s = .next s := by
  simp [engineTurn, h]

/-- Internal computation done ahead of the step makes no difference to it. -/
theorem engineTurn_settle {s : State} (ans : Answer) (h : s.eng = .exec) :
    engineTurn ans (settle s) = engineTurn ans s := by
  simp [engineTurn, h]

/-- The step of an engine whose next action is pending. -/
theorem engineTurn_act {s : State} {a : Action} {rest : List Task} (ans : Answer) (he : s.eng = .exec)
    (hc : s.cont = .act a :: rest) :
    engineTurn ans s =
      match perform a ans { s with cont := rest } with
      | .next u => .next (finishAction u)
      | .fault e => .fault e
      | .refused e => .refused e := by
  have hs : settle s = s := settle_of_atAction (by simp [hc, atAction])
  unfold engineTurn
  split
  · rename_i h
    cases he.symm.trans h
  · simp only [hs]
    split
    · rename_i h
      cases hc.symm.trans h
      rfl
    · rename_i h
      cases hc.symm.trans h
    · rename_i h _
      exact absurd hc (h a rest)

/-- Everything an engine step that answers a next state can have done. -/
theorem engineTurn_cases {s t : State} {ans : Answer} (h : engineTurn ans s = .next t) :
    (s.eng = .idle ∧ t = s) ∨
    (s.eng = .exec ∧ (settle s).cont = [] ∧ t = (settle s).complete) ∨
    (s.eng = .exec ∧ ∃ a rest u, (settle s).cont = .act a :: rest ∧
      perform a ans { settle s with cont := rest } = .next u ∧ t = finishAction u) := by
  have hat := settle_atAction s
  cases he : s.eng with
  | idle => rw [engineTurn_idle ans he] at h; cases h; exact .inl ⟨rfl, rfl⟩
  | exec =>
    right
    unfold engineTurn at h
    rw [he] at h
    simp only at h
    rcases hc : (settle s).cont with _ | ⟨a | p | u, rest⟩
    · left
      rw [hc] at h
      cases h
      exact ⟨rfl, rfl, rfl⟩
    · right
      rw [hc] at h
      simp only at h
      refine ⟨rfl, a, rest, ?_⟩
      cases hp : perform a ans { settle s with cont := rest } with
      | next u => rw [hp] at h; cases h; exact ⟨u, rfl, rfl, rfl⟩
      | fault e => rw [hp] at h; cases h
      | refused e => rw [hp] at h; cases h
    · rw [hc] at hat; cases hat
    · rw [hc] at hat; cases hat

/-- What an action's step leaves: the settled state, completed when nothing remains. -/
theorem finishAction_eq (u : State) :
    finishAction u = if (settle u).cont = [] then (settle u).complete else settle u := by
  simp [finishAction]

/-- From `s` the engine arrives at `t` by internal computation and actions, showing `os` in order, whenever its
partners' answers are `good`. -/
inductive Reach (good : Answer → Prop) : State → List Observed → State → Prop
  | refl (s : State) : Reach good s [] s
  | call {s : State} {p : Proc} {rest : List Task} {os : List Observed} {t : State}
      (hc : s.cont = .call p :: rest)
      (h : Reach good (State.push (unfold s.cfg s.snap s.sc p) { s with cont := rest }) os t) : Reach good s os t
  | upd {s : State} {u : Update} {rest : List Task} {os : List Observed} {t : State}
      (hc : s.cont = .upd u :: rest)
      (h : Reach good (State.update u { s with cont := rest }) os t) : Reach good s os t
  | act {s : State} {a : Action} {rest : List Task} {u : State} {o : Observed} {os : List Observed} {t : State}
      (hc : s.cont = .act a :: rest)
      (hp : ∀ ans, good ans → perform a ans { s with cont := rest } = .next u)
      (ho : u.trace = o :: s.trace) (he : u.eng = s.eng)
      (h : Reach good u os t) : Reach good s (o :: os) t

theorem Reach.trans {good : Answer → Prop} {s t u : State} {os ps : List Observed} (h : Reach good s os t)
    (h' : Reach good t ps u) : Reach good s (os ++ ps) u := by
  induction h with
  | refl => exact h'
  | call hc _ ih => exact .call hc (ih h')
  | upd hc _ ih => exact .upd hc (ih h')
  | act hc hp ho he _ ih => exact .act hc hp ho he (ih h')

/-- A derivation that holds for more answers holds for fewer. -/
theorem Reach.mono {good good' : Answer → Prop} {s t : State} {os : List Observed} (h : Reach good s os t)
    (hg : ∀ a, good' a → good a) : Reach good' s os t := by
  induction h with
  | refl s => exact .refl s
  | call hc _ ih => exact .call hc ih
  | upd hc _ ih => exact .upd hc ih
  | act hc hp ho he _ ih => exact .act hc (fun a ha => hp a (hg a ha)) ho he ih

theorem Reach.trace_eq {good : Answer → Prop} {s t : State} {os : List Observed} (h : Reach good s os t) :
    t.trace = os.reverse ++ s.trace := by
  induction h with
  | refl => rfl
  | call hc _ ih => simpa using ih
  | upd hc _ ih => simpa using ih
  | act hc hp ho he _ ih => simp [ih, ho]

/-- A run of the engine, one step per observation and at least one, follows a derivation that ends the command. -/
theorem Reach.settled {good : Answer → Prop} {s t : State} {os : List Observed} (h : Reach good s os t)
    (ht : t.cont = []) (hs : s.eng = .exec) :
    (os = [] → settle s = t) ∧ (os ≠ [] → ∃ a rest, (settle s).cont = .act a :: rest) ∧
    (os ≠ [] → ∀ as : List Answer, as.length = os.length → (∀ a ∈ as, good a) →
      engineRun as s = .next t.complete) := by
  induction h with
  | refl s =>
    refine ⟨fun _ => settle_of_atAction (by simp [ht, atAction]), fun h => absurd rfl h, fun h => absurd rfl h⟩
  | @call s p rest os t hc _ ih =>
    have ih := ih ht (by simpa using hs)
    rw [← settle_call hc] at ih
    refine ⟨ih.1, ih.2.1, fun ho as hl hg => ?_⟩
    rw [← ih.2.2 ho as hl hg]
    cases as with
    | nil => exact absurd (List.length_eq_zero_iff.mp hl.symm) ho
    | cons a as =>
      simp only [engineRun]
      rw [← engineTurn_settle a hs, settle_call hc, engineTurn_settle a (by simpa using hs)]
  | @upd s u rest os t hc _ ih =>
    have ih := ih ht (by simpa using hs)
    rw [← settle_upd hc] at ih
    refine ⟨ih.1, ih.2.1, fun ho as hl hg => ?_⟩
    rw [← ih.2.2 ho as hl hg]
    cases as with
    | nil => exact absurd (List.length_eq_zero_iff.mp hl.symm) ho
    | cons a as =>
      simp only [engineRun]
      rw [← engineTurn_settle a hs, settle_upd hc, engineTurn_settle a (by simpa using hs)]
  | @act s a rest u o os t hc hp ho he _ ih =>
    have ih := ih ht (by rw [he]; exact hs)
    have hset : settle s = s := settle_of_atAction (by simp [hc, atAction])
    refine ⟨fun h => absurd h (by simp), fun _ => ⟨a, rest, by rw [hset, hc]⟩, fun _ as hl hg => ?_⟩
    cases as with
    | nil => simp at hl
    | cons b as =>
      have hu : engineTurn b s = .next (finishAction u) := by
        rw [engineTurn_act b hs hc, hp b (hg b (by simp))]
      simp only [engineRun, hu]
      rw [finishAction_eq]
      by_cases hos : os = []
      · subst hos
        have has : as = [] := by simpa using hl
        subst has
        rw [ih.1 rfl, if_pos ht]
        rfl
      · obtain ⟨a', rest', hc'⟩ := ih.2.1 hos
        rw [if_neg (by simp [hc'])]
        have := ih.2.2 hos as (by simpa using hl) (fun x hx => hg x (by simp [hx]))
        rw [← this]
        cases as with
        | nil => exact absurd (List.length_eq_zero_iff.mp (by simpa using hl.symm)) hos
        | cons b' as =>
          simp only [engineRun]
          rw [engineTurn_settle b' (by rw [he]; exact hs)]

/-- The run of a whole command: one step per observation, and one internal step where there is none (R37). -/
theorem Reach.run {good : Answer → Prop} {s t : State} {os : List Observed} (h : Reach good s os t)
    (ht : t.cont = []) (hs : s.eng = .exec) {as : List Answer} (hl : as.length = max 1 os.length)
    (hg : ∀ a ∈ as, good a) : engineRun as s = .next t.complete := by
  by_cases ho : os = []
  · subst ho
    obtain ⟨a, rfl⟩ : ∃ a, as = [a] := List.length_eq_one_iff.mp (by simpa using hl)
    have hst := (h.settled ht hs).1 rfl
    have : engineTurn a s = .next t.complete := by
      unfold engineTurn
      rw [hs]
      simp only [hst, ht]
    simp [engineRun, this]
  · refine (h.settled ht hs).2.2 ho as ?_ hg
    have : 1 ≤ os.length := by
      rcases os with _ | ⟨o, os⟩
      · exact absurd rfl ho
      · simp
    omega

end Sys2Proof.Machine
end

