-- ==== Sys2Proof/Laws/Loops.lean ====
section
/-! SUPPORT. What each procedure and loop of the shape commands draws: the engine's register-by-register computation
against the lists of Machine/Emission.lean. -/

namespace Sys2Proof.Machine

/-- The state with what remains to do and what was shown brought up to date. -/
def State.drawn (rs : List SinkReq) (rest : List Task) (s : State) : State :=
  { s with cont := rest, trace := (rs.map Observed.sink).reverse ++ s.trace }

/-- The tasks `ts` hand the sink exactly `rs`, whatever the partners answer and whatever is to come after them. -/
def Draws (cfg : Config) (snap : Regs) (ts : List Task) (rs : List SinkReq) : Prop :=
  ∀ (s : State) (rest : List Task), s.cfg = cfg → s.snap = snap → s.cont = ts ++ rest →
    Reach (fun _ => True) s (rs.map Observed.sink) (s.drawn rs rest)

theorem Draws.nil {cfg : Config} {snap : Regs} : Draws cfg snap [] [] := by
  intro s rest _ _ hc
  have hc : s.cont = rest := hc
  have : s.drawn [] rest = s := by subst hc; rfl
  rw [this]
  exact .refl s

theorem Draws.append {cfg : Config} {snap : Regs} {ts us : List Task} {rs qs : List SinkReq}
    (h : Draws cfg snap ts rs) (h' : Draws cfg snap us qs) : Draws cfg snap (ts ++ us) (rs ++ qs) := by
  intro s rest hcfg hsnap hc
  have h1 := h s (us ++ rest) hcfg hsnap (by rw [hc, List.append_assoc])
  have h2 := h' (s.drawn rs (us ++ rest)) rest hcfg hsnap rfl
  have : (s.drawn rs (us ++ rest)).drawn qs rest = s.drawn (rs ++ qs) rest := by
    simp [State.drawn]
  rw [this] at h2
  rw [List.map_append]
  exact h1.trans h2

/-- A sink request is drawn. -/
theorem Draws.sink {cfg : Config} {snap : Regs} (r : SinkReq) : Draws cfg snap [.sink r] [r] := by
  intro s rest _ _ hc
  refine .act (a := .sink r) (rest := rest) (u := { s with cont := rest, trace := .sink r :: s.trace }) hc
    (fun _ _ => rfl) rfl rfl ?_
  exact .refl _

/-- A list of sink requests is drawn in order. -/
theorem Draws.sinks {cfg : Config} {snap : Regs} (rs : List SinkReq) : Draws cfg snap (rs.map Task.sink) rs := by
  induction rs with
  | nil => exact .nil
  | cons r rs ih => exact Draws.append (Draws.sink r) ih

/-- A procedure draws what its unfolding draws. -/
theorem Draws.call {cfg : Config} {snap : Regs} {p : Proc} {rs : List SinkReq}
    (h : ∀ sc, Draws cfg snap (unfold cfg snap sc p) rs) : Draws cfg snap [.call p] rs := by
  rintro s rest rfl rfl hc
  exact .call (p := p) (rest := rest) hc
    (h s.sc (State.push (unfold s.cfg s.snap s.sc p) { s with cont := rest }) rest rfl rfl rfl)

theorem Draws.cons {cfg : Config} {snap : Regs} {t : Task} {ts : List Task} {rs qs : List SinkReq}
    (h : Draws cfg snap [t] rs) (h' : Draws cfg snap ts qs) : Draws cfg snap (t :: ts) (rs ++ qs) :=
  Draws.append h h'

/-- A list of tasks, each with what it draws. -/
theorem Draws.of_eq {cfg : Config} {snap : Regs} {ts : List Task} {rs qs : List SinkReq}
    (h : Draws cfg snap ts rs) (e : rs = qs) : Draws cfg snap ts qs := e ▸ h

variable {cfg : Config} {snap : Regs}

/-! ## Runs -/

theorem draws_plotsH (x y c : Word) (k n : Nat) :
    Draws cfg snap [.call (.plotsH x y c k n)] ((List.range n).map fun i => .plot (loopVar x (k + i)) y c) := by
  induction n generalizing k with
  | zero => exact .call fun _ => .nil
  | succ n ih =>
    refine .call fun _ => ((Draws.sink _).cons (ih (k + 1))).of_eq ?_
    simp [List.range_succ_eq_map, Function.comp_def, Nat.add_assoc, Nat.add_comm 1]

theorem draws_plotsV (x y c : Word) (k n : Nat) :
    Draws cfg snap [.call (.plotsV x y c k n)] ((List.range n).map fun i => .plot x (loopVar y (k + i)) c) := by
  induction n generalizing k with
  | zero => exact .call fun _ => .nil
  | succ n ih =>
    refine .call fun _ => ((Draws.sink _).cons (ih (k + 1))).of_eq ?_
    simp [List.range_succ_eq_map, Function.comp_def, Nat.add_assoc, Nat.add_comm 1]

/-- `EmitH` draws its run (40_raster_lines.md R121). -/
theorem draws_emitH (x y len c : Word) : Draws cfg snap [.call (.emitH x y len c)] (runH cfg x y len c) := by
  refine .call fun _ => ?_
  simp only [unfold, emitHTasks, runH]
  split
  · exact .nil
  · split
    · exact .sink _
    · simpa using draws_plotsH x y c 0 len.toNat

/-- `EmitV` draws its run (R121). -/
theorem draws_emitV (x y len c : Word) : Draws cfg snap [.call (.emitV x y len c)] (runV cfg x y len c) := by
  refine .call fun _ => ?_
  simp only [unfold, emitVTasks, runV]
  split
  · exact .nil
  · split
    · exact .sink _
    · simpa using draws_plotsV x y c 0 len.toNat

/-! ## Lines and rectangles -/

theorem draws_lineLoop (l : LineRegs) (n : Nat) :
    Draws cfg snap [.call (.lineLoop l n)] ((List.range n).map fun k => linePlot (lineStep^[k] l)) := by
  induction n generalizing l with
  | zero => exact .call fun _ => .nil
  | succ n ih =>
    refine .call fun _ => ((Draws.sink _).cons (ih (lineStep l))).of_eq ?_
    simp [List.range_succ_eq_map, Function.comp_def]

/-- `LineCore` draws its PLOTs (R120). -/
theorem draws_lineCore (x0 y0 x1 y1 c : Word) :
    Draws cfg snap (lineCore x0 y0 x1 y1 c) (linePlots x0 y0 x1 y1 c) := draws_lineLoop _ _

theorem draws_fillCols (x y h c : Word) (k n : Nat) :
    Draws cfg snap [.call (.fillCols x y h c k n)]
      ((List.range n).flatMap fun i => runV cfg (loopVar x (k + i)) y h c) := by
  induction n generalizing k with
  | zero => exact .call fun _ => .nil
  | succ n ih =>
    refine .call fun _ => ((draws_emitV _ _ _ _).cons (ih (k + 1))).of_eq ?_
    simp [List.range_succ_eq_map, List.flatMap_map, Nat.add_assoc, Nat.add_comm 1]

/-- FILLRECT's body draws its columns, with its guard (R126). -/
theorem draws_fillRect (x y w h c : Word) :
    Draws cfg snap (fillRectTasks x y w h c) (rectColumns cfg x y w h c) := by
  unfold fillRectTasks rectColumns
  by_cases hh : h.toInt ≤ 0
  · simpa [hh] using Draws.nil
  · by_cases hw : w.toInt ≤ 0
    · have : w.toInt.toNat = 0 := by omega
      simpa [hh, hw, this] using Draws.nil
    · have : w.toInt.toNat = w.toNat := by
        rw [BitVec.toInt_eq_toNat_cond] at hw ⊢
        split at hw <;> rename_i h1 <;> simp only [h1, if_true, if_false] <;> omega
      simpa [hh, hw, this] using draws_fillCols x y h c 0 w.toNat

/-! ## Circles -/

/-- The midpoint loop with enough fuel: more makes no difference. -/
theorem midLoop_of_le {n n' : Nat} {m : Mid} (h : (m.y.toInt - m.x.toInt).toNat ≤ n)
    (h' : (m.y.toInt - m.x.toInt).toNat ≤ n') : midLoop n m = midLoop n' m := by
  induction n generalizing n' m with
  | zero =>
    have hm : midMore m = false := by simp [midMore]; omega
    cases n' with
    | zero => rfl
    | succ n' => simp [midLoop, hm]
  | succ n ih =>
    by_cases hm : midMore m = true
    · have hc := midStep_closer hm
      have hlt : m.x.toInt < m.y.toInt := by simpa [midMore] using hm
      cases n' with
      | zero => omega
      | succ n' =>
        simp only [midLoop, hm, if_true]
        rw [ih (n' := n') (by omega) (by omega)]
    · cases n' with
      | zero => simp [midLoop, hm]
      | succ n' => simp [midLoop, hm]

/-- The pairs of a midpoint loop from its present registers on. -/
def midRest (m : Mid) : List (Word × Word) := midLoop (m.y.toInt - m.x.toInt).toNat m

theorem midRest_of_more {m : Mid} (h : midMore m = true) :
    midRest m = ((midStep m).x, (midStep m).y) :: midRest (midStep m) := by
  have hc := midStep_closer h
  have hlt : m.x.toInt < m.y.toInt := by simpa [midMore] using h
  obtain ⟨k, hk⟩ : ∃ k, (m.y.toInt - m.x.toInt).toNat = k + 1 := ⟨(m.y.toInt - m.x.toInt).toNat - 1, by omega⟩
  unfold midRest
  rw [hk]
  simp only [midLoop, h, if_true]
  rw [midLoop_of_le (n' := ((midStep m).y.toInt - (midStep m).x.toInt).toNat) (by omega) (Nat.le_refl _)]

theorem midRest_of_not_more {m : Mid} (h : ¬midMore m = true) : midRest m = [] := by
  unfold midRest
  have : (m.y.toInt - m.x.toInt).toNat = 0 := by simp [midMore] at h; omega
  rw [this]
  rfl

theorem midRest_midInit (r : Word) : midRest (midInit r) = midPairs r := by
  have h0 : (midInit r).x.toInt = 0 := rfl
  have hy : (midInit r).y = r := rfl
  unfold midRest midPairs
  rw [h0, hy, Int.sub_zero]

/-- What a midpoint loop draws, given what each pair draws. -/
theorem draws_midLoop (loop : Mid → Proc) (tasks : Word → Word → List Task) (reqs : Word × Word → List SinkReq)
    (hloop : ∀ sc m, unfold cfg snap sc (loop m) =
      if midMore m then tasks (midStep m).x (midStep m).y ++ [.call (loop (midStep m))] else [])
    (htasks : ∀ x y, Draws cfg snap (tasks x y) (reqs (x, y))) (m : Mid) :
    Draws cfg snap [.call (loop m)] ((midRest m).flatMap reqs) := by
  suffices ∀ n m, (m.y.toInt - m.x.toInt).toNat ≤ n → Draws cfg snap [.call (loop m)] ((midRest m).flatMap reqs) from
    this _ m (Nat.le_refl _)
  intro n
  induction n with
  | zero =>
    intro m h
    have hm : ¬midMore m = true := by simp [midMore]; omega
    refine .call fun sc => ?_
    rw [hloop, if_neg hm, midRest_of_not_more hm]
    exact .nil
  | succ n ih =>
    intro m h
    refine .call fun sc => ?_
    rw [hloop]
    by_cases hm : midMore m = true
    · have hc := midStep_closer hm
      have hlt : m.x.toInt < m.y.toInt := by simpa [midMore] using hm
      rw [if_pos hm, midRest_of_more hm, List.flatMap_cons]
      exact Draws.append (htasks _ _) (ih _ (by omega))
    · rw [if_neg hm, midRest_of_not_more hm]
      exact .nil

/-- CIRCLE's loop (41_raster_circles.md R151). -/
theorem draws_circleLoop (cx cy c r : Word) :
    Draws cfg snap [.call (.circleLoop cx cy c (midInit r))]
      ((midPairs r).flatMap fun p => circlePoints cx cy c p.1 p.2) := by
  rw [← midRest_midInit]
  exact draws_midLoop (.circleLoop cx cy c) (fun x y => (circlePoints cx cy c x y).map .sink) _ (fun _ _ => rfl)
    (fun _ _ => .sinks _) _

/-- CIRCLEH's body (R152). -/
theorem draws_circleHCore (cx cy r : Word) (mask : BitVec 4) (c : Word) :
    Draws cfg snap (circleHCore cx cy r mask c) (arcPoints cx cy r mask c) := by
  unfold circleHCore arcPoints
  rw [← midRest_midInit]
  exact draws_midLoop (.circleHLoop cx cy c mask) (fun x y => (quadrantPoints cx cy c mask x y).map .sink) _
    (fun _ _ => rfl) (fun _ _ => .sinks _) _

theorem draws_halfStrips (cx cy c : Word) (mask : BitVec 2) (delta x y : Word) :
    Draws cfg snap (halfStrips cx cy c mask delta x y) (stripRuns cfg cx cy mask delta c x y) := by
  unfold halfStrips stripRuns
  refine Draws.append ?_ ?_
  · split
    · exact (draws_emitV _ _ _ _).cons (draws_emitV _ _ _ _)
    · exact .nil
  · split
    · exact (draws_emitV _ _ _ _).cons (draws_emitV _ _ _ _)
    · exact .nil

/-- FILLCIRCLEH's body (R153). -/
theorem draws_fillCircleHCore (cx cy r : Word) (mask : BitVec 2) (delta c : Word) :
    Draws cfg snap (fillCircleHCore cx cy r mask delta c) (diskStrips cfg cx cy r mask delta c) := by
  unfold fillCircleHCore diskStrips
  rw [← midRest_midInit]
  exact draws_midLoop (.fillCircleHLoop cx cy c mask delta) (fun x y => halfStrips cx cy c mask delta x y) _
    (fun _ _ => rfl) (fun _ _ => draws_halfStrips _ _ _ _ _ _ _) _

/-! ## Triangles -/

/-- One scanline (42_raster_triangles.md R181). -/
theorem draws_triRun (t : TriRegs) :
    Draws cfg snap [.call (triRun t)]
      (scanRequests cfg (intercept t.xa t.sa t.dya) (intercept t.xb t.sb t.dyb) t.y t.c) := by
  unfold triRun scanRun scanRequests
  split
  · exact draws_emitH _ _ _ _
  · exact draws_emitH _ _ _ _

/-- The numerator of the next scanline is the accumulated one (R181). -/
theorem numerator_succ (a d : Word32) (k : Nat) :
    a + d + BitVec.ofNat 32 k * d = a + BitVec.ofNat 32 (k + 1) * d := by
  have : BitVec.ofNat 32 (k + 1) = BitVec.ofNat 32 k + 1 := by simp [BitVec.ofNat_add]
  have one : (1 : Word32) * d = d := BitVec.one_mul d
  rw [this, BitVec.add_mul, one, BitVec.add_assoc, BitVec.add_comm d]

theorem loopVar_succ (y : Word) (k : Nat) : loopVar (y + 1) k = loopVar y (k + 1) := by
  have : BitVec.ofNat 16 (k + 1) = BitVec.ofNat 16 k + 1 := by simp [BitVec.ofNat_add]
  simp only [loopVar, this]
  rw [BitVec.add_assoc, BitVec.add_comm 1]

theorem numerator_zero (a d : Word32) : a + BitVec.ofNat 32 0 * d = a := by
  rw [BitVec.zero_mul, BitVec.add_zero]

theorem loopVar_zero (y : Word) : loopVar y 0 = y := BitVec.add_zero y

/-- The first scanline and the rest (R181). -/
theorem scanLines_succ (t : TriRegs) (n : Nat) :
    scanLines cfg t (n + 1) =
      scanRequests cfg (intercept t.xa t.sa t.dya) (intercept t.xb t.sb t.dyb) t.y t.c ++
        scanLines cfg (triStep t) n := by
  unfold scanLines
  rw [List.range_succ_eq_map, List.flatMap_cons, List.flatMap_map]
  simp only [triStep, numerator_succ, loopVar_succ, numerator_zero, loopVar_zero]

/-- A scan loop (R181). -/
theorem draws_triLoop (t : TriRegs) (n : Nat) : Draws cfg snap [.call (.triLoop t n)] (scanLines cfg t n) := by
  induction n generalizing t with
  | zero => exact .call fun _ => .nil
  | succ n ih =>
    refine .call fun _ => ?_
    rw [scanLines_succ]
    exact (draws_triRun t).cons (ih (triStep t))

/-- FILLTRIANGLE's body on sorted vertices (R181). -/
theorem draws_fillSorted (v : Vertices) (c : Word) : Draws cfg snap (fillSorted v c) (sortedEmission cfg v c) := by
  unfold fillSorted sortedEmission
  split
  · exact draws_emitH _ _ _ _
  · exact (draws_triLoop _ _).cons (draws_triLoop _ _)

end Sys2Proof.Machine
end

