-- ==== Sys2Proof/Laws/Status.lean ====
section
/-! SUPPORT. The fields of STATUS after each of its updates (10_state.md R23). -/

namespace Sys2Proof.Machine

variable (st : Word)

/-- Bit 0 is BUSY, the others are kept. -/
theorem withBusy_getLsbD (b : Bool) (n : Nat) :
    (withBusy b st).getLsbD n = if n = 0 then b else st.getLsbD n := by
  by_cases hn : n < 16
  · interval_cases n <;> cases b <;> simp [withBusy]
  · rw [BitVec.getLsbD_of_ge _ _ (by omega), BitVec.getLsbD_of_ge _ _ (by omega), if_neg (by omega)]

/-- Bit 1 is REJ, the others are kept. -/
theorem withRej_getLsbD (b : Bool) (n : Nat) :
    (withRej b st).getLsbD n = if n = 1 then b else st.getLsbD n := by
  by_cases hn : n < 16
  · interval_cases n <;> cases b <;> simp [withRej]
  · rw [BitVec.getLsbD_of_ge _ _ (by omega), BitVec.getLsbD_of_ge _ _ (by omega), if_neg (by omega)]

/-- Bits 7:4 are ERR, the others are kept. -/
theorem withErr_getLsbD (e : BitVec 4) (n : Nat) :
    (withErr e st).getLsbD n = if 4 ≤ n ∧ n < 8 then e.getLsbD (n - 4) else st.getLsbD n := by
  by_cases hn : n < 16
  · interval_cases n <;> simp [withErr]
  · rw [BitVec.getLsbD_of_ge _ _ (by omega), if_neg (by omega), BitVec.getLsbD_of_ge _ _ (by omega)]

@[simp] theorem busyBit_withBusy (b : Bool) : busyBit (withBusy b st) = b := by
  unfold busyBit
  rw [withBusy_getLsbD]
  rfl

@[simp] theorem busyBit_withRej (b : Bool) : busyBit (withRej b st) = busyBit st := by
  unfold busyBit
  rw [withRej_getLsbD]
  rfl

@[simp] theorem busyBit_withErr (e : BitVec 4) : busyBit (withErr e st) = busyBit st := by
  unfold busyBit
  rw [withErr_getLsbD]
  rfl

@[simp] theorem rejBit_withBusy (b : Bool) : rejBit (withBusy b st) = rejBit st := by
  unfold rejBit
  rw [withBusy_getLsbD]
  rfl

@[simp] theorem rejBit_withRej (b : Bool) : rejBit (withRej b st) = b := by
  unfold rejBit
  rw [withRej_getLsbD]
  rfl

@[simp] theorem rejBit_withErr (e : BitVec 4) : rejBit (withErr e st) = rejBit st := by
  unfold rejBit
  rw [withErr_getLsbD]
  rfl

/-- A bit of the ERR field is that bit of STATUS, four places up. -/
theorem errField_getLsbD (n : Nat) : (errField st).getLsbD n = (decide (n < 4) && st.getLsbD (4 + n)) := by
  simp [errField]

@[simp] theorem errField_withBusy (b : Bool) : errField (withBusy b st) = errField st := by
  apply BitVec.eq_of_getLsbD_eq
  intro i hi
  rw [errField_getLsbD, errField_getLsbD, withBusy_getLsbD, if_neg (by omega)]

@[simp] theorem errField_withRej (b : Bool) : errField (withRej b st) = errField st := by
  apply BitVec.eq_of_getLsbD_eq
  intro i hi
  rw [errField_getLsbD, errField_getLsbD, withRej_getLsbD, if_neg (by omega)]

@[simp] theorem errField_withErr (e : BitVec 4) : errField (withErr e st) = e := by
  apply BitVec.eq_of_getLsbD_eq
  intro i hi
  rw [errField_getLsbD, withErr_getLsbD, if_pos (by omega)]
  simp [hi]

/-- An idle STATUS is unchanged by BUSY rising and falling. -/
theorem withBusy_false_of_idle (b : Bool) (h : busyBit st = false) : withBusy false (withBusy b st) = st := by
  apply BitVec.eq_of_getLsbD_eq
  intro i hi
  rw [withBusy_getLsbD, withBusy_getLsbD]
  by_cases hi0 : i = 0
  · subst hi0; simpa [busyBit] using h.symm
  · simp [hi0]

/-- What a host write makes of each bit of STATUS but REJ: nothing. -/
theorem statusWritten_getLsbD_of_ne (v : Word) (n : Nat) (hn : n ≠ 1) :
    (statusWritten v st).getLsbD n = st.getLsbD n := by
  unfold statusWritten
  split
  · rw [withRej_getLsbD, if_neg hn]
  · rfl

@[simp] theorem busyBit_statusWritten (v : Word) : busyBit (statusWritten v st) = busyBit st :=
  statusWritten_getLsbD_of_ne st v 0 (by decide)

@[simp] theorem errField_statusWritten (v : Word) : errField (statusWritten v st) = errField st := by
  apply BitVec.eq_of_getLsbD_eq
  intro i hi
  rw [errField_getLsbD, errField_getLsbD, statusWritten_getLsbD_of_ne _ _ _ (by omega)]

end Sys2Proof.Machine
end

