-- ==== Sys2Proof/Laws/Accept.lean ====
section
/-! SUPPORT. Acceptance, said once: what `acceptWord` does, what `exec` is for each command, and a command from its
acceptance to its completion, given what its pseudocode shows. -/

namespace Sys2Proof.Machine

/-- A word written while BUSY is rejected (10_state.md R36). -/
theorem acceptWord_busy {w : Word} {verdict : Config → Regs → Verdict} {body : Regs → List Task} {s : State}
    (h : s.busy = true) : acceptWord w verdict body s = .next s.reject := by
  simp [acceptWord, h]

/-- A word written while idle is accepted (R35). -/
theorem acceptWord_idle {w : Word} {verdict : Config → Regs → Verdict} {body : Regs → List Task} {s : State}
    (h : s.busy = false) :
    acceptWord w verdict body s =
      .next ((s.latch w).settleVerdict (verdict s.cfg (s.snapshotFor w)) (body (s.snapshotFor w))) := by
  simp [acceptWord, h, State.snapshotFor]

/-- Everything acceptance can do. -/
theorem settleVerdict_cases (v : Verdict) (body : List Task) (s : State) :
    (v = .ok ∧ s.settleVerdict v body = s.start body) ∨ (v = .degenerate ∧ s.settleVerdict v body = s) ∨
      ∃ e : ErrCode, s.settleVerdict v body = s.latchError e := by
  cases v
  · exact .inl ⟨rfl, rfl⟩
  · exact .inr (.inl ⟨rfl, rfl⟩)
  · exact .inr (.inr ⟨.illegalCmd, rfl⟩)
  · exact .inr (.inr ⟨.badAddress, rfl⟩)
  · exact .inr (.inr ⟨.misaligned, rfl⟩)

/-- The check of a command's operands (30_encoding.md R97 steps 4 to 7). -/
def verdictOf : Instr → Config → Regs → Verdict
  | .hrun _ | .vrun _ => runVerdict
  | .rect _ | .fillrect _ | .roundrect _ | .fillroundrect _ => rectVerdict
  | .blit _ | .blitxbm _ => blitVerdict
  | .sblit _ => sblitVerdict
  | .sglyph _ => sglyphVerdict
  | .line _ | .circle _ | .circleh _ | .fillcircle _ | .fillcircleh _ | .triangle _ | .filltriangle _ => anyVerdict

/-- The pseudocode of a command. -/
def bodyOf : Instr → Regs → List Task
  | .line _ => lineBody
  | .hrun _ => hrunBody
  | .vrun _ => vrunBody
  | .rect _ => rectBody
  | .fillrect _ => fillrectBody
  | .circle _ => circleBody
  | .circleh _ => circlehBody
  | .fillcircle _ => fillcircleBody
  | .fillcircleh _ => fillcirclehBody
  | .roundrect _ => roundrectBody
  | .fillroundrect _ => fillroundrectBody
  | .triangle _ => triangleBody
  | .filltriangle _ => filltriangleBody
  | .blit _ => blitBody
  | .blitxbm _ => blitxbmBody
  | .sblit _ => sblitBody
  | .sglyph _ => sglyphBody

/-- Every meaning is acceptance of its command with its own check and pseudocode. -/
theorem exec_eq (i : Instr) (s : State) : exec i s = acceptCommand i (verdictOf i) (bodyOf i) s := by
  cases i <;> rfl

/-- A command written while BUSY is rejected (R36). -/
theorem exec_busy {i : Instr} {s : State} (h : s.busy = true) : exec i s = .next s.reject := by
  rw [exec_eq]
  exact acceptWord_busy h

/-- A well-formed command written while idle takes the verdict of its operands (R35, R97). -/
theorem exec_idle {i : Instr} {s : State} (h : s.busy = false) (hi : i.wellFormed = true) :
    exec i s = .next ((s.latch (encode i)).settleVerdict (verdictOf i s.cfg (s.snapshotFor (encode i)))
      (bodyOf i (s.snapshotFor (encode i)))) := by
  rw [exec_eq, acceptCommand, acceptWord_idle h, if_pos hi]

/-- A command whose operands pass starts (R35). -/
theorem exec_start {i : Instr} {s : State} (h : s.busy = false) (hi : i.wellFormed = true)
    (hv : verdictOf i s.cfg (s.snapshotFor (encode i)) = .ok) :
    exec i s = .next ((s.latch (encode i)).start (bodyOf i (s.snapshotFor (encode i)))) := by
  rw [exec_idle h hi, hv]
  rfl

/-- A command that starts and follows a derivation to its end is over in one engine step per observation, or one
step when there is none (R37). -/
theorem exec_reach {good : Answer → Prop} {i : Instr} {s t : State} {os : List Observed} {as : List Answer}
    (h : s.busy = false) (hi : i.wellFormed = true) (hv : verdictOf i s.cfg (s.snapshotFor (encode i)) = .ok)
    (hr : Reach good ((s.latch (encode i)).start (bodyOf i (s.snapshotFor (encode i)))) os t) (ht : t.cont = [])
    (hl : as.length = max 1 os.length) (hg : ∀ a ∈ as, good a) :
    ∃ u, exec i s = .next u ∧ u.busy = true ∧ engineRun as u = .next t.complete :=
  ⟨_, exec_start h hi hv, busyBit_withBusy _ true, hr.run ht rfl hl hg⟩

/-- A shape command from its acceptance to its completion. -/
theorem exec_draws {i : Instr} {s : State} {rs : List SinkReq} {as : List Answer} (h : s.busy = false)
    (hi : i.wellFormed = true) (hv : verdictOf i s.cfg (s.snapshotFor (encode i)) = .ok)
    (hd : Draws s.cfg (s.snapshotFor (encode i)) (bodyOf i (s.snapshotFor (encode i))) rs)
    (hl : as.length = max 1 rs.length) :
    ∃ t, exec i s = .next t ∧ t.busy = true ∧
      engineRun as t = .next (s.afterCommand (encode i) (rs.map .sink) 0 0) := by
  have hr := hd ((s.latch (encode i)).start (bodyOf i (s.snapshotFor (encode i)))) [] rfl rfl
    (List.append_nil _).symm
  obtain ⟨u, h1, h2, h3⟩ := exec_reach h hi hv hr rfl (as := as) (by simpa using hl) (fun _ _ => trivial)
  refine ⟨u, h1, h2, h3.trans ?_⟩
  congr 1
  simp only [State.drawn, State.complete, State.start, State.latch, State.afterCommand]
  rw [withBusy_false_of_idle]
  exact (busyBit_withErr _ 0).trans h

end Sys2Proof.Machine
end

