-- ==== Sys2Proof/Laws/Bitmaps.lean ====
section
/-! SUPPORT. What the bitmap and glyph loops show and where they leave the counters, the cursor and the ByteStore, given
bytes from a local space or from a stream whose reads answer Data. -/

namespace Sys2Proof.Machine

/-- The part of the state a fetch moves: the cursor and the ByteStore. -/
structure Supply where
  sc : StreamCursor
  pos : Word
  left : Byte

/-- A state whose running parts are these. -/
def State.placed (s : State) (cont : List Task) (bd : Word32) (rd : Word) (u : Supply) (tr : List Observed) : State :=
  { s with cont := cont, bdone := bd, rdone := rd, sc := u.sc, bsPos := u.pos, bsLeft := u.left, trace := tr }

/-- The supply of a state. -/
def State.supply (s : State) : Supply := ⟨s.sc, s.bsPos, s.bsLeft⟩

theorem State.placed_self (s : State) : s.placed s.cont s.bdone s.rdone s.supply s.trace = s := rfl

variable {good : Answer → Prop}

/-! ## The bits of a byte -/

/-- The pixels of a bitmap byte from bit `b` on (43_bitmap_blitter.md R203). -/
theorem draws_bitmapBits {cfg : Config} {snap : Regs} (g : BitmapRegs) (j k : Nat) (byte : Byte) (n b : Nat)
    (hb : b + n = 8) :
    Draws cfg snap [.call (.bits (.bitmap g j k) byte b)]
      ((List.range' b n).flatMap fun b =>
        if g.w.toInt ≤ ((8 * k + b : Nat) : Int) then []
        else pixelReq (bitmapBit g.order byte b) g.bgon (loopVar g.x (8 * k + b)) (loopVar g.y j) snap) := by
  induction n generalizing b with
  | zero =>
    refine .call fun _ => ?_
    simp only [unfold]
    rw [if_neg (by omega)]
    exact .nil
  | succ n ih =>
    refine .call fun _ => ?_
    simp only [unfold]
    rw [if_pos (by omega), List.range'_succ, List.flatMap_cons]
    unfold bitmapBitTasks
    by_cases hw : g.w.toInt ≤ ((8 * k + b : Nat) : Int)
    · rw [if_pos hw, if_pos hw]
      refine Draws.nil.of_eq ?_
      symm
      simp only [List.nil_append, List.flatMap_eq_nil_iff, List.mem_range'_1]
      intro x hx
      rw [if_pos (by omega)]
    · rw [if_neg hw, if_neg hw]
      exact Draws.append (.sinks _) (ih (b + 1) (by omega))

/-- The pixels of a bitmap byte. -/
theorem draws_bytePixels {cfg : Config} {snap : Regs} (g : BitmapRegs) (j k : Nat) (byte : Byte) :
    Draws cfg snap [.call (.bits (.bitmap g j k) byte 0)] (bytePixels snap g j k byte) := by
  refine (draws_bitmapBits g j k byte 8 0 rfl).of_eq ?_
  rw [← List.range_eq_range']
  rfl

/-- The pixels of a glyph column byte from row `r` on (44_stream_decoder.md R244). -/
theorem draws_glyphBits {cfg : Config} {snap : Regs} (g : GlyphRegs) (band col : Nat) (byte : Byte) (n r : Nat)
    (hr : r + n = 8) :
    Draws cfg snap [.call (.bits (.glyph g band col) byte r)]
      ((List.range' r n).flatMap fun r =>
        pixelReq (glyphBit cfg.glyphOrder byte r) (snap.bg != snap.fg) (loopVar g.x col)
          (loopVar g.y (8 * band + r)) snap) := by
  induction n generalizing r with
  | zero =>
    refine .call fun _ => ?_
    simp only [unfold]
    rw [if_neg (by omega)]
    exact .nil
  | succ n ih =>
    refine .call fun _ => ?_
    simp only [unfold]
    rw [if_pos (by omega), List.range'_succ, List.flatMap_cons]
    exact Draws.append (.sinks _) (ih (r + 1) (by omega))

/-- The pixels of a glyph column byte. -/
theorem draws_columnPixels {cfg : Config} {snap : Regs} (g : GlyphRegs) (band col : Nat) (byte : Byte) :
    Draws cfg snap [.call (.bits (.glyph g band col) byte 0)] (columnPixels cfg snap g band col byte) := by
  refine (draws_glyphBits g band col byte 8 0 rfl).of_eq ?_
  rw [← List.range_eq_range']
  rfl

/-! ## A grid of bytes -/

/-- What a walk over positions shows, the supply moving with each. -/
def walkObserved (obs : Nat × Nat → Supply → List Observed) (nxt : Supply → Supply) :
    Supply → List (Nat × Nat) → List Observed
  | _, [] => []
  | u, p :: ps => obs p u ++ walkObserved obs nxt (nxt u) ps

theorem walkObserved_append (obs : Nat × Nat → Supply → List Observed) (nxt : Supply → Supply) (u : Supply)
    (ps qs : List (Nat × Nat)) :
    walkObserved obs nxt u (ps ++ qs) = walkObserved obs nxt u ps ++ walkObserved obs nxt (nxt^[ps.length] u) qs := by
  induction ps generalizing u with
  | nil => rfl
  | cons p ps ih =>
    simp only [List.cons_append, walkObserved, ih, List.append_assoc, List.length_cons, Function.iterate_succ_apply]

/-- A loop over rows and bytes: how it unfolds, and what one fetch does. -/
structure GridLoop (good : Answer → Prop) (s : State) (height width : Nat) (loop : Nat → Nat → Proc)
    (fetch : StreamCursor → Nat → Nat → List Task) (obs : Nat × Nat → Supply → List Observed) (nxt : Supply → Supply)
    (inv : Supply → Prop) : Prop where
  byte : ∀ sc j k, j < height → k < width →
    unfold s.cfg s.snap sc (loop j k) = fetch sc j k ++ [.upd .byteDone, .call (loop j (k + 1))]
  row : ∀ sc j, j < height → unfold s.cfg s.snap sc (loop j width) = [.upd .rowDone, .call (loop (j + 1) 0)]
  done : ∀ sc, unfold s.cfg s.snap sc (loop height 0) = []
  fetched : ∀ j k rest bd rd u tr, j < height → k < width → inv u →
    Reach good (s.placed (fetch u.sc j k ++ rest) bd rd u tr) (obs (j, k) u)
      (s.placed rest bd rd (nxt u) ((obs (j, k) u).reverse ++ tr))
  kept : ∀ u, inv u → inv (nxt u)

variable {s : State} {height width : Nat} {loop : Nat → Nat → Proc} {fetch : StreamCursor → Nat → Nat → List Task}
  {obs : Nat × Nat → Supply → List Observed} {nxt : Supply → Supply} {inv : Supply → Prop}

/-- The rest of a row. -/
theorem GridLoop.rowReach (h : GridLoop good s height width loop fetch obs nxt inv) (n : Nat) {j k : Nat}
    (hj : j < height) (hk : k + n = width) (rest : List Task) (bd : Word32) (rd : Word) {u : Supply} (hu : inv u)
    (tr : List Observed) :
    inv (nxt^[n] u) ∧
    Reach good (s.placed (.call (loop j k) :: rest) bd rd u tr)
      (walkObserved obs nxt u ((List.range' k n).map fun k => (j, k)))
      (s.placed (.call (loop (j + 1) 0) :: rest) (bd + BitVec.ofNat 32 n) (rd + 1) (nxt^[n] u)
        ((walkObserved obs nxt u ((List.range' k n).map fun k => (j, k))).reverse ++ tr)) := by
  induction n generalizing k bd u tr with
  | zero =>
    obtain rfl : k = width := by omega
    refine ⟨hu, .call rfl ?_⟩
    rw [show (s.placed (.call (loop j k) :: rest) bd rd u tr).cfg = s.cfg from rfl,
      show (s.placed (.call (loop j k) :: rest) bd rd u tr).snap = s.snap from rfl, h.row _ _ hj]
    refine .upd rfl ?_
    rw [show bd + BitVec.ofNat 32 0 = bd from BitVec.add_zero bd]
    exact .refl _
  | succ n ih =>
    obtain ⟨hi, hr⟩ := ih (k := k + 1) (by omega) (bd + 1) (h.kept u hu) ((obs (j, k) u).reverse ++ tr)
    rw [Function.iterate_succ_apply]
    refine ⟨hi, .call rfl ?_⟩
    rw [show (s.placed (.call (loop j k) :: rest) bd rd u tr).cfg = s.cfg from rfl,
      show (s.placed (.call (loop j k) :: rest) bd rd u tr).snap = s.snap from rfl, h.byte _ _ _ hj (by omega)]
    have hf := h.fetched j k (.upd .byteDone :: .call (loop j (k + 1)) :: rest) bd rd u tr hj (by omega) hu
    rw [List.range'_succ, List.map_cons, walkObserved]
    have hb : bd + BitVec.ofNat 32 (n + 1) = bd + 1 + BitVec.ofNat 32 n := by
      rw [BitVec.add_assoc, Nat.add_comm, BitVec.ofNat_add]
      rfl
    rw [hb, List.reverse_append, List.append_assoc]
    refine Reach.trans (t := s.placed (.upd .byteDone :: .call (loop j (k + 1)) :: rest) bd rd (nxt u)
      ((obs (j, k) u).reverse ++ tr)) ?_ (.upd rfl hr)
    simpa [State.push, State.placed] using hf

/-- The rest of the rows. -/
theorem GridLoop.rowsReach (h : GridLoop good s height width loop fetch obs nxt inv) (n : Nat) {j : Nat}
    (hj : j + n = height) (rest : List Task) (bd : Word32) (rd : Word) {u : Supply} (hu : inv u)
    (tr : List Observed) :
    Reach good (s.placed (.call (loop j 0) :: rest) bd rd u tr)
      (walkObserved obs nxt u ((List.range' j n).flatMap fun j => (List.range width).map fun k => (j, k)))
      (s.placed rest (bd + BitVec.ofNat 32 (n * width)) (rd + BitVec.ofNat 16 n) (nxt^[n * width] u)
        ((walkObserved obs nxt u ((List.range' j n).flatMap fun j => (List.range width).map fun k => (j, k))).reverse
          ++ tr)) := by
  induction n generalizing j bd rd u tr with
  | zero =>
    obtain rfl : j = height := by omega
    refine .call rfl ?_
    rw [show (s.placed (.call (loop j 0) :: rest) bd rd u tr).cfg = s.cfg from rfl,
      show (s.placed (.call (loop j 0) :: rest) bd rd u tr).snap = s.snap from rfl, h.done]
    rw [Nat.zero_mul, show bd + BitVec.ofNat 32 0 = bd from BitVec.add_zero bd,
      show rd + BitVec.ofNat 16 0 = rd from BitVec.add_zero rd]
    exact .refl _
  | succ n ih =>
    obtain ⟨hi, hr⟩ := h.rowReach width (j := j) (k := 0) (by omega) (by omega) rest bd rd hu tr
    have hs := ih (j := j + 1) (by omega) (bd + BitVec.ofNat 32 width) (rd + 1) hi
      ((walkObserved obs nxt u ((List.range' 0 width).map fun k => (j, k))).reverse ++ tr)
    have hb : bd + BitVec.ofNat 32 ((n + 1) * width) = bd + BitVec.ofNat 32 width + BitVec.ofNat 32 (n * width) := by
      rw [BitVec.add_assoc, ← BitVec.ofNat_add, Nat.add_comm width, Nat.succ_mul]
    have hd : rd + BitVec.ofNat 16 (n + 1) = rd + 1 + BitVec.ofNat 16 n := by
      rw [BitVec.add_assoc, Nat.add_comm, BitVec.ofNat_add]
      rfl
    rw [List.range'_succ, List.flatMap_cons, walkObserved_append, List.length_map, List.length_range, hb, hd,
      Nat.succ_mul, Function.iterate_add_apply, List.reverse_append, List.append_assoc]
    rw [← List.range_eq_range'] at hr hs
    exact hr.trans hs

/-- A whole grid of bytes, from its first position to its end. -/
theorem GridLoop.reach (h : GridLoop good s height width loop fetch obs nxt inv) (rest : List Task) (bd : Word32)
    (rd : Word) {u : Supply} (hu : inv u) (tr : List Observed) :
    Reach good (s.placed (.call (loop 0 0) :: rest) bd rd u tr) (walkObserved obs nxt u (gridOrder height width))
      (s.placed rest (bd + BitVec.ofNat 32 (height * width)) (rd + BitVec.ofNat 16 height) (nxt^[height * width] u)
        ((walkObserved obs nxt u (gridOrder height width)).reverse ++ tr)) := by
  have := h.rowsReach height (j := 0) (by omega) rest bd rd hu tr
  rw [← List.range_eq_range'] at this
  exact this

end Sys2Proof.Machine
end

