-- ==== Sys2Proof/Laws/Blit.lean ====
section
/-! SUPPORT. What the local blit and the two stream commands show from acceptance to completion, as derivations of
`Reach`. -/

namespace Sys2Proof.Machine

/-! ## A local blit -/

/-- With no RAM byte overwritten since acceptance, a local read has one answer (20_memory.md R79). -/
theorem localByte_of_fresh {s : State} (h : s.ramOld = []) (sp : Space) (a : Nat) (ans : Answer) :
    localByte s sp a ans = spaceByte s sp a := by
  cases sp with
  | rom => rfl
  | ram =>
    simp only [localByte, ramValues, h, List.filter_nil, List.map_nil, spaceByte]
    cases ans.older <;> rfl

/-- What a local fetch shows. -/
def memObserved (s : State) (sp : Space) (g : BitmapRegs) (p : Nat × Nat) (_ : Supply) : List Observed :=
  .memRead sp (g.addr.toNat + p.1 * g.bw + p.2) (spaceByte s sp (g.addr.toNat + p.1 * g.bw + p.2)) ::
    (bytePixels s.snap g p.1 p.2 (spaceByte s sp (g.addr.toNat + p.1 * g.bw + p.2))).map .sink

theorem walkObserved_id (obs : Nat × Nat → Supply → List Observed) (u : Supply) (ps : List (Nat × Nat)) :
    walkObserved obs id u ps = ps.flatMap fun p => obs p u := by
  induction ps with
  | nil => rfl
  | cons p ps ih => simp [walkObserved, ih]

/-- The row and byte loops over a local space (43_bitmap_blitter.md R203). -/
theorem memGridLoop {s : State} {g : BitmapRegs} {sp : Space} (hs : g.source = .mem sp) (hold : s.ramOld = [])
    (hfit : g.addr.toNat + g.h.toInt.toNat * g.bw ≤ spaceSize s.cfg sp) :
    GridLoop (fun _ => True) s g.h.toInt.toNat g.bw (.bitmapLoop g) (fun sc j k => fetchTasks sc g j k)
      (memObserved s sp g) id (fun _ => True) where
  byte := by
    intro sc j k hj hk
    simp only [unfold, bitmapTasks]
    rw [if_pos (by omega), if_pos hk]
  row := by
    intro sc j hj
    simp only [unfold, bitmapTasks]
    rw [if_pos (by omega), if_neg (by omega)]
  done := by
    intro sc
    simp only [unfold, bitmapTasks]
    rw [if_neg (by omega)]
  fetched := by
    intro j k rest bd rd u tr hj hk _
    have hrow : (j + 1) * g.bw ≤ g.h.toInt.toNat * g.bw := Nat.mul_le_mul_right _ hj
    have hlt : g.addr.toNat + j * g.bw + k < spaceSize s.cfg sp := by
      rw [Nat.succ_mul] at hrow
      omega
    simp only [fetchTasks, hs, memObserved]
    refine .act rfl (u := s.placed (.call (.bits (.bitmap g j k)
      (spaceByte s sp (g.addr.toNat + j * g.bw + k)) 0) :: rest) bd rd u
      (.memRead sp (g.addr.toNat + j * g.bw + k) (spaceByte s sp (g.addr.toNat + j * g.bw + k)) :: tr)) ?_ rfl rfl ?_
    · intro ans _
      simp only [perform, memRead]
      rw [if_pos (by exact hlt), localByte_of_fresh (by exact hold)]
      rfl
    · have := draws_bytePixels (cfg := s.cfg) (snap := s.snap) g j k (spaceByte s sp (g.addr.toNat + j * g.bw + k))
        (s.placed (.call (.bits (.bitmap g j k) (spaceByte s sp (g.addr.toNat + j * g.bw + k)) 0) :: rest) bd rd u
          (.memRead sp (g.addr.toNat + j * g.bw + k) (spaceByte s sp (g.addr.toNat + j * g.bw + k)) :: tr)) rest
        rfl rfl rfl
      simpa [State.drawn, State.placed] using this
  kept := fun _ _ => trivial

/-- A local blit's loops, whole (43_bitmap_blitter.md R202, R203). -/
theorem reach_localBitmap {s : State} {g : BitmapRegs} {sp : Space} {rest : List Task}
    (hc : s.cont = .call (.bitmapLoop g 0 0) :: rest) (hs : g.source = .mem sp) (hold : s.ramOld = [])
    (hfit : g.addr.toNat + g.h.toInt.toNat * g.bw ≤ spaceSize s.cfg sp) :
    Reach (fun _ => True) s (blitObserved s sp s.snap g)
      { s with cont := rest
               bdone := s.bdone + BitVec.ofNat 32 (g.h.toInt.toNat * g.bw)
               rdone := s.rdone + BitVec.ofNat 16 g.h.toInt.toNat
               trace := (blitObserved s sp s.snap g).reverse ++ s.trace } := by
  have h := (memGridLoop hs hold hfit).reach rest s.bdone s.rdone (u := s.supply) trivial s.trace
  rw [walkObserved_id, Function.iterate_id] at h
  have hst : s.placed (.call (.bitmapLoop g 0 0) :: rest) s.bdone s.rdone s.supply s.trace = s := by
    rw [← hc]
    rfl
  rw [hst] at h
  exact h

/-! ## A stream -/

/-- The request of a legal block size is never empty (44_stream_decoder.md R221). -/
theorem requestSize_ne_zero {c : Config} (hc : c.legal = true) (a : Word) : requestSize c a ≠ 0 := by
  simp only [Config.legal, Bool.and_eq_true, bne_iff_ne, ne_eq] at hc
  have h0 : c.blockSize.toNat ≠ 0 := fun h => hc.1.1 (BitVec.eq_of_toNat_eq h)
  have hlt : a.toNat % c.blockSize.toNat < c.blockSize.toNat := Nat.mod_lt _ (by omega)
  have hb := c.blockSize.isLt
  intro h
  have := congrArg BitVec.toNat h
  simp only [requestSize, BitVec.toNat_ofNat] at this
  rw [Nat.mod_eq_of_lt (by omega)] at this
  have hz : (0 : Byte).toNat = 0 := rfl
  omega

/-- The ByteStore stands where the cursor does (44_stream_decoder.md R224): at its address with its bytes left, or
nothing is left and a seek comes first. -/
def Supply.inStep (u : Supply) : Prop := u.sc.kblk = 0 ∨ (u.pos = u.sc.raddr ∧ u.left = u.sc.kblk)

/-- The supply after one byte. -/
def Supply.next (cfg : Config) (u : Supply) : Supply where
  sc := (cursorReady cfg u.sc).consume
  pos := (cursorReady cfg u.sc).consume.raddr
  left := (cursorReady cfg u.sc).consume.kblk

/-- What a streamed fetch shows. -/
def fetchShown (cfg : Config) (remote : Memory) (draw : Nat × Nat → Byte → List SinkReq) (p : Nat × Nat)
    (u : Supply) : List Observed :=
  fetchObserved cfg u.sc (remote.read u.sc.raddr.toNat) ++ (draw p (remote.read u.sc.raddr.toNat)).map .sink

theorem walkObserved_stream (cfg : Config) (remote : Memory) (draw : Nat × Nat → Byte → List SinkReq) (u : Supply)
    (ps : List (Nat × Nat)) :
    walkObserved (fetchShown cfg remote draw) (Supply.next cfg) u ps =
      streamObserved cfg remote u.sc (ps.map draw) := by
  induction ps generalizing u with
  | nil => rfl
  | cons p ps ih => simp [walkObserved, ih, fetchShown, streamObserved, Supply.next]

theorem iterate_next (cfg : Config) (n : Nat) (u : Supply) :
    (Supply.next cfg)^[n + 1] u =
      ⟨cursorAfter cfg u.sc (n + 1), (cursorAfter cfg u.sc (n + 1)).raddr, (cursorAfter cfg u.sc (n + 1)).kblk⟩ := by
  induction n generalizing u with
  | zero => rfl
  | succ n ih => rw [Function.iterate_succ_apply, ih]; rfl

/-- The read that ends a fetch, answered with data. -/
theorem reach_bsRead {s : State} {use : ByteUse} {rest : List Task} {qs : List SinkReq}
    (hc : s.cont = .act (.bsRead use) :: rest) (hpos : s.bsPos = s.sc.raddr) (hleft : s.bsLeft = s.sc.kblk)
    (hk : s.sc.kblk ≠ 0)
    (hd : Draws s.cfg s.snap [.call (.bits use (s.remote.read s.sc.raddr.toNat) 0)] qs) :
    Reach (fun a => a.noData = false) s (.bsRead (some (s.remote.read s.sc.raddr.toNat)) :: qs.map .sink)
      { s with cont := rest, sc := s.sc.consume, bsPos := s.sc.consume.raddr, bsLeft := s.sc.consume.kblk
               trace := (qs.map Observed.sink).reverse ++
                 .bsRead (some (s.remote.read s.sc.raddr.toNat)) :: s.trace } := by
  have hkl : s.bsLeft ≠ 0 := hleft ▸ hk
  refine .act hc (u := { s with
      cont := .call (.bits use (s.remote.read s.sc.raddr.toNat) 0) :: rest
      sc := s.sc.consume
      bsPos := s.sc.consume.raddr
      bsLeft := s.sc.consume.kblk
      trace := .bsRead (some (s.remote.read s.sc.raddr.toNat)) :: s.trace }) ?_ rfl rfl ?_
  · intro ans ha
    have hno : noData ans { s with cont := rest } = false := by simpa [noData, ha] using hkl
    change Host.Outcome.next (bsRead use ans { s with cont := rest }) = _
    unfold bsRead
    rw [hno]
    simp only [Bool.false_eq_true, if_false, hpos, hleft]
    rfl
  · have h := hd { s with
      cont := .call (.bits use (s.remote.read s.sc.raddr.toNat) 0) :: rest
      sc := s.sc.consume
      bsPos := s.sc.consume.raddr
      bsLeft := s.sc.consume.kblk
      trace := .bsRead (some (s.remote.read s.sc.raddr.toNat)) :: s.trace } rest rfl rfl rfl
    exact h.mono fun _ _ => trivial

/-- A whole fetch and what its byte draws, every read answered with data (R223, R224). -/
theorem reach_nextByte {s : State} {use : ByteUse} {rest : List Task} {qs : List SinkReq}
    (hc : s.cont = nextByteTasks s.sc use ++ rest) (hcfg : s.cfg.legal = true) (hs : s.supply.inStep)
    (hd : Draws s.cfg s.snap [.call (.bits use (s.remote.read s.sc.raddr.toNat) 0)] qs) :
    Reach (fun a => a.noData = false) s
      (fetchObserved s.cfg s.sc (s.remote.read s.sc.raddr.toNat) ++ qs.map Observed.sink)
      (s.placed rest s.bdone s.rdone (s.supply.next s.cfg)
        ((fetchObserved s.cfg s.sc (s.remote.read s.sc.raddr.toNat) ++ qs.map Observed.sink).reverse ++ s.trace)) := by
  unfold nextByteTasks at hc
  by_cases hk : s.sc.kblk = 0
  · rw [if_pos hk] at hc
    have hn := requestSize_ne_zero hcfg s.sc.raddr
    simp only [fetchObserved, State.supply, Supply.next, cursorReady, if_pos hk]
    refine .act hc (fun _ _ => rfl) rfl rfl ?_
    refine .act rfl (fun _ _ => rfl) rfl rfl ?_
    have h := reach_bsRead (s := bsRequest { bsSeek { s with cont := .act .bsRequest :: .act (.bsRead use) :: rest }
      with cont := .act (.bsRead use) :: rest }) (use := use) (rest := rest) (qs := qs) rfl rfl rfl hn hd
    have hz : s.sc.kblk = 0#8 := hk
    simpa [State.placed, bsRequest, bsSeek, State.observe, hz] using h
  · rw [if_neg hk] at hc
    have hs := hs.resolve_left hk
    have h := reach_bsRead (qs := qs) hc hs.1 hs.2 hk hd
    simp only [fetchObserved, State.supply, Supply.next, cursorReady, if_neg hk]
    have hz : ¬s.sc.kblk = 0#8 := hk
    simpa [State.placed, hz] using h

theorem inStep_next (cfg : Config) (u : Supply) (_ : u.inStep) : (u.next cfg).inStep := .inr ⟨rfl, rfl⟩

/-- The row and byte loops of SBLIT (44_stream_decoder.md R233). -/
theorem sblitGridLoop {s : State} {g : BitmapRegs} (hs : g.source = .stream) (hcfg : s.cfg.legal = true) :
    GridLoop (fun a => a.noData = false) s g.h.toInt.toNat g.bw (.bitmapLoop g) (fun sc j k => fetchTasks sc g j k)
      (fetchShown s.cfg s.remote fun p => bytePixels s.snap g p.1 p.2) (Supply.next s.cfg) Supply.inStep where
  byte := by
    intro sc j k hj hk
    simp only [unfold, bitmapTasks]
    rw [if_pos (by omega), if_pos hk]
  row := by
    intro sc j hj
    simp only [unfold, bitmapTasks]
    rw [if_pos (by omega), if_neg (by omega)]
  done := by
    intro sc
    simp only [unfold, bitmapTasks]
    rw [if_neg (by omega)]
  fetched := by
    intro j k rest bd rd u tr hj hk hu
    simp only [fetchTasks, hs]
    exact reach_nextByte (s := s.placed (nextByteTasks u.sc (.bitmap g j k) ++ rest) bd rd u tr)
      (use := .bitmap g j k) rfl hcfg hu (draws_bytePixels g j k _)
  kept := inStep_next s.cfg

/-- The band and column loops of SGLYPH (R244). -/
theorem glyphGridLoop {s : State} {g : GlyphRegs} (hcfg : s.cfg.legal = true) :
    GridLoop (fun a => a.noData = false) s g.gb g.gw (.glyphLoop g)
      (fun sc band col => nextByteTasks sc (.glyph g band col))
      (fetchShown s.cfg s.remote fun p => columnPixels s.cfg s.snap g p.1 p.2) (Supply.next s.cfg)
      Supply.inStep where
  byte := by
    intro sc j k hj hk
    simp only [unfold, glyphTasks]
    rw [if_pos hj, if_pos hk]
  row := by
    intro sc j hj
    simp only [unfold, glyphTasks]
    rw [if_pos hj, if_neg (by omega)]
  done := by
    intro sc
    simp only [unfold, glyphTasks]
    rw [if_neg (by omega)]
  fetched := by
    intro j k rest bd rd u tr hj hk hu
    exact reach_nextByte (s := s.placed (nextByteTasks u.sc (.glyph g j k) ++ rest) bd rd u tr)
      (use := .glyph g j k) rfl hcfg hu (draws_columnPixels g j k _)
  kept := inStep_next s.cfg

/-- A stream's loops, whole: from the cursor `StreamInit` leaves, through `height * width` bytes (R231). -/
theorem reach_stream {s : State} {height width : Nat} {loop : Nat → Nat → Proc}
    {fetch : StreamCursor → Nat → Nat → List Task} {draw : Nat × Nat → Byte → List SinkReq} {start : Word}
    {len : Word32}
    (h : GridLoop (fun a => a.noData = false) s height width loop fetch (fetchShown s.cfg s.remote draw)
      (Supply.next s.cfg) Supply.inStep)
    (hc : s.cont = [.upd (.streamInit start len), .call (loop 0 0)]) (hpos : 0 < height * width) :
    let os := streamObserved s.cfg s.remote (streamStart start len) ((gridOrder height width).map draw)
    let c := cursorAfter s.cfg (streamStart start len) (height * width)
    Reach (fun a => a.noData = false) s os
      (s.placed [] (s.bdone + BitVec.ofNat 32 (height * width)) (s.rdone + BitVec.ofNat 16 height)
        ⟨c, c.raddr, c.kblk⟩ (os.reverse ++ s.trace)) := by
  intro os c
  have hr := h.reach [] s.bdone s.rdone (u := ⟨streamStart start len, s.bsPos, s.bsLeft⟩) (.inl rfl) s.trace
  rw [walkObserved_stream] at hr
  obtain ⟨n, hn⟩ : ∃ n, height * width = n + 1 := ⟨height * width - 1, by omega⟩
  have hit := iterate_next s.cfg n ⟨streamStart start len, s.bsPos, s.bsLeft⟩
  rw [← hn] at hit
  rw [hit] at hr
  exact .upd hc hr

end Sys2Proof.Machine
end

