-- ==== Sys2Proof/Laws/Memory.lean ====
section
/-! SUPPORT. The laws of memory: a read after a write, and that a write keeps the canonical form. -/

namespace Sys2Proof.Machine

/-- Below its first possible address a memory in canonical form lists nothing. -/
theorem Memory.read_of_lt {m : Memory} {lo a : Nat} (h : Memory.wfFrom lo m = true) (ha : a < lo) :
    Memory.read m a = Memory.fill := by
  induction m generalizing lo with
  | nil => rfl
  | cons c m ih =>
    obtain ⟨x, b⟩ := c
    simp only [Memory.wfFrom, Bool.and_eq_true, decide_eq_true_eq] at h
    have hx : x ≠ a := by omega
    simp only [Memory.read, if_neg hx]
    exact ih h.2 (by omega)

/-- A lower bound may be lowered. -/
theorem Memory.wfFrom_mono {m : Memory} {lo lo' : Nat} (h : Memory.wfFrom lo m = true) (hle : lo' ≤ lo) :
    Memory.wfFrom lo' m = true := by
  cases m with
  | nil => rfl
  | cons c m =>
    obtain ⟨x, b⟩ := c
    simp only [Memory.wfFrom, Bool.and_eq_true, decide_eq_true_eq] at h ⊢
    exact ⟨⟨by omega, h.1.2⟩, h.2⟩

/-- A write leaves every other address alone. -/
theorem Memory.read_write_of_ne (m : Memory) {a x : Nat} (v : Byte) (h : x ≠ a) :
    Memory.read (Memory.write m a v) x = Memory.read m x := by
  induction m with
  | nil =>
    by_cases hv : v = Memory.fill
    · simp [Memory.write, hv]
    · simp [Memory.write, hv, Memory.read, Ne.symm h]
  | cons c m ih =>
    obtain ⟨y, b⟩ := c
    simp only [Memory.write]
    split
    · split
      · rfl
      · simp [Memory.read, Ne.symm h]
    · split
      · rename_i hay; subst hay
        split <;> simp [Memory.read, Ne.symm h]
      · simp [Memory.read, ih]

/-- A read after a write gives the value written. -/
theorem Memory.read_write_self {m : Memory} {lo : Nat} (hm : Memory.wfFrom lo m = true) (a : Nat) (v : Byte) :
    Memory.read (Memory.write m a v) a = v := by
  induction m generalizing lo with
  | nil =>
    by_cases hv : v = Memory.fill
    · simp [Memory.write, hv, Memory.read]
    · simp [Memory.write, hv, Memory.read]
  | cons c m ih =>
    obtain ⟨y, b⟩ := c
    have hm' := hm
    simp only [Memory.wfFrom, Bool.and_eq_true, decide_eq_true_eq] at hm
    simp only [Memory.write]
    split
    · rename_i hay
      split
      · rename_i hv; subst hv
        have : y ≠ a := by omega
        simp only [Memory.read, if_neg this]
        exact Memory.read_of_lt hm.2 (by omega)
      · simp [Memory.read]
    · rename_i hay
      split
      · rename_i hay'; subst hay'
        split
        · rename_i hv; subst hv
          exact Memory.read_of_lt hm.2 (by omega)
        · simp [Memory.read]
      · rename_i hne
        simp only [Memory.read, if_neg (Ne.symm hne)]
        exact ih hm.2

/-- A write keeps the canonical form. -/
theorem Memory.wfFrom_write {m : Memory} {lo a : Nat} (v : Byte) (hm : Memory.wfFrom lo m = true) (ha : lo ≤ a) :
    Memory.wfFrom lo (Memory.write m a v) = true := by
  induction m generalizing lo with
  | nil =>
    by_cases hv : v = Memory.fill <;> simp [Memory.write, hv, Memory.wfFrom, ha]
  | cons c m ih =>
    obtain ⟨y, b⟩ := c
    have hm' := hm
    simp only [Memory.wfFrom, Bool.and_eq_true, decide_eq_true_eq] at hm
    simp only [Memory.write]
    split
    · rename_i hay
      split
      · exact hm'
      · rename_i hv
        have hy : a + 1 ≤ y := hay
        simp only [Memory.wfFrom, Bool.and_eq_true, decide_eq_true_eq]
        exact ⟨⟨ha, by simpa using hv⟩, ⟨hy, hm.1.2⟩, hm.2⟩
    · rename_i hay
      split
      · rename_i hay'; subst hay'
        split
        · exact Memory.wfFrom_mono hm.2 (by omega)
        · rename_i hv
          simp only [Memory.wfFrom, Bool.and_eq_true, decide_eq_true_eq]
          exact ⟨⟨hm.1.1, by simpa using hv⟩, hm.2⟩
      · rename_i hne
        simp only [Memory.wfFrom, Bool.and_eq_true, decide_eq_true_eq]
        exact ⟨hm.1, ih hm.2 (by omega)⟩

/-- A write keeps the canonical form. -/
theorem Memory.wf_write {m : Memory} (a : Nat) (v : Byte) (hm : m.wf = true) : (Memory.write m a v).wf = true :=
  Memory.wfFrom_write v hm (Nat.zero_le a)

/-- A write below the size keeps every listed address below it. -/
theorem Memory.below_write {m : Memory} {size a : Nat} (v : Byte) (hm : m.below size = true) (ha : a < size) :
    (Memory.write m a v).below size = true := by
  induction m with
  | nil => by_cases hv : v = Memory.fill <;> simp [Memory.write, hv, Memory.below, ha]
  | cons c m ih =>
    obtain ⟨y, b⟩ := c
    have hc : y < size ∧ Memory.below size m = true := by simpa [Memory.below] using hm
    have hcons : ∀ (x : Nat) (w : Byte) (l : Memory), x < size → Memory.below size l = true →
        Memory.below size ((x, w) :: l) = true := by
      intro x w l hx hl
      simpa [Memory.below, hx] using hl
    simp only [Memory.write]
    split
    · split
      · exact hm
      · exact hcons _ _ _ ha hm
    · split
      · split
        · exact hc.2
        · exact hcons _ _ _ hc.1 hc.2
      · exact hcons _ _ _ hc.1 (ih hc.2)

/-- The empty memory is in canonical form. -/
theorem Memory.wf_nil : Memory.wf [] = true := rfl

end Sys2Proof.Machine
end

