-- ==== Sys2Proof/Laws/Host.lean ====
section
/-! SUPPORT. What each shared operation of the engine's partners, of the host and of the whole machine can do, said
once. -/

namespace Sys2Proof.Machine

/-- What holds before internal computation and is kept by each turn of it holds after it. -/
theorem settle_induct {P : State → Prop} (s : State) (h : P s)
    (hcall : ∀ u p rest, P u → u.cont = .call p :: rest →
      P (State.push (unfold u.cfg u.snap u.sc p) { u with cont := rest }))
    (hupd : ∀ u v rest, P u → u.cont = .upd v :: rest → P (State.update v { u with cont := rest })) :
    P (settle s) := by
  suffices ∀ n u, P u → P (settleFor n u) from this _ s h
  intro n
  induction n with
  | zero => intro u hu; exact hu
  | succ n ih =>
    intro u hu
    rcases hc : u.cont with _ | ⟨_ | p | v, rest⟩
    · rw [settleFor_of_atAction _ _ (by simp [hc, atAction])]
      exact hu
    · rw [settleFor_of_atAction _ _ (by simp [hc, atAction])]
      exact hu
    · rw [settleFor_call hc]
      exact ih _ (hcall u p rest hu hc)
    · rw [settleFor_upd hc]
      exact ih _ (hupd u v rest hu hc)

/-- A local read: inside its space it shows one of the byte's values and hands it on, outside it faults (20_memory.md
R61, R79). -/
theorem memRead_cases (sp : Space) (a : Nat) (use : ByteUse) (ans : Answer) (s : State) :
    (a < spaceSize s.cfg sp ∧
      memRead sp a use ans s =
        .next { s with cont := .call (.bits use (localByte s sp a ans) 0) :: s.cont
                       trace := .memRead sp a (localByte s sp a ans) :: s.trace }) ∨
    (spaceSize s.cfg sp ≤ a ∧ memRead sp a use ans s = .fault .localReadOutside) := by
  unfold memRead
  split
  · rename_i h
    exact .inl ⟨h, rfl⟩
  · rename_i h
    exact .inr ⟨Nat.le_of_not_lt h, rfl⟩

/-- What a local read may return: ROM's byte, or any value the RAM byte has held since acceptance (R79). -/
theorem localByte_mem (s : State) (a : Nat) (ans : Answer) : localByte s .ram a ans ∈ ramValues s a := by
  simp only [localByte]
  rw [List.getD_eq_getElem?_getD]
  cases h : (ramValues s a)[ans.older]? with
  | none => simp [ramValues]
  | some b => exact List.mem_of_getElem? h

/-- A ByteStore read: NoData ends the command with INCOMPLETE_STREAM, data moves the cursor and the ByteStore one byte
on (20_memory.md R71, 44_stream_decoder.md R224, R228). -/
theorem bsRead_cases (use : ByteUse) (ans : Answer) (s : State) :
    (noData ans s = true ∧
      bsRead use ans s =
        { s with status := withBusy false (withErr 4 s.status), eng := .idle, cont := []
                 trace := .bsRead none :: s.trace }) ∨
    (noData ans s = false ∧
      bsRead use ans s =
        { s with bsPos := s.bsPos + 1, bsLeft := s.bsLeft - 1, sc := s.sc.consume
                 cont := .call (.bits use (s.remote.read s.bsPos.toNat) 0) :: s.cont
                 trace := .bsRead (some (s.remote.read s.bsPos.toNat)) :: s.trace }) := by
  unfold bsRead
  cases h : noData ans s with
  | true => exact .inl ⟨rfl, rfl⟩
  | false => exact .inr ⟨rfl, rfl⟩

/-- A host write to a register other than CMD touches the live registers and STATUS alone (10_state.md R21). -/
theorem writeReg_frame (off : Offset) (v : Word) (s : State) :
    writeReg off v s = { s with live := (writeReg off v s).live, status := (writeReg off v s).status } := by
  unfold writeReg
  split <;> rfl

/-- A host write to CMD is acceptance or rejection of a word (R22, R35, R36). -/
theorem writeCmd_cases (w : Word) (s : State) :
    (∃ i, decode w = .ok i ∧ writeCmd w s = exec i s) ∨
    (∃ e, decode w = .error e ∧ writeCmd w s = acceptIllegal w s) := by
  unfold writeCmd
  cases h : decode w with
  | ok i => exact .inl ⟨i, rfl, rfl⟩
  | error e => exact .inr ⟨e, rfl, rfl⟩

/-- Every host write to CMD goes on: rejected while BUSY, accepted otherwise. -/
theorem writeCmd_next (w : Word) (s : State) :
    (s.busy = true ∧ writeCmd w s = .next s.reject) ∨
    (s.busy = false ∧ ∃ w' v body, writeCmd w s = .next ((s.latch w').settleVerdict v body)) := by
  cases hb : s.busy with
  | true =>
    refine .inl ⟨rfl, ?_⟩
    rcases writeCmd_cases w s with ⟨i, _, h⟩ | ⟨e, _, h⟩
    · rw [h, exec_busy hb]
    · rw [h]
      exact acceptWord_busy hb
  | false =>
    refine .inr ⟨rfl, ?_⟩
    rcases writeCmd_cases w s with ⟨i, _, h⟩ | ⟨e, _, h⟩
    · rw [h, exec_eq]
      exact ⟨_, _, _, acceptWord_idle hb⟩
    · rw [h]
      exact ⟨_, _, _, acceptWord_idle hb⟩

/-- A host write to RAM: inside it sets the byte, outside it faults (20_memory.md R60, R63). -/
theorem hostRamWrite_cases (a : Word) (b : Byte) (s : State) :
    (a.toNat < s.cfg.ramSize ∧
      hostRamWrite a b s =
        .next { s with
          ram := s.ram.write a.toNat b
          ramOld := if s.busy then (a.toNat, s.ram.read a.toNat) :: s.ramOld else s.ramOld }) ∨
    (s.cfg.ramSize ≤ a.toNat ∧ hostRamWrite a b s = .fault .hostRamOutside) := by
  unfold hostRamWrite
  split
  · rename_i h
    exact .inl ⟨h, rfl⟩
  · rename_i h
    exact .inr ⟨Nat.le_of_not_lt h, rfl⟩

/-- Everything the host's turn can be (30_encoding.md R99, R100). -/
theorem hostTurn_cases (s : State) :
    (s.host = [] ∧ hostTurn s = .next s) ∨
    (∃ off v rest, s.host = .wr off v :: rest ∧ hostTurn s = hostWrite off v { s with host := rest }) ∨
    (∃ off rest, s.host = .rd off :: rest ∧ hostTurn s = .next (hostRead off { s with host := rest })) ∨
    (∃ rest, s.host = .wait :: rest ∧
      hostTurn s = .next (hostRead offStatus { s with host := if s.busy then .wait :: rest else rest })) ∨
    (∃ a b rest, s.host = .ramWrite a b :: rest ∧ hostTurn s = hostRamWrite a b { s with host := rest }) := by
  unfold hostTurn
  rcases h : s.host with _ | ⟨op, rest⟩
  · exact .inl ⟨rfl, rfl⟩
  · cases op with
    | wr off v => exact .inr (.inl ⟨off, v, rest, rfl, rfl⟩)
    | rd off => exact .inr (.inr (.inl ⟨off, rest, rfl, rfl⟩))
    | wait =>
      refine .inr (.inr (.inr (.inl ⟨rest, rfl, ?_⟩)))
      cases s.busy with
      | true =>
        change Host.Outcome.next (hostRead offStatus s) =
          .next (hostRead offStatus { s with host := .wait :: rest })
        rw [← h]
      | false => rfl
    | ramWrite a b => exact .inr (.inr (.inr (.inr ⟨a, b, rest, rfl, rfl⟩)))

/-- A step whose turn is scheduled (10_state.md R38). -/
theorem step_of_world {s : State} {t : Turn} {ts : List Turn} (h : s.world = t :: ts) :
    step s = takeTurn t { s with world := ts } := by
  simp [step, nextTurn, h]

/-- Every step is a turn of the world taken in a state that differs in the schedule alone. -/
theorem step_cases (s : State) :
    ∃ t ts n, step s = takeTurn t { s with world := ts, turnNo := n } := by
  cases h : s.world with
  | nil => exact ⟨Config.freeTurn s.turnNo, s.world, s.turnNo + 1, by simp [step, nextTurn, h]⟩
  | cons t ts => exact ⟨t, ts, s.turnNo, step_of_world h⟩

end Sys2Proof.Machine
end

