-- ==== Sys2Proof/Laws/HostSyntax.lean ====
section
/-! SUPPORT. Laws of the assembler's flag suffixes (30_encoding.md R100). -/

namespace Sys2Proof.Machine

/-- The suffixes that stand for `f`, as R100 writes them. -/
def suffixesOf (f : Flags) : List (List Char) :=
  (if f.bg then [['B', 'G']] else []) ++ (if f.src then [['R', 'O', 'M']] else []) ++
  (if f.aln then [['A', 'L', 'N']] else [])

/-- The suffix taken, if it is, and the suffixes after it are the suffixes given. -/
theorem takeSuffix_append (w : List Char) (sufs : List (List Char)) :
    (if (takeSuffix w sufs).1 then [w] else []) ++ (takeSuffix w sufs).2 = sufs := by
  unfold takeSuffix
  split
  · next h => exact List.cons_head?_tail h
  · rfl

/-- Every set of flags is written in exactly one way (R100, log entry 13). -/
theorem suffixFlags_eq_some_iff (sufs : List (List Char)) (f : Flags) :
    suffixFlags sufs = some f ↔ sufs = suffixesOf f := by
  constructor
  · intro h
    simp only [suffixFlags] at h
    split at h
    · next hnil =>
      injection h with h
      subst h
      have bg := takeSuffix_append ['B', 'G'] sufs
      have rom := takeSuffix_append ['R', 'O', 'M'] (takeSuffix ['B', 'G'] sufs).2
      have aln := takeSuffix_append ['A', 'L', 'N'] (takeSuffix ['R', 'O', 'M'] (takeSuffix ['B', 'G'] sufs).2).2
      rw [hnil, List.append_nil] at aln
      rw [← aln] at rom
      rw [← rom] at bg
      rw [suffixesOf, List.append_assoc]
      exact bg.symm
    · cases h
  · rintro rfl
    obtain ⟨bg, src, aln⟩ := f
    cases bg <;> cases src <;> cases aln <;> decide

end Sys2Proof.Machine
end

