-- ==== Sys2Proof/Laws/PerInstr.lean ====
section
/-! SUPPORT. One statement per instruction: the word of a well-formed command agrees with the command's row of the
pattern table (30_encoding.md R94). -/

namespace Sys2Proof.Laws

/-- The word of the command, if the command is well formed, agrees with its row of R94. -/
def TablePattern.Statement (i : Instr) : Prop :=
  i.wellFormed = true → (patternOf i).selects (encode i) = true

theorem TablePattern.line (f : Flags) : TablePattern.Statement (.line f) := by
  obtain ⟨bg, src, aln⟩ := f
  unfold Statement
  revert bg src aln
  decide

theorem TablePattern.hrun (f : Flags) : TablePattern.Statement (.hrun f) := by
  obtain ⟨bg, src, aln⟩ := f
  unfold Statement
  revert bg src aln
  decide

theorem TablePattern.vrun (f : Flags) : TablePattern.Statement (.vrun f) := by
  obtain ⟨bg, src, aln⟩ := f
  unfold Statement
  revert bg src aln
  decide

theorem TablePattern.rect (f : Flags) : TablePattern.Statement (.rect f) := by
  obtain ⟨bg, src, aln⟩ := f
  unfold Statement
  revert bg src aln
  decide

theorem TablePattern.fillrect (f : Flags) : TablePattern.Statement (.fillrect f) := by
  obtain ⟨bg, src, aln⟩ := f
  unfold Statement
  revert bg src aln
  decide

theorem TablePattern.circle (f : Flags) : TablePattern.Statement (.circle f) := by
  obtain ⟨bg, src, aln⟩ := f
  unfold Statement
  revert bg src aln
  decide

theorem TablePattern.circleh (f : Flags) : TablePattern.Statement (.circleh f) := by
  obtain ⟨bg, src, aln⟩ := f
  unfold Statement
  revert bg src aln
  decide

theorem TablePattern.fillcircle (f : Flags) : TablePattern.Statement (.fillcircle f) := by
  obtain ⟨bg, src, aln⟩ := f
  unfold Statement
  revert bg src aln
  decide

theorem TablePattern.fillcircleh (f : Flags) : TablePattern.Statement (.fillcircleh f) := by
  obtain ⟨bg, src, aln⟩ := f
  unfold Statement
  revert bg src aln
  decide

theorem TablePattern.roundrect (f : Flags) : TablePattern.Statement (.roundrect f) := by
  obtain ⟨bg, src, aln⟩ := f
  unfold Statement
  revert bg src aln
  decide

theorem TablePattern.fillroundrect (f : Flags) : TablePattern.Statement (.fillroundrect f) := by
  obtain ⟨bg, src, aln⟩ := f
  unfold Statement
  revert bg src aln
  decide

theorem TablePattern.triangle (f : Flags) : TablePattern.Statement (.triangle f) := by
  obtain ⟨bg, src, aln⟩ := f
  unfold Statement
  revert bg src aln
  decide

theorem TablePattern.filltriangle (f : Flags) : TablePattern.Statement (.filltriangle f) := by
  obtain ⟨bg, src, aln⟩ := f
  unfold Statement
  revert bg src aln
  decide

theorem TablePattern.blit (f : Flags) : TablePattern.Statement (.blit f) := by
  obtain ⟨bg, src, aln⟩ := f
  unfold Statement
  revert bg src aln
  decide

theorem TablePattern.blitxbm (f : Flags) : TablePattern.Statement (.blitxbm f) := by
  obtain ⟨bg, src, aln⟩ := f
  unfold Statement
  revert bg src aln
  decide

theorem TablePattern.sblit (f : Flags) : TablePattern.Statement (.sblit f) := by
  obtain ⟨bg, src, aln⟩ := f
  unfold Statement
  revert bg src aln
  decide

theorem TablePattern.sglyph (f : Flags) : TablePattern.Statement (.sglyph f) := by
  obtain ⟨bg, src, aln⟩ := f
  unfold Statement
  revert bg src aln
  decide

end Sys2Proof.Laws
end

