-- ==== Sys2Proof/Tests/Slice0.lean ====
section
/-! SUPPORT. Tests. Expected values come from the spec: the encoding tables of 30_encoding.md and the vectors of
95_test_vectors.md (named beside each). The last sections hold a witness for every statement that has hypotheses. -/

namespace Sys2Proof.Tests

open Sys2Proof.Machine

/-! ## Well-formedness: one ill-formed command for each check (R97 step 3), and well-formed neighbours -/

theorem test_wf_bg_refused : (Instr.line { bg := true }).wellFormed = false := by decide
theorem test_wf_src_refused : (Instr.sblit { src := true }).wellFormed = false := by decide
theorem test_wf_aln_refused : (Instr.blit { aln := true }).wellFormed = false := by decide
theorem test_wf_glyph_bg_refused : (Instr.sglyph { bg := true }).wellFormed = false := by decide
theorem test_wf_blit_all : (Instr.blit { bg := true, src := true }).wellFormed = true := by decide
theorem test_wf_sblit_all : (Instr.sblit { bg := true, aln := true }).wellFormed = true := by decide

/-! ## Decoding: words written out bit by bit from R90 and R92 -/

theorem test_decode_line : decode 0b0000000000000001 = .ok (.line {}) := by decide
theorem test_decode_hrun : decode 0b0000000000000010 = .ok (.hrun {}) := by decide
theorem test_decode_vrun : decode 0b0000000000000011 = .ok (.vrun {}) := by decide
theorem test_decode_rect : decode 0b0000000000000100 = .ok (.rect {}) := by decide
theorem test_decode_fillrect : decode 0b0000000000000101 = .ok (.fillrect {}) := by decide
theorem test_decode_circle : decode 0b0000000000000110 = .ok (.circle {}) := by decide
theorem test_decode_circleh : decode 0b0000000000000111 = .ok (.circleh {}) := by decide
theorem test_decode_fillcircle : decode 0b0000000000001000 = .ok (.fillcircle {}) := by decide
theorem test_decode_fillcircleh : decode 0b0000000000001001 = .ok (.fillcircleh {}) := by decide
theorem test_decode_roundrect : decode 0b0000000000001010 = .ok (.roundrect {}) := by decide
theorem test_decode_fillroundrect : decode 0b0000000000001011 = .ok (.fillroundrect {}) := by decide
theorem test_decode_triangle : decode 0b0000000000001100 = .ok (.triangle {}) := by decide
theorem test_decode_filltriangle : decode 0b0000000000001101 = .ok (.filltriangle {}) := by decide
theorem test_decode_blit : decode 0b0000000000010000 = .ok (.blit {}) := by decide
theorem test_decode_blit_bg_rom : decode 0b0000001100010000 = .ok (.blit { bg := true, src := true }) := by decide
theorem test_decode_blitxbm_rom : decode 0b0000001000010001 = .ok (.blitxbm { src := true }) := by decide
theorem test_decode_sblit_aln : decode 0b0000010000010010 = .ok (.sblit { aln := true }) := by decide
theorem test_decode_sglyph_aln : decode 0b0000010000010011 = .ok (.sglyph { aln := true }) := by decide
theorem test_decode_zero_refused : decode 0x0000 = .error .unknownOpcode := by decide
theorem test_decode_reserved_refused : decode 0x0041 = .error .reservedBit := by decide
theorem test_decode_flag_refused : decode 0x0410 = .error .disallowedFlag := by decide
theorem test_decode_table_word : decodeTableWord 16 0x0112 = some (.sblit { bg := true }) := by decide

/-- No two rows of R94 select one word: they differ in a bit both fix. -/
theorem test_patterns_disjoint :
    (operations.map patternOf).Pairwise fun a b => (a.pattern ^^^ b.pattern) &&& a.mask &&& b.mask ≠ 0 := by
  decide

/-! ## Small states -/

/-- An idle machine with these operands, FG = 1, BG = 0. -/
def idle (p0 p1 p2 p3 p4 p5 : Word) : State :=
  { State.reset with live := ⟨0, p0, p1, p2, p3, p4, p5, 1, 0⟩ }

/-- The state an outcome goes on with, or the one given. -/
def after (s : State) : Host.Outcome State Fault Refusal → State
  | .next t => t
  | _ => s

/-- An outcome goes on. -/
def goesOn : Host.Outcome State Fault Refusal → Bool
  | .next _ => true
  | _ => false

theorem next_of_goesOn {o : Host.Outcome State Fault Refusal} (h : goesOn o = true) : ∃ t, o = .next t := by
  cases o with
  | next t => exact ⟨t, rfl⟩
  | fault e => cases h
  | refused e => cases h

/-- The state after the host writes `w` to CMD. -/
def accepted (w : Word) (s : State) : State := after s (hostWrite offCmd w s)

/-- The state after one engine step, the partner answering promptly. -/
def stepped (s : State) : State := after s (engineTurn .ready s)

/-- What the first engine step of the command with word `w` shows. -/
def first (w : Word) (s : State) : List Observed := (stepped (accepted w s)).trace

/-! ## Acceptance (L2-E), one CMD write each -/

theorem test_accept_line : (accepted 0x0001 (idle 0 0 4 2 0 0)).status = 0x0001 := by decide
theorem test_accept_illegal : (accepted 0x0040 (idle 0 0 0 0 0 0)).status = 0x0010 := by decide
theorem test_accept_illegal_cmd_kept : (accepted 0x0040 (idle 0 0 0 0 0 0)).live.cmd = 0x0040 := by decide
theorem test_accept_flag : (accepted 0x0113 (idle 0 0 0 1 1 0)).status = 0x0010 := by decide
theorem test_accept_degenerate_run : (accepted 0x0003 (idle 0 0 0xFFFF 0 0 0)).status = 0x0000 := by decide
theorem test_accept_degenerate_round : (accepted 0x000A (idle 0 0 0x8000 4 0 0)).status = 0x0000 := by decide
theorem test_accept_degenerate_first : (accepted 0x0010 (idle 0 0 0xFFFF 0 5 0)).status = 0x0000 := by decide
theorem test_accept_bad_address : (accepted 0x0010 (idle 0 0 0xFFFF 16 1 0)).status = 0x0020 := by decide
theorem test_accept_fits_exactly : (accepted 0x0010 (idle 0 0 0 2048 256 0)).status = 0x0001 := by decide
theorem test_accept_misaligned : (accepted 0x0412 (idle 0 0 10 8 1 0)).status = 0x0030 := by decide
theorem test_accept_aligned : (accepted 0x0412 (idle 0 0 32 8 1 0)).status = 0x0001 := by decide
theorem test_accept_glyph_degenerate : (accepted 0x0013 (idle 0 0 0 0x0100 1 0)).status = 0x0000 := by decide
/-- L2-E: a CMD write while STATUS = 0x0001 leaves CMD and makes STATUS 0x0003; then writes to STATUS. -/
theorem test_reject : (accepted 0x0001 (accepted 0x0008 (idle 10 10 2 0 0 0))).status = 0x0003 := by decide
theorem test_reject_keeps_cmd : (accepted 0x0001 (accepted 0x0008 (idle 10 10 2 0 0 0))).live.cmd = 0x0008 := by decide
theorem test_rej_cleared : statusWritten 0x0002 0x0002 = 0x0000 := by decide
theorem test_rej_left : statusWritten 0x0000 0x0002 = 0x0002 := by decide
theorem test_config : readReg 0xD State.reset = 0x0110 := by decide

/-! ## One engine step of each command (L2) -/

theorem test_line : first 0x0001 (idle 0 0 (-4) 2 0 0) = [.sink (.plot (-4) 2 1)] := by decide
theorem test_line_steep : first 0x0001 (idle 0 0 0 (-3) 0 0) = [.sink (.plot 0 (-3) 1)] := by decide
/-- L1-1: the tie continues the major axis, so the second PLOT is (1,0). -/
theorem test_line_tie : (stepped (stepped (accepted 0x0001 (idle 0 0 4 2 0 0)))).trace.head? =
    some (.sink (.plot 1 0 1)) := by decide
theorem test_hrun : first 0x0002 (idle 32766 0 4 0 0 0) = [.sink (.hrun 32766 0 4 1)] := by decide
theorem test_vrun : first 0x0003 (idle 1 0 3 0 0 0) = [.sink (.vrun 1 0 3 1)] := by decide
theorem test_rect : first 0x0004 (idle 0 0 4 3 0 0) = [.sink (.hrun 0 0 4 1)] := by decide
theorem test_fillrect : first 0x0005 (idle 1 1 3 2 0 0) = [.sink (.vrun 1 1 2 1)] := by decide
theorem test_circle : first 0x0006 (idle 10 10 (-1) 0 0 0) = [.sink (.plot 10 9 1)] := by decide
theorem test_circleh : first 0x0007 (idle 0 0 3 0xFFF2 0 0) = [.sink (.plot 1 (-3) 1)] := by decide
/-- L2-E: mask 0 takes one internal step that ends the command. -/
theorem test_circleh_no_action : (stepped (accepted 0x0007 (idle 0 0 3 0 0 0))).status = 0x0000 := by decide
theorem test_fillcircle : first 0x0008 (idle 0 0 3 0 0 0) = [.sink (.vrun 0 (-3) 7 1)] := by decide
/-- R154: a negative radius emits nothing, also where `2r + 1` would wrap to a positive length (log entry 20). -/
theorem test_fillcircle_negative : first 0x0008 (idle 0 0 0xB1E0 0 0 0) = [] := by decide
theorem test_fillcircleh : first 0x0009 (idle 0 0 2 3 2 0) = [.sink (.vrun 1 (-2) 7 1)] := by decide
theorem test_roundrect : first 0x000A (idle 0 0 4 4 3 0) = [.sink (.plot 0 2 1)] := by decide
theorem test_fillroundrect : first 0x000B (idle 0 0 4 4 3 0) = [.sink (.vrun 1 0 4 1)] := by decide
theorem test_triangle : first 0x000C (idle 0 0 2 0 0 2) = [.sink (.plot 0 0 1)] := by decide
theorem test_filltriangle_sorts : first 0x000D (idle 0 4 4 0 0 0) = [.sink (.hrun 0 0 5 1)] := by decide
theorem test_filltriangle_row : first 0x000D (idle 5 2 1 2 3 2) = [.sink (.hrun 1 2 5 1)] := by decide
theorem test_blit : first 0x0010 { idle 0 0 0x0100 3 1 0 with ram := [(0x0100, 0xA0)] } =
    [.memRead .ram 0x0100 0xA0] := by decide
/-- L2-B: the pixel after the read; with BG the clear pixel is drawn too. -/
theorem test_blit_pixel : (stepped (stepped (accepted 0x0110 { idle 0 0 0x0100 3 1 0 with
    ram := [(0x0100, 0x40)] }))).trace.head? = some (.sink (.plot 0 0 0)) := by decide
theorem test_blitxbm_pixel : (stepped (stepped (accepted 0x0011 { idle 0 0 0x0100 3 1 0 with
    ram := [(0x0100, 0x04)] }))).trace.head? = some (.sink (.plot 2 0 1)) := by decide
theorem test_sblit : first 0x0012 (idle 0 0 10 16 10 0) = [.bsSeek 0x000A] := by decide
/-- L1-2: the first request is of 6 bytes. -/
theorem test_sblit_request : (stepped (stepped (accepted 0x0012 (idle 0 0 10 16 10 0)))).trace.head? =
    some (.bsRequest 6) := by decide
theorem test_sglyph : first 0x0413 (idle 0 0 0x40 2 1 0) = [.bsSeek 0x0040] := by decide
theorem test_glyph_bit : glyphBit .lsbTop 0x03 1 = true ∧ glyphBit .msbTop 0x03 1 = false := by decide

/-! ## The assembler (R99, R100) -/

/-- R100's example: `LINE 0, 0, 4, 2`. -/
theorem test_assemble_line :
    parseLine ['L', 'I', 'N', 'E', ' ', '0', ',', ' ', '0', ',', ' ', '4', ',', ' ', '2'] =
      some [.wr 0x2 0, .wr 0x3 0, .wr 0x4 4, .wr 0x5 2, .wr 0x0 0x0001] := by decide
theorem test_assemble_negative :
    parseLine ['W', 'R', ' ', 'P', '1', ',', ' ', '-', '1', ' ', ';', ' ', 'x'] = some [.wr 0x3 0xFFFF] := by decide
theorem test_assemble_bad_value : parseLine ['W', 'R', ' ', 'F', 'G', ',', ' ', '6', '5', '5', '3', '6'] = none := by
  decide

/-- L2-B's `BLIT.BG` (0x0110), and R100's order of the suffixes. -/
theorem test_assemble_suffix : parseMnemonic ['B', 'L', 'I', 'T', '.', 'B', 'G', '.', 'R', 'O', 'M'] =
    some (.blit { bg := true, src := true }) := by decide
theorem test_assemble_suffix_order : parseMnemonic ['B', 'L', 'I', 'T', '.', 'R', 'O', 'M', '.', 'B', 'G'] = none := by
  decide

/-! ## Witnesses: each shows a state and operands that meet a statement's hypotheses, clause by clause -/

theorem witness_DecodeAndEncodeAgree :
    (Instr.sblit { bg := true, aln := true }).wellFormed = true ∧
    decode 0x0512 = .ok (.sblit { bg := true, aln := true }) := by decide
theorem witness_MaskAndMatchSelectTheOperation :
    Instr.sblit {} ∈ operations ∧ (patternOf (.sblit {})).selects 0x0512 = true := by decide
/-- A word for each way to use a reserved encoding, at the ends of each range. -/
theorem witness_ReservedEncodingsAreIllegal :
    (idle 0 0 0 0 0 0).busy = false ∧
    ((0x0000 : Word).extractLsb' 0 6).toNat = 0x00 ∧ ((0x000E : Word).extractLsb' 0 6).toNat = 0x0E ∧
    ((0x000F : Word).extractLsb' 0 6).toNat = 0x0F ∧ ((0x0014 : Word).extractLsb' 0 6).toNat = 0x14 ∧
    ((0x003F : Word).extractLsb' 0 6).toNat = 0x3F ∧ (0x0041 : Word).extractLsb' 6 2 ≠ 0 ∧
    (0x0081 : Word).extractLsb' 6 2 ≠ 0 ∧ (0x0801 : Word).extractLsb' 11 5 ≠ 0 ∧
    (0x8001 : Word).extractLsb' 11 5 ≠ 0 ∧
    ∃ o ∈ operations, opcode o = (0x0212 : Word).extractLsb' 0 6 ∧ (flagsOf 0x0212).within o.allows = false := by
  decide
theorem witness_HostReadReturnsTheRegister : { State.reset with host := [.rd 0xD] }.host = .rd 0xD :: [] := by decide
/-- Every clause: STATUS, the first and last writable register, and the read-only and reserved ends. -/
theorem witness_HostWriteChangesOnlyItsRegister :
    ∀ off ∈ [(0x1 : Offset), 0x2, 0x9, 0xA, 0xF], off ≠ offCmd := by decide
theorem witness_CmdWriteWhileBusyIsRejected : (accepted 0x0008 (idle 10 10 2 0 0 0)).busy = true := by decide
theorem witness_AcceptanceTakesTheSnapshot :
    (idle 1 2 3 4 5 6).busy = false ∧
    ∀ off ∈ [(0x2 : Offset), 0x9], 2 ≤ off.toNat ∧ off.toNat ≤ 9 := by decide
theorem witness_AcceptanceClearsTheReport :
    (idle 1 2 3 4 5 6).busy = false ∧ (idle 1 2 3 4 5 6).eng = .idle := by decide
theorem witness_DisallowedFlagIsRefused :
    (idle 0 0 4 2 0 0).busy = false ∧ (Instr.line { bg := true }).wellFormed = false := by decide
/-- Each degenerate form at the end of its range. -/
theorem witness_DegenerateCommandsDoNothing :
    (idle 0 0 0 0 0 0).busy = false ∧ (Instr.sblit { aln := true }).wellFormed = true ∧
    (0 : Word).toInt ≤ 0 ∧ (0x8000 : Word).toInt ≤ 0 ∧ (0x0100 : Word).toNat % 256 = 0 ∧
    (Instr.hrun {}).wellFormed = true ∧ (Instr.roundrect {}).wellFormed = true ∧
    (Instr.sglyph {}).wellFormed = true := by decide
/-- One byte too many, in RAM and in ROM. -/
theorem witness_BlitOutsideItsSpaceIsRefused :
    (idle 0 0 0xFFFF 16 1 0).busy = false ∧ 0 < (idle 0 0 0xFFFF 16 1 0).live.p3.toInt ∧
    0 < (idle 0 0 0xFFFF 16 1 0).live.p4.toInt ∧
    (idle 0 0 0xFFFF 16 1 0).cfg.ramSize < (0xFFFF : Word).toNat + ((16 : Word).toNat + 7) / 8 * (1 : Word).toNat ∧
    (idle 0 0 0xFFFF 16 1 0).cfg.romSize < (0xFFFF : Word).toNat + ((16 : Word).toNat + 7) / 8 * (1 : Word).toNat := by
  decide
theorem witness_MisalignedStreamIsRefused :
    (idle 0 0 10 8 1 0).busy = false ∧
    (idle 0 0 10 8 1 0).live.p2.toNat % (idle 0 0 10 8 1 0).cfg.blockSize.toNat ≠ 0 ∧
    0 < (idle 0 0 10 8 1 0).live.p3.toInt ∧ 0 < (idle 0 0 10 8 1 0).live.p4.toInt ∧
    (idle 0 0 10 8 1 0).live.p3.toNat % 256 ≠ 0 ∧ (idle 0 0 10 8 1 0).live.p4.toNat % 256 ≠ 0 := by decide

/-! Shape commands: an idle state, operands that start the command, and as many answers as it takes. -/

theorem witness_LineEmitsLineCore :
    (idle 0 0 4 2 0 0).busy = false ∧
    (List.replicate 5 Answer.ready).length = max 1 (lineEmission (idle 0 0 4 2 0 0).live).length := by decide
theorem witness_HrunEmitsItsRun :
    (idle 2 5 3 0 0 0).busy = false ∧ 0 < (idle 2 5 3 0 0 0).live.p2.toInt ∧
    [Answer.ready].length = max 1 (hrunEmission .testDefault (idle 2 5 3 0 0 0).live).length := by decide
theorem witness_VrunEmitsItsRun :
    (idle 1 0 3 0 0 0).busy = false ∧ 0 < (idle 1 0 3 0 0 0).live.p2.toInt ∧
    [Answer.ready].length = max 1 (vrunEmission .testDefault (idle 1 0 3 0 0 0).live).length := by decide
theorem witness_RectEmitsItsFourEdges :
    (idle 0 0 4 3 0 0).busy = false ∧ 0 < (idle 0 0 4 3 0 0).live.p2.toInt ∧ 0 < (idle 0 0 4 3 0 0).live.p3.toInt ∧
    (List.replicate 4 Answer.ready).length = max 1 (rectEmission .testDefault (idle 0 0 4 3 0 0).live).length := by
  decide
theorem witness_FillrectEmitsItsColumns :
    (idle 1 1 3 2 0 0).busy = false ∧ 0 < (idle 1 1 3 2 0 0).live.p2.toInt ∧ 0 < (idle 1 1 3 2 0 0).live.p3.toInt ∧
    (List.replicate 3 Answer.ready).length =
      max 1 (fillrectEmission .testDefault (idle 1 1 3 2 0 0).live).length := by decide
/-- L2-C, r = 2: 20 PLOTs. -/
theorem witness_CircleEmitsSeedsAndOctants :
    (idle 0 0 2 0 0 0).busy = false ∧
    (List.replicate 20 Answer.ready).length = max 1 (circleEmission (idle 0 0 2 0 0 0).live).length := by decide
/-- With mask 4, four PLOTs; with mask 0, one internal step. -/
theorem witness_CirclehEmitsSelectedArcs :
    (idle 0 0 3 4 0 0).busy = false ∧
    (List.replicate 4 Answer.ready).length = max 1 (circlehEmission (idle 0 0 3 4 0 0).live).length ∧
    [Answer.ready].length = max 1 (circlehEmission (idle 0 0 3 0 0 0).live).length := by decide
/-- With r = 2, nine runs; with r = -20000, one internal step. -/
theorem witness_FillcircleEmitsItsDisk :
    (idle 0 0 2 0 0 0).busy = false ∧
    (List.replicate 9 Answer.ready).length =
      max 1 (fillcircleEmission .testDefault (idle 0 0 2 0 0 0).live).length ∧
    (idle 0 0 0xB1E0 0 0 0).live.p2.toInt < 0 ∧
    [Answer.ready].length = max 1 (fillcircleEmission .testDefault (idle 0 0 0xB1E0 0 0 0).live).length := by decide
theorem witness_FillcirclehEmitsSelectedStrips :
    (idle 0 0 2 3 2 0).busy = false ∧
    (List.replicate 8 Answer.ready).length =
      max 1 (fillcirclehEmission .testDefault (idle 0 0 2 3 2 0).live).length := by decide
theorem witness_RoundrectEmitsEdgesAndArcs :
    (idle 0 0 10 8 2 0).busy = false ∧ 0 < (idle 0 0 10 8 2 0).live.p2.toInt ∧
    0 < (idle 0 0 10 8 2 0).live.p3.toInt ∧
    (List.replicate 20 Answer.ready).length =
      max 1 (roundrectEmission .testDefault (idle 0 0 10 8 2 0).live).length := by decide
theorem witness_FillroundrectEmitsColumnsAndStrips :
    (idle 0 0 10 8 2 0).busy = false ∧ 0 < (idle 0 0 10 8 2 0).live.p2.toInt ∧
    0 < (idle 0 0 10 8 2 0).live.p3.toInt ∧
    (List.replicate 14 Answer.ready).length =
      max 1 (fillroundrectEmission .testDefault (idle 0 0 10 8 2 0).live).length := by decide
theorem witness_TriangleEmitsThreeLines :
    (idle 0 0 2 0 0 2).busy = false ∧
    (List.replicate 9 Answer.ready).length = max 1 (triangleEmission (idle 0 0 2 0 0 2).live).length := by decide
theorem witness_FilltriangleEmitsItsScanlines :
    (idle 0 0 4 0 0 4).busy = false ∧
    (List.replicate 5 Answer.ready).length =
      max 1 (filltriangleEmission .testDefault (idle 0 0 4 0 0 4).live).length := by decide

/-! Bitmap and stream commands. -/

/-- An idle machine with a 3 by 2 bitmap (L2-B) at 0x0100 of RAM, ROM and the ByteStore. -/
def bitmapReady : State :=
  { idle 0 0 0x0100 3 2 0 with
    ram := [(0x0100, 0xA0), (0x0101, 0x40)]
    rom := [(0x0100, 0xA0), (0x0101, 0x40)]
    remote := [(0x0100, 0xA0), (0x0101, 0x40)] }

theorem witness_BlitDrawsItsBitmap :
    let r := bitmapReady.snapshotFor (encode (.blit { bg := true }))
    bitmapReady.busy = false ∧ blitVerdict bitmapReady.cfg r = .ok ∧
    (List.replicate 8 Answer.ready).length = (blitObserved bitmapReady r.srcSpace r (blitRegs .msb r)).length := by
  decide
theorem witness_BlitxbmDrawsItsBitmap :
    let r := bitmapReady.snapshotFor (encode (.blitxbm { bg := true, src := true }))
    bitmapReady.busy = false ∧ blitVerdict bitmapReady.cfg r = .ok ∧
    (List.replicate 8 Answer.ready).length = (blitObserved bitmapReady r.srcSpace r (blitRegs .lsb r)).length := by
  decide
theorem witness_SblitStreamsItsBitmap :
    let r := bitmapReady.snapshotFor (encode (.sblit { aln := true }))
    bitmapReady.busy = false ∧ bitmapReady.cfg.legal = true ∧ sblitVerdict bitmapReady.cfg r = .ok ∧
    (List.replicate 7 Answer.ready).length = (sblitObserved bitmapReady.cfg bitmapReady.remote r).length ∧
    ∀ a ∈ List.replicate 7 Answer.ready, a.noData = false := by decide
theorem witness_SglyphStreamsItsGlyph :
    let s := { idle 0 0 0x40 2 1 0 with remote := [(0x40, 0x03), (0x41, 0x80)] }
    let r := s.snapshotFor (encode (.sglyph {}))
    s.busy = false ∧ s.cfg.legal = true ∧ sglyphVerdict s.cfg r = .ok ∧
    (List.replicate 20 Answer.ready).length = (sglyphObserved s.cfg s.remote r).length ∧
    ∀ a ∈ List.replicate 20 Answer.ready, a.noData = false := by decide
theorem witness_StreamEndsDoneAfterItsBytes :
    Config.testDefault.legal = true ∧ 1 ≤ 1 ∧ 4096 * 32767 ≤ 4096 * 32767 := by decide
theorem witness_BlitReadsEachByteOnceAscending :
    bitmapReady.busy = false ∧
    blitVerdict bitmapReady.cfg (bitmapReady.snapshotFor (encode (.blit {}))) = .ok ∧
    blitVerdict bitmapReady.cfg (bitmapReady.snapshotFor (encode (.blitxbm {}))) = .ok := by decide
/-- L2-B's all-set bitmap of rows F8 for BLIT, and rows 1F, its mirror image, for BLITXBM; padding bits clear. -/
theorem witness_AllSetBitmapDrawsEveryPixelInFg :
    let s := { idle 0 0 0x0030 5 3 0 with ram := [(0x30, 0xF8), (0x31, 0xF8), (0x32, 0xF8)] }
    let s' := { s with ram := [(0x30, 0x1F), (0x31, 0x1F), (0x32, 0x1F)] }
    let r := s.snapshotFor (encode (.blit {}))
    let r' := s'.snapshotFor (encode (.blitxbm {}))
    s.busy = false ∧ s'.busy = false ∧ blitVerdict s.cfg r = .ok ∧ blitVerdict s'.cfg r' = .ok ∧
    (∀ j, j < r.p4.toNat → ∀ k, k < r.p3.toNat →
      bitmapBit .msb (spaceByte s r.srcSpace (r.p2.toNat + j * byteWidth r.p3 + k / 8)) (k % 8) = true) ∧
    ∀ j, j < r'.p4.toNat → ∀ k, k < r'.p3.toNat →
      bitmapBit .lsb (spaceByte s' r'.srcSpace (r'.p2.toNat + j * byteWidth r'.p3 + k / 8)) (k % 8) = true := by decide
theorem witness_SblitEmitsWhatBlitEmits :
    let r := bitmapReady.snapshotFor (encode (.blit {}))
    bitmapReady.busy = false ∧ bitmapReady.cfg.legal = true ∧ blitVerdict bitmapReady.cfg r = .ok ∧
    sblitVerdict bitmapReady.cfg (bitmapReady.snapshotFor (encode (.sblit { aln := true }))) = .ok ∧
    ∀ m, m < packedBytes r.p3 r.p4 →
      bitmapReady.remote.read (r.p2 + BitVec.ofNat 16 m).toNat =
        spaceByte bitmapReady r.srcSpace (r.p2.toNat + m) := by decide
/-- Both forms, and a stream that ends exactly at 65536. -/
theorem witness_StreamRequestCount :
    (idle 0 0 0xFFFC 2 2 0).busy = false ∧ (idle 0 0 0xFFFC 2 2 0).cfg.legal = true ∧
    sblitVerdict .testDefault (idle 0 0 0xFFFC 8 4 0).live = .ok ∧
    (0xFFFC : Word).toNat + packedBytes 8 4 = 65536 ∧
    sglyphVerdict .testDefault (idle 0 0 0xFFFC 2 2 0).live = .ok ∧
    (0xFFFC : Word).toNat + (idle 0 0 0xFFFC 2 2 0).live.glyphWidth * (idle 0 0 0xFFFC 2 2 0).live.glyphBands =
      65536 := by decide

/-! The engine, the host and the whole machine. -/

/-- A use for a byte, for states whose next action is a fetch. -/
def someUse : ByteUse := .bitmap (sblitRegs (idle 0 0 0x0100 3 2 0).live) 0 0

/-- A running state whose next action is a read of the ByteStore. -/
def readPending : State := { accepted 0x0012 (idle 0 0 0x0100 3 2 0) with cont := [.act (.bsRead someUse)] }

theorem witness_NoDataEndsTheCommand :
    readPending.eng = .exec ∧ readPending.cont = .act (.bsRead someUse) :: [] ∧
    ({ noData := true } : Answer).noData = true ∧ readPending.bsLeft = 0 := by decide
/-- SBLIT's second read, after the first byte's one pixel and its row, and SGLYPH's first. -/
theorem witness_IncompleteStreamReportsProgress :
    bitmapReady.busy = false ∧ bitmapReady.cfg.legal = true ∧
    sblitVerdict bitmapReady.cfg (bitmapReady.snapshotFor (encode (.sblit {}))) = .ok ∧
    sblitObserved bitmapReady.cfg bitmapReady.remote (bitmapReady.snapshotFor (encode (.sblit {}))) =
      [.bsSeek 0x0100, .bsRequest 16, .bsRead (some 0xA0), .sink (.plot 0 0 1), .sink (.plot 2 0 1)] ++
        .bsRead (some 0x40) :: [.sink (.plot 1 1 1)] ∧
    (List.replicate 5 Answer.ready).length =
      [Observed.bsSeek 0x0100, .bsRequest 16, .bsRead (some 0xA0), .sink (.plot 0 0 1), .sink (.plot 2 0 1)].length ∧
    (∀ a ∈ List.replicate 5 Answer.ready, a.noData = false) ∧
    sglyphVerdict .testDefault (idle 0 0 0x40 1 1 0).live = .ok ∧
    (sglyphObserved .testDefault [] (idle 0 0 0x40 1 1 0).live).take 3 =
      [.bsSeek 0x0040, .bsRequest 16] ++ .bsRead (some 0) :: [] := by decide
/-- A running state whose next action reads RAM at its last address, the byte there written once since acceptance. -/
def ramPending : State :=
  { accepted 0x0010 bitmapReady with
    cont := [.act (.memRead .ram 0xFFFF someUse)]
    ram := [(0xFFFF, 2)]
    ramOld := [(0xFFFF, 1)] }
theorem witness_RamReadReturnsAValueHeld :
    ramPending.eng = .exec ∧ ramPending.cont = .act (.memRead .ram 0xFFFF someUse) :: [] ∧
    0xFFFF < ramPending.cfg.ramSize ∧ (1 : Byte) ∈ ramValues ramPending 0xFFFF ∧ ramPending.busy = true ∧
    ramPending.ram.wf = true := by decide
theorem witness_EngineStepIsOneAction : ∃ t, engineTurn .ready readPending = .next t :=
  next_of_goesOn (by decide)
theorem witness_EngineWritesNoMemory : ∃ t, engineTurn .ready ramPending = .next t :=
  next_of_goesOn (by decide)
theorem witness_HostAccessLeavesTheRunningCommand :
    readPending.busy = true ∧
      ∃ t, hostTurn { readPending with host := [.wr 0x0 0x0001] } = .next t :=
  ⟨by decide, next_of_goesOn (by decide)⟩
theorem witness_HostRamWriteSetsOneByte :
    (0xFFFF : Word).toNat < bitmapReady.cfg.ramSize ∧ bitmapReady.ram.wf = true := by decide
theorem witness_WaitPollsStatusUntilIdle : { readPending with host := [.wait] }.host = .wait :: [] := by decide
/-- A command with all six operands. -/
theorem witness_CommandStatementLoadsAndStarts :
    (Instr.triangle {}).wellFormed = true ∧
    expandCommand (.triangle {}) [1, 2, 3, 4, 5, 6] =
      some [.wr 0x2 1, .wr 0x3 2, .wr 0x4 3, .wr 0x5 4, .wr 0x6 5, .wr 0x7 6, .wr 0x0 0x000C] := by decide

/-- An idle state whose next turn is the host's write of LINE's word. -/
def lineNext : State := { idle 0 0 4 2 0 0 with world := [.host], host := [.wr 0x0 0x0001] }

theorem witness_ConfigShowsTheConfiguration : ∃ t, step lineNext = .next t :=
  next_of_goesOn (by decide)
theorem witness_CmdWriteStepRunsTheCommand :
    lineNext.world = .host :: [] ∧ lineNext.host = .wr offCmd 0x0001 :: [] ∧ decode 0x0001 = .ok (.line {}) := by
  decide
theorem witness_StepKeepsConsistent : lineNext.consistent = true ∧ ∃ t, step lineNext = .next t :=
  ⟨by decide, next_of_goesOn (by decide)⟩
theorem witness_ResetIsConsistent : Config.testDefault.legal = true := by decide
/-- A state whose next turn is the engine's, a read pending at the last address of RAM. -/
def pendingTurn : State := { ramPending with world := [.engine .ready] }

theorem witness_LocalReadsStayInside : pendingTurn.readsInside = true ∧ ∃ t, step pendingTurn = .next t :=
  ⟨by decide, next_of_goesOn (o := step pendingTurn) (by decide)⟩

/-! Properties of the emissions, at the ends of their ranges. -/

theorem witness_LineEmitsSpanPlusOne :
    ((32767 : Word).toInt - (0 : Word).toInt).natAbs ≤ 32767 ∧
    ((-1 : Word).toInt - (-32768 : Word).toInt).natAbs ≤ 32767 := by decide
theorem witness_RunExpandsToItsLine :
    { Config.testDefault with sinkRuns := false }.sinkRuns = false ∧ 1 ≤ (4 : Word).toInt ∧
    (32764 : Word).toInt + (4 : Word).toInt - 1 ≤ 32767 := by decide
theorem witness_SinkRunsKeepsThePixels :
    filltriangleEmission ∈ [hrunEmission, vrunEmission, rectEmission, fillrectEmission, fillcircleEmission,
      fillcirclehEmission, roundrectEmission, fillroundrectEmission, filltriangleEmission] := by simp
/-- For r = 5 the loop takes four steps, so the last clause speaks of the steps before 4. -/
theorem witness_MidpointLoopEnds : 4 ≤ (5 : Word).toInt.toNat ∧ (midPairs 5).length = 4 ∧ 0 < 4 := by decide
theorem witness_CircleIsEightfoldSymmetric :
    let r := (idle 10 20 5 0 0 0).live
    .plot (r.p0 + 1) (r.p1 + 5) r.fg ∈ circleEmission r := by decide
theorem witness_FilltriangleNeverDividesByZero :
    let v := sortByY (idle 0 0 3 1 1 5).live.vertices
    v.y0 ≠ v.y2 ∧ 0 < loopCount v.y0.toInt (upperLast v) ∧ 0 < loopCount (upperLast v + 1) v.y2.toInt := by decide
/-- A triangle as wide and as tall as the statement lets it be, at the right edge of the x range. -/
def wideTriangle : Regs := ⟨0, 1, 0x8000, 0x7FFF, 0xFFFF, 20000, 0xFFFB, 1, 0⟩

theorem witness_FilltriangleScansEachLineOnce :
    (∀ x ∈ [wideTriangle.p0, wideTriangle.p2, wideTriangle.p4],
      ∀ x' ∈ [wideTriangle.p0, wideTriangle.p2, wideTriangle.p4], x.toInt - x'.toInt ≤ 32766) ∧
    (sortByY wideTriangle.vertices).y2.toInt - (sortByY wideTriangle.vertices).y0.toInt ≤ 32767 := by
  refine ⟨?_, by decide⟩
  simp only [List.mem_cons, List.not_mem_nil, or_false, forall_eq_or_imp, forall_eq]
  exact ⟨⟨by decide, by decide, by decide⟩, ⟨by decide, by decide, by decide⟩, by decide, by decide, by decide⟩

end Sys2Proof.Tests
end

section
/-! Every step of the machine keeps `State.consistent` (10_state.md R23, R29; 60_exceptions.md R300; 00_scope.md R6).

The invariant is taken apart into named fields (`ConsistentParts`), each update of the state is shown to keep them once,
and the step is followed through the turns of the world. What makes the engine's turn go through: while the engine
executes, the invariant says nothing of the continuation, so the internal computation and the actions may change it
freely; the two ways back to idle, completion and a raised error, both leave it empty with BUSY = 0. -/

namespace Sys2Proof.Machine

/-! STATUS stays legal. -/

/-- The reserved bits of STATUS are those outside BUSY, REJ and ERR (10_state.md R23). -/
theorem reservedBits_congr {st st' : Word}
    (h : ∀ i, i ≠ 0 → i ≠ 1 → ¬(4 ≤ i ∧ i < 8) → st'.getLsbD i = st.getLsbD i) :
    st' &&& 0xFF0C = st &&& 0xFF0C := by
  apply BitVec.eq_of_getLsbD_eq
  intro i hi
  rw [BitVec.getLsbD_and, BitVec.getLsbD_and]
  by_cases hr : i ≠ 0 ∧ i ≠ 1 ∧ ¬(4 ≤ i ∧ i < 8)
  · rw [h i hr.1 hr.2.1 hr.2.2]
  · have hmask : (0xFF0C : Word).getLsbD i = false := by
      have hcases : i = 0 ∨ i = 1 ∨ i = 4 ∨ i = 5 ∨ i = 6 ∨ i = 7 := by omega
      rcases hcases with rfl | rfl | rfl | rfl | rfl | rfl <;> rfl
    rw [hmask, Bool.and_false, Bool.and_false]

/-- A STATUS that differs from a legal one in BUSY, REJ and ERR alone is legal when its ERR is a code of R300. -/
theorem statusLegal_of_reserved {st st' : Word} (hst : statusLegal st = true)
    (hbits : ∀ i, i ≠ 0 → i ≠ 1 → ¬(4 ≤ i ∧ i < 8) → st'.getLsbD i = st.getLsbD i)
    (herr : (errField st').toNat ≤ 4) : statusLegal st' = true := by
  simp only [statusLegal, Bool.and_eq_true, beq_iff_eq, decide_eq_true_eq] at hst ⊢
  exact ⟨(reservedBits_congr hbits).trans hst.1, herr⟩

/-- A legal STATUS has a code of R300 in ERR. -/
theorem errField_le_of_statusLegal {st : Word} (hst : statusLegal st = true) : (errField st).toNat ≤ 4 := by
  simp only [statusLegal, Bool.and_eq_true, decide_eq_true_eq] at hst
  exact hst.2

theorem statusLegal_withBusy {st : Word} (b : Bool) (hst : statusLegal st = true) :
    statusLegal (withBusy b st) = true := by
  refine statusLegal_of_reserved hst (fun i h0 _ _ => ?_) ?_
  · rw [withBusy_getLsbD, if_neg h0]
  · rw [errField_withBusy]
    exact errField_le_of_statusLegal hst

theorem statusLegal_withRej {st : Word} (b : Bool) (hst : statusLegal st = true) :
    statusLegal (withRej b st) = true := by
  refine statusLegal_of_reserved hst (fun i _ h1 _ => ?_) ?_
  · rw [withRej_getLsbD, if_neg h1]
  · rw [errField_withRej]
    exact errField_le_of_statusLegal hst

theorem statusLegal_withErr {st : Word} {e : BitVec 4} (he : e.toNat ≤ 4) (hst : statusLegal st = true) :
    statusLegal (withErr e st) = true := by
  refine statusLegal_of_reserved hst (fun i _ _ h4 => ?_) ?_
  · rw [withErr_getLsbD, if_neg h4]
  · rw [errField_withErr]
    exact he

theorem statusLegal_statusWritten {st : Word} (v : Word) (hst : statusLegal st = true) :
    statusLegal (statusWritten v st) = true := by
  unfold statusWritten
  split
  · exact statusLegal_withRej false hst
  · exact hst

/-- The codes the engine latches are those of R300. -/
theorem ErrCode.code_le (e : ErrCode) : e.code.toNat ≤ 4 := by cases e <;> decide

/-! The invariant by its parts. -/

/-- The parts of `State.consistent`, by name. -/
structure ConsistentParts (s : State) : Prop where
  cfg_legal : s.cfg.legal = true
  status_legal : statusLegal s.status = true
  busy_iff : s.busy = true ↔ s.eng = .exec
  idle_cont : s.eng = .idle → s.cont = []
  memories_legal : memoriesLegal s = true

theorem consistent_iff_parts (s : State) : s.consistent = true ↔ ConsistentParts s := by
  have hbusy : s.busy = (s.eng == .exec) ↔ (s.busy = true ↔ s.eng = .exec) := by
    rw [Bool.eq_iff_iff, beq_iff_eq]
  have hcont : (s.eng = .exec ∨ s.cont = []) ↔ (s.eng = .idle → s.cont = []) := by
    cases s.eng <;> simp
  simp only [State.consistent, Bool.and_eq_true, Bool.or_eq_true, beq_iff_eq, List.isEmpty_iff, hbusy, hcont]
  exact ⟨fun ⟨⟨⟨⟨hcfg, hst⟩, hb⟩, hc⟩, hm⟩ => ⟨hcfg, hst, hb, hc, hm⟩,
    fun ⟨hcfg, hst, hb, hc, hm⟩ => ⟨⟨⟨⟨hcfg, hst⟩, hb⟩, hc⟩, hm⟩⟩

namespace ConsistentParts

variable {s t u : State}

/-- STATUS may change as long as it stays legal and BUSY is kept. -/
theorem set_status (h : ConsistentParts s) {st : Word} (hst : statusLegal st = true)
    (hb : busyBit st = busyBit s.status) : ConsistentParts { s with status := st } where
  cfg_legal := h.cfg_legal
  status_legal := hst
  busy_iff := by
    rw [← h.busy_iff]
    exact Bool.eq_iff_iff.mp hb
  idle_cont := h.idle_cont
  memories_legal := h.memories_legal

/-- While the engine executes, what remains of the command is free. -/
theorem set_cont (h : ConsistentParts s) (he : s.eng = .exec) (c : List Task) :
    ConsistentParts { s with cont := c } :=
  { h with idle_cont := fun hi => absurd (he.symm.trans hi) (by decide) }

/-! The engine's own transitions (10_state.md R35 to R37, 60_exceptions.md R303). -/

theorem complete (h : ConsistentParts s) : ConsistentParts s.complete where
  cfg_legal := h.cfg_legal
  status_legal := statusLegal_withBusy false h.status_legal
  busy_iff := by simp [State.busy]
  idle_cont := fun _ => rfl
  memories_legal := h.memories_legal

theorem start (h : ConsistentParts s) (body : List Task) : ConsistentParts (s.start body) where
  cfg_legal := h.cfg_legal
  status_legal := statusLegal_withBusy true h.status_legal
  busy_iff := by simp [State.busy]
  idle_cont := fun hi => absurd hi (by simp)
  memories_legal := h.memories_legal

theorem latchError (h : ConsistentParts s) (e : ErrCode) : ConsistentParts (s.latchError e) :=
  h.set_status (statusLegal_withErr e.code_le h.status_legal) (busyBit_withErr _ _)

theorem raiseError (h : ConsistentParts s) (e : ErrCode) : ConsistentParts (s.raiseError e) :=
  (h.latchError e).complete

theorem reject (h : ConsistentParts s) : ConsistentParts s.reject :=
  h.set_status (statusLegal_withRej true h.status_legal) (busyBit_withRej _ _)

theorem latch (h : ConsistentParts s) (w : Word) : ConsistentParts (s.latch w) :=
  { h.set_status (statusLegal_withErr (e := 0) (by decide) h.status_legal) (busyBit_withErr _ _) with }

theorem settleVerdict (h : ConsistentParts s) (v : Verdict) (body : List Task) :
    ConsistentParts (s.settleVerdict v body) := by
  rcases settleVerdict_cases v body s with ⟨_, hv⟩ | ⟨_, hv⟩ | ⟨e, hv⟩
  · rw [hv]; exact h.start body
  · rw [hv]; exact h
  · rw [hv]; exact h.latchError e

/-! The engine's turn (R38). -/

theorem settle (h : ConsistentParts s) : ConsistentParts (settle s) := by
  cases he : s.eng with
  | idle =>
    have hc : atAction s.cont = true := by rw [h.idle_cont he]; rfl
    rw [settle_of_atAction hc]
    exact h
  | exec =>
    rw [settle_frame]
    exact { h.set_cont he _ with }

theorem finishAction (h : ConsistentParts s) : ConsistentParts (finishAction s) := by
  rw [finishAction_eq]
  split
  · exact h.settle.complete
  · exact h.settle

theorem perform {a : Action} {ans : Answer} (h : ConsistentParts s) (he : s.eng = .exec)
    (hp : perform a ans s = .next u) : ConsistentParts u := by
  cases a with
  | sink r => cases hp; exact { h with }
  | memRead sp addr use =>
    simp only [Machine.perform] at hp
    rcases memRead_cases sp addr use ans s with ⟨_, hm⟩ | ⟨_, hm⟩
    · rw [hm] at hp
      cases hp
      exact { h.set_cont he _ with }
    · rw [hm] at hp
      cases hp
  | bsSeek => cases hp; exact { h with }
  | bsRequest => cases hp; exact { h with }
  | bsRead use =>
    cases hp
    rcases bsRead_cases use ans s with ⟨_, hb⟩ | ⟨_, hb⟩
    · rw [hb]
      exact { h.raiseError .incompleteStream with }
    · rw [hb]
      exact { h.set_cont he _ with }

theorem engineTurn {ans : Answer} (h : ConsistentParts s) (ht : engineTurn ans s = .next t) : ConsistentParts t := by
  rcases engineTurn_cases ht with ⟨_, rfl⟩ | ⟨_, _, rfl⟩ | ⟨he, a, rest, u, _, hp, rfl⟩
  · exact h
  · exact h.settle.complete
  · have hexec : (Machine.settle s).eng = .exec := by rw [settle_eng, he]
    exact ((h.settle.set_cont hexec rest).perform hexec hp).finishAction

/-! The host's turn (R20 to R25, 20_memory.md R63) and reset (70_reset_and_hazards.md R350). -/

theorem writeCmd {w : Word} (h : ConsistentParts s) (ht : writeCmd w s = .next t) : ConsistentParts t := by
  rcases writeCmd_next w s with ⟨_, hw⟩ | ⟨_, w', v, body, hw⟩
  · cases hw.symm.trans ht
    exact h.reject
  · cases hw.symm.trans ht
    exact (h.latch w').settleVerdict v body

theorem writeReg (h : ConsistentParts s) (off : Offset) (v : Word) : ConsistentParts (writeReg off v s) := by
  unfold Machine.writeReg
  split
  case h_1 => exact h.set_status (statusLegal_statusWritten v h.status_legal) (busyBit_statusWritten _ v)
  all_goals exact { h with }

theorem hostWrite {off : Offset} {v : Word} (h : ConsistentParts s) (ht : hostWrite off v s = .next t) :
    ConsistentParts t := by
  unfold Machine.hostWrite at ht
  split at ht
  · exact h.writeCmd ht
  · cases ht
    exact h.writeReg off v

/-- RAM may change as long as it stays canonical and inside its space. -/
theorem set_ram (h : ConsistentParts s) {m : Memory} (hwf : m.wf = true) (hb : m.below s.cfg.ramSize = true) :
    ConsistentParts { s with ram := m } := by
  refine { h with memories_legal := ?_ }
  have hm := h.memories_legal
  simp only [memoriesLegal, Bool.and_eq_true] at hm ⊢
  obtain ⟨⟨⟨⟨⟨_, _⟩, hrom⟩, hromIn⟩, hremote⟩, hremoteIn⟩ := hm
  exact ⟨⟨⟨⟨⟨hwf, hb⟩, hrom⟩, hromIn⟩, hremote⟩, hremoteIn⟩

theorem ram_legal (h : ConsistentParts s) : s.ram.wf = true ∧ s.ram.below s.cfg.ramSize = true := by
  have hm := h.memories_legal
  simp only [memoriesLegal, Bool.and_eq_true] at hm
  obtain ⟨⟨⟨⟨hram, _⟩, _⟩, _⟩, _⟩ := hm
  exact hram

theorem hostRamWrite {a : Word} {b : Byte} (h : ConsistentParts s) (ht : hostRamWrite a b s = .next t) :
    ConsistentParts t := by
  rcases hostRamWrite_cases a b s with ⟨ha, hw⟩ | ⟨_, hw⟩
  · cases hw.symm.trans ht
    obtain ⟨hwf, hbelow⟩ := h.ram_legal
    exact { h.set_ram (Memory.wf_write a.toNat b hwf) (Memory.below_write b hbelow ha) with }
  · cases hw.symm.trans ht

theorem hostTurn (h : ConsistentParts s) (ht : hostTurn s = .next t) : ConsistentParts t := by
  have hrest : ∀ rest, ConsistentParts { s with host := rest } := fun _ => { h with }
  rcases hostTurn_cases s with ⟨_, hh⟩ | ⟨off, v, rest, _, hh⟩ | ⟨off, rest, _, hh⟩ | ⟨rest, _, hh⟩ |
    ⟨a, b, rest, _, hh⟩
  · cases hh.symm.trans ht
    exact h
  · exact (hrest rest).hostWrite (hh.symm.trans ht)
  · cases hh.symm.trans ht
    exact { h with }
  · cases hh.symm.trans ht
    exact { h with }
  · exact (hrest rest).hostRamWrite (hh.symm.trans ht)

theorem assertReset (h : ConsistentParts s) : ConsistentParts (assertReset s) where
  cfg_legal := h.cfg_legal
  status_legal := show statusLegal 0 = true by decide
  busy_iff := show busyBit 0 = true ↔ Eng.idle = .exec by decide
  idle_cont := fun _ => rfl
  memories_legal := h.memories_legal

theorem takeTurn {turn : Turn} (h : ConsistentParts s) (ht : takeTurn turn s = .next t) : ConsistentParts t := by
  cases turn with
  | host => exact h.hostTurn ht
  | engine ans => exact h.engineTurn ht
  | reset => cases ht; exact h.assertReset

theorem step (h : ConsistentParts s) (ht : step s = .next t) : ConsistentParts t := by
  obtain ⟨turn, ts, n, hs⟩ := step_cases s
  have hsched : ConsistentParts { s with world := ts, turnNo := n } := { h with }
  exact hsched.takeTurn (hs.symm.trans ht)

end ConsistentParts

/-- Settles O51: the parts of the invariant are kept by each turn of the world. -/
theorem stepKeepsConsistent : Obligations.StepKeepsConsistent := by
  intro s t hs ht
  rw [consistent_iff_parts] at hs ⊢
  exact hs.step ht

end Sys2Proof.Machine
end

section
/-! The register window and acceptance (10_state.md R20 to R27, R34 to R36): one law per kind of host access, then the
statements about them. -/

namespace Sys2Proof.Machine

/-! ## The word of a decoded command -/

/-- The opcode and the flags a command is looked up with are its own (30_encoding.md R92). -/
theorem opcode_flags_of_ofOpcode {op : BitVec 6} {f : Flags} {i : Instr} (h : ofOpcode op f = some i) :
    opcode i = op ∧ i.flags = f := by
  unfold ofOpcode at h
  split at h
  case h_18 => cases h
  all_goals
    rename_i hop
    cases h
    exact ⟨BitVec.eq_of_toNat_eq hop.symm, rfl⟩

/-- What a word that decodes is made of: its opcode and flags are the command's, its reserved bits are 0 (R90). -/
theorem fields_of_decode {w : Word} {i : Instr} (h : decode w = .ok i) :
    opcode i = w.extractLsb' 0 6 ∧ i.flags = flagsOf w ∧ reservedSet w = false := by
  unfold decode at h
  split at h
  · cases h
  · rename_i j hj
    obtain ⟨hop, hf⟩ := opcode_flags_of_ofOpcode hj
    cases hr : reservedSet w with
    | true => rw [hr, if_pos rfl] at h; cases h
    | false =>
      rw [hr, if_neg Bool.false_ne_true] at h
      split at h
      · cases h
        exact ⟨hop, hf, rfl⟩
      · cases h

/-- A word is the concatenation of its fields (R90). -/
theorem word_eq_fields (w : Word) :
    w.extractLsb' 11 5 ++ BitVec.ofBool (w.getLsbD 10) ++ BitVec.ofBool (w.getLsbD 9) ++
      BitVec.ofBool (w.getLsbD 8) ++ w.extractLsb' 6 2 ++ w.extractLsb' 0 6 = w := by
  apply BitVec.eq_of_getLsbD_eq
  intro n hn
  simp only [BitVec.getLsbD_append, BitVec.getLsbD_extractLsb', BitVec.getLsbD_ofBool]
  interval_cases n <;> simp

/-- A word that decodes is the word of its command: no bit of it is lost (R91, R97). -/
theorem encode_of_decode {w : Word} {i : Instr} (h : decode w = .ok i) : encode i = w := by
  obtain ⟨hop, hflags, hres⟩ := fields_of_decode h
  have hzero : w.extractLsb' 6 2 = 0 ∧ w.extractLsb' 11 5 = 0 := by simpa [reservedSet] using hres
  conv_rhs => rw [← word_eq_fields w, hzero.1, hzero.2, ← hop]
  rw [encode, hflags]
  rfl

/-! ## Writes to CMD -/

theorem hostWrite_cmd (w : Word) (s : State) : hostWrite offCmd w s = writeCmd w s := if_pos rfl

theorem hostWrite_of_ne_cmd {off : Offset} (h : off ≠ offCmd) (v : Word) (s : State) :
    hostWrite off v s = .next (writeReg off v s) := if_neg h

/-- A CMD write while BUSY is a rejection, whatever the word (R36). -/
theorem writeCmd_busy {s : State} (w : Word) (h : s.busy = true) : writeCmd w s = .next s.reject := by
  rcases writeCmd_next w s with ⟨_, hw⟩ | ⟨hidle, _⟩
  · exact hw
  · cases h.symm.trans hidle

/-- A CMD write while idle accepts the very word written, a command's or not (R35). -/
theorem writeCmd_idle {s : State} (w : Word) (h : s.busy = false) :
    ∃ verdict body, writeCmd w s = .next ((s.latch w).settleVerdict verdict body) := by
  rcases writeCmd_cases w s with ⟨i, hi, hw⟩ | ⟨_, _, hw⟩
  · rw [hw, exec_eq, acceptCommand, encode_of_decode hi]
    exact ⟨_, _, acceptWord_idle h⟩
  · rw [hw]
    exact ⟨_, _, acceptWord_idle h⟩

/-- A verdict decides STATUS, `ENG` and the continuation, and nothing else (R35). -/
theorem settleVerdict_frame (v : Verdict) (body : List Task) (s : State) :
    s.settleVerdict v body =
      { s with status := (s.settleVerdict v body).status, eng := (s.settleVerdict v body).eng,
               cont := (s.settleVerdict v body).cont } := by
  cases v <;> rfl

/-- What a verdict on an idle engine makes of STATUS and `ENG`: REJ is kept, BUSY rises exactly with EXEC, and an error
code is latched only when it does not rise (R29, R35). -/
theorem settleVerdict_report {s : State} (v : Verdict) (body : List Task) (hb : s.busy = false) (he : s.eng = .idle) :
    (s.settleVerdict v body).rej = s.rej ∧
      ((s.settleVerdict v body).busy = true ↔ (s.settleVerdict v body).eng = .exec) ∧
      ((s.settleVerdict v body).busy = true → (s.settleVerdict v body).err = s.err) := by
  have hb' : busyBit s.status = false := hb
  rcases settleVerdict_cases v body s with ⟨_, hv⟩ | ⟨_, hv⟩ | ⟨e, hv⟩
  · rw [hv]; simp [State.rej, State.busy, State.err]
  · rw [hv]; simp [State.busy, hb', he]
  · rw [hv]; simp [State.rej, State.busy, hb', he]

/-! ## Writes to the other registers -/

/-- A write to an operand or colour register touches the live registers alone (R24, R25). -/
theorem writeReg_operand_frame {off : Offset} (v : Word) (s : State) (h : 2 ≤ off.toNat) :
    writeReg off v s = { s with live := (writeReg off v s).live } := by
  unfold writeReg
  split
  case h_1 hoff => omega
  all_goals rfl

/-- A write to CMD's offset by this path, or to a read-only or reserved offset, changes nothing (R21). -/
theorem writeReg_of_not_writable {off : Offset} (v : Word) (s : State) (h : off.toNat = 0 ∨ 9 < off.toNat) :
    writeReg off v s = s := by
  unfold writeReg
  split
  case h_10 => rfl
  all_goals omega

/-- An operand or colour register shows what was written to it. -/
theorem readReg_writeReg_operand {off : Offset} (v : Word) (s : State) (h2 : 2 ≤ off.toNat) (h9 : off.toNat ≤ 9) :
    readReg off (writeReg off v s) = v := by
  have hoff : off.toNat = 2 ∨ off.toNat = 3 ∨ off.toNat = 4 ∨ off.toNat = 5 ∨ off.toNat = 6 ∨
      off.toNat = 7 ∨ off.toNat = 8 ∨ off.toNat = 9 := by omega
  rcases hoff with h | h | h | h | h | h | h | h <;> simp [readReg, writeReg, h]

/-- STATUS shows what R23 makes of the word written to it. -/
theorem readReg_writeReg_status (v : Word) (s : State) :
    readReg offStatus (writeReg offStatus v s) = statusWritten v s.status := rfl

/-- Every other register shows what it showed. -/
theorem readReg_writeReg_of_ne {o off : Offset} (v : Word) (s : State) (h : o ≠ off) :
    readReg o (writeReg off v s) = readReg o s := by
  have hn : o.toNat ≠ off.toNat := fun he => h (BitVec.eq_of_toNat_eq he)
  unfold writeReg
  split
  case h_10 => rfl
  all_goals
    rename_i hoff
    rw [hoff] at hn
    unfold readReg
    split <;> trivial

/-! ## The statements -/

/-- Settles O5: the host's turn records the value and drops the access; each offset's value is the definition's. -/
theorem hostReadReturnsTheRegister : Obligations.HostReadReturnsTheRegister := by
  intro s off rest hhost
  have hturn : hostTurn s = .next { s with host := rest, trace := .hostRead off (readReg off s) :: s.trace } := by
    unfold hostTurn
    rw [hhost]
    rfl
  have hdone : (s.bdone.extractLsb' 16 16 ++ s.bdone.extractLsb' 0 16 : Word32) = s.bdone :=
    (BitVec.extractLsb'_append_extractLsb'_eq_extractLsb' rfl).trans BitVec.extractLsb'_eq_self
  exact ⟨hturn, rfl, rfl, rfl, rfl, rfl, rfl, rfl, rfl, rfl, rfl, hdone, rfl, rfl, rfl, rfl⟩

/-- Settles O6: the register written shows the new value or what R23 makes of it, every other register what it
showed. -/
theorem hostWriteChangesOnlyItsRegister : Obligations.HostWriteChangesOnlyItsRegister := by
  intro s off v hcmd
  refine ⟨writeReg off v s, hostWrite_of_ne_cmd hcmd v s, writeReg_frame off v s, fun o => ?_⟩
  have hpos : off.toNat ≠ 0 := fun h0 => hcmd (BitVec.eq_of_toNat_eq h0)
  by_cases ho : o = off
  · subst ho
    by_cases hop : 2 ≤ o.toNat ∧ o.toNat ≤ 9
    · rw [if_pos ⟨rfl, hop⟩, readReg_writeReg_operand v s hop.1 hop.2]
    · rw [if_neg fun h => hop h.2]
      by_cases hst : o = offStatus
      · subst hst
        rw [if_pos ⟨rfl, rfl⟩, readReg_writeReg_status]
      · have hne : o.toNat ≠ 1 := fun h1 => hst (BitVec.eq_of_toNat_eq h1)
        rw [if_neg fun h => hst h.2, writeReg_of_not_writable v s (by omega)]
  · rw [if_neg fun h => ho h.1, if_neg fun h => ho h.1, readReg_writeReg_of_ne v s ho]

/-- Settles O7: bit 1 by the two cases of R23, the others by `statusWritten_getLsbD_of_ne`. -/
theorem statusWriteChangesOnlyRej : Obligations.StatusWriteChangesOnlyRej := by
  intro v st n
  split
  · rename_i h1
    subst h1
    unfold statusWritten
    cases hv : v.getLsbD 1 with
    | true => rw [if_pos rfl, withRej_getLsbD, if_pos rfl, Bool.not_true, Bool.and_false]
    | false => rw [if_neg Bool.false_ne_true, Bool.not_false, Bool.and_true]
  · rename_i h1
    exact statusWritten_getLsbD_of_ne st v n h1

/-- Settles O8: rejection sets REJ in STATUS and touches nothing else. -/
theorem cmdWriteWhileBusyIsRejected : Obligations.CmdWriteWhileBusyIsRejected := by
  intro s w hb
  refine ⟨withRej true s.status, ?_, withRej_getLsbD s.status true⟩
  rw [hostWrite_cmd, writeCmd_busy w hb]
  rfl

/-- Settles O9: the verdict leaves the snapshot that `latch` took; a later write reaches the live registers alone. -/
theorem acceptanceTakesTheSnapshot : Obligations.AcceptanceTakesTheSnapshot := by
  refine ⟨fun s w hb => ?_, fun s off v h2 h9 => ?_⟩
  · obtain ⟨verdict, body, hw⟩ := writeCmd_idle w hb
    refine ⟨_, (hostWrite_cmd w s).trans hw, ?_, ?_⟩
    · rw [settleVerdict_frame, State.latch_snap]
    · rw [settleVerdict_frame, State.latch_live]
  · have hcmd : off ≠ offCmd := by
      rintro rfl
      exact absurd h2 (by decide)
    exact ⟨_, hostWrite_of_ne_cmd hcmd v s, readReg_writeReg_operand v s h2 h9, writeReg_operand_frame v s h2⟩

/-- Settles O10: `latch` stores and clears, and the verdict then decides STATUS, `ENG` and the continuation alone. -/
theorem acceptanceClearsTheReport : Obligations.AcceptanceClearsTheReport := by
  intro s w hb he
  obtain ⟨verdict, body, hw⟩ := writeCmd_idle w hb
  have hlatch : (s.latch w).busy = false := (busyBit_withErr s.status 0).trans hb
  have hrejLatch : (s.latch w).rej = s.rej := rejBit_withErr s.status 0
  have herrLatch : (s.latch w).err = 0 := errField_withErr s.status 0
  obtain ⟨hrej, hbusy, herr⟩ := settleVerdict_report verdict body hlatch he
  have hframe := settleVerdict_frame verdict body (s.latch w)
  refine ⟨_, (hostWrite_cmd w s).trans hw, ?_, ?_, ?_, hrej.trans hrejLatch, ?_, hbusy,
    fun h => (herr h).trans herrLatch, ?_⟩
  all_goals
    rw [hframe]
    rfl

end Sys2Proof.Machine
end

section
/-! What a step of the whole machine shows, keeps and does not read (10_state.md R27, R33, R38, R39): the law of each
action and each turn, then the statements about them. -/

namespace Sys2Proof.Machine

variable {s t u : State}

/-! ## What an action shows and keeps -/

/-- An action that goes on shows exactly one thing, and touches nothing but the cursor, the ByteStore's place, what
remains of the command, and, when it ends the command, STATUS and `ENG` (00_scope.md R12, R18). -/
theorem perform_frame {a : Action} {ans : Answer} (h : perform a ans s = .next u) :
    ∃ o, u = { s with status := u.status, eng := u.eng, sc := u.sc, cont := u.cont, bsPos := u.bsPos,
                      bsLeft := u.bsLeft, trace := o :: s.trace } := by
  cases a with
  | sink r => cases h; exact ⟨_, rfl⟩
  | memRead sp addr use =>
    simp only [perform] at h
    rcases memRead_cases sp addr use ans s with ⟨_, hm⟩ | ⟨_, hm⟩
    · cases hm.symm.trans h
      exact ⟨_, rfl⟩
    · cases hm.symm.trans h
  | bsSeek => cases h; exact ⟨_, rfl⟩
  | bsRequest => cases h; exact ⟨_, rfl⟩
  | bsRead use =>
    cases h
    rcases bsRead_cases use ans s with ⟨_, hb⟩ | ⟨_, hb⟩
    · rw [hb]
      exact ⟨_, rfl⟩
    · rw [hb]
      exact ⟨_, rfl⟩

/-- What follows an action within its step shows nothing: it touches what remains of the command, the counters and the
cursor, and, at completion, STATUS and `ENG` (R37, R38). -/
theorem finishAction_frame (u : State) :
    finishAction u =
      { u with status := (finishAction u).status, eng := (finishAction u).eng, cont := (finishAction u).cont,
               bdone := (finishAction u).bdone, rdone := (finishAction u).rdone, sc := (finishAction u).sc } := by
  rw [finishAction_eq]
  split
  · simp [State.complete]
  · conv_lhs => rw [settle_frame u]
    simp

/-- Settles O40: of the three forms of an engine step only the one that performs an action shows anything, and a pending
action rules the other two out. -/
theorem engineStepIsOneAction : Obligations.EngineStepIsOneAction := by
  intro s t ans h
  rcases engineTurn_cases h with ⟨he, rfl⟩ | ⟨_, hc, rfl⟩ | ⟨_, a, rest, u, _, hp, rfl⟩
  · exact ⟨.inl rfl, fun _ _ hexec _ => absurd (he.symm.trans hexec) (by decide)⟩
  · refine ⟨.inl (settle_trace s), fun act rest _ hact => ?_⟩
    rw [settle_of_atAction (by rw [hact]; rfl), hact] at hc
    cases hc
  · obtain ⟨o, ho⟩ := perform_frame hp
    have hone : (finishAction u).trace = o :: s.trace := by
      rw [finishAction_frame, ho]
      exact congrArg (o :: ·) (settle_trace s)
    exact ⟨.inr ⟨o, hone⟩, fun _ _ _ _ => ⟨o, hone⟩⟩

/-! ## The host's turn -/

/-- What of a running command a host access must leave as it is (R39): BUSY and ERR of STATUS, the execution state, the
report, the cursor, and the memories and partners the host does not write. -/
structure KeepsCommand (s t : State) : Prop where
  busy : t.busy = s.busy
  err : t.err = s.err
  rest : t = { s with live := t.live, status := t.status, ram := t.ram, ramOld := t.ramOld, host := t.host,
                      trace := t.trace }

namespace KeepsCommand

theorem writeReg (off : Offset) (v : Word) (s : State) : KeepsCommand s (writeReg off v s) := by
  have hstatus : (Machine.writeReg off v s).status = s.status ∨
      (Machine.writeReg off v s).status = statusWritten v s.status := by
    unfold Machine.writeReg
    split
    case h_1 => exact .inr rfl
    all_goals exact .inl rfl
  have hframe := writeReg_frame off v s
  refine ⟨?_, ?_, ?_⟩
  · rcases hstatus with h | h <;> simp [State.busy, h]
  · rcases hstatus with h | h <;> simp [State.err, h]
  · rw [hframe]

/-- A CMD write while BUSY is rejected, so it leaves the command alone (R36). -/
theorem hostWrite {off : Offset} {v : Word} (hb : s.busy = true) (h : hostWrite off v s = .next t) :
    KeepsCommand s t := by
  by_cases hoff : off = offCmd
  · subst hoff
    rw [hostWrite_cmd, writeCmd_busy v hb] at h
    cases h
    exact ⟨busyBit_withRej s.status true, errField_withRej s.status true, rfl⟩
  · rw [hostWrite_of_ne_cmd hoff] at h
    cases h
    exact .writeReg off v s

theorem hostRamWrite {a : Word} {b : Byte} (h : hostRamWrite a b s = .next t) : KeepsCommand s t := by
  rcases hostRamWrite_cases a b s with ⟨_, hw⟩ | ⟨_, hw⟩
  · cases hw.symm.trans h
    exact ⟨rfl, rfl, rfl⟩
  · cases hw.symm.trans h

/-- The host's program is no part of the command. -/
theorem of_host (ops : List HostOp) (h : KeepsCommand { s with host := ops } t) : KeepsCommand s t :=
  ⟨h.busy, h.err, h.rest⟩

theorem hostTurn (hb : s.busy = true) (h : hostTurn s = .next t) : KeepsCommand s t := by
  rcases hostTurn_cases s with ⟨_, hh⟩ | ⟨off, v, rest, _, hh⟩ | ⟨off, rest, _, hh⟩ | ⟨rest, _, hh⟩ |
    ⟨a, b, rest, _, hh⟩
  · cases hh.symm.trans h
    exact ⟨rfl, rfl, rfl⟩
  · exact of_host rest (hostWrite hb (hh.symm.trans h))
  · cases hh.symm.trans h
    exact ⟨rfl, rfl, rfl⟩
  · cases hh.symm.trans h
    exact ⟨rfl, rfl, rfl⟩
  · exact of_host rest (hostRamWrite (hh.symm.trans h))

end KeepsCommand

/-- Settles O43: every kind of host access keeps the running command. -/
theorem hostAccessLeavesTheRunningCommand : Obligations.HostAccessLeavesTheRunningCommand := by
  intro s t hb h
  obtain ⟨hbusy, herr, hrest⟩ := KeepsCommand.hostTurn hb h
  refine ⟨hbusy.trans hb, ?_, ?_, ?_, ?_, herr, ?_, ?_, ?_, ?_, ?_, ?_, ?_⟩
  all_goals rw [hrest]

/-! ## The configuration -/

theorem engineTurn_cfg {ans : Answer} (h : engineTurn ans s = .next t) : t.cfg = s.cfg := by
  rcases engineTurn_cases h with ⟨_, rfl⟩ | ⟨_, _, rfl⟩ | ⟨_, a, rest, u, _, hp, rfl⟩
  · rfl
  · exact settle_cfg s
  · obtain ⟨o, ho⟩ := perform_frame hp
    rw [finishAction_frame, ho]
    exact settle_cfg s

theorem hostWrite_cfg {off : Offset} {v : Word} (h : hostWrite off v s = .next t) : t.cfg = s.cfg := by
  by_cases hoff : off = offCmd
  · subst hoff
    rw [hostWrite_cmd] at h
    rcases writeCmd_next v s with ⟨_, hw⟩ | ⟨_, w, verdict, body, hw⟩
    · cases hw.symm.trans h
      rfl
    · cases hw.symm.trans h
      rw [settleVerdict_frame, State.latch_cfg]
  · rw [hostWrite_of_ne_cmd hoff] at h
    cases h
    rw [writeReg_frame]

theorem hostTurn_cfg (h : hostTurn s = .next t) : t.cfg = s.cfg := by
  rcases hostTurn_cases s with ⟨_, hh⟩ | ⟨off, v, rest, _, hh⟩ | ⟨off, rest, _, hh⟩ | ⟨rest, _, hh⟩ |
    ⟨a, b, rest, _, hh⟩
  · cases hh.symm.trans h
    rfl
  · exact (hostWrite_cfg (hh.symm.trans h) :)
  · cases hh.symm.trans h
    rfl
  · cases hh.symm.trans h
    rfl
  · rw [(KeepsCommand.hostRamWrite (hh.symm.trans h)).rest]

/-- No step changes the configuration (R27, 00_scope.md R6). -/
theorem step_cfg (h : step s = .next t) : t.cfg = s.cfg := by
  obtain ⟨turn, ts, n, hs⟩ := step_cases s
  have ht := hs.symm.trans h
  cases turn with
  | host => exact (hostTurn_cfg ht :)
  | engine ans => exact (engineTurn_cfg ht :)
  | reset => cases ht; rfl

/-- CONFIG bit by bit (R27). -/
theorem configWord_getLsbD (c : Config) (n : Nat) :
    (configWord c).getLsbD n =
      if n < 8 then c.blockSize.getLsbD n
      else if n = 8 then c.sinkRuns else decide (n = 9) && c.glyphOrder == .msbTop := by
  by_cases hn : n < 16
  · simp only [configWord, BitVec.getLsbD_append, BitVec.getLsbD_ofBool]
    interval_cases n <;> simp
  · rw [BitVec.getLsbD_of_ge _ _ (by omega), if_neg (by omega), if_neg (by omega), decide_eq_false (by omega),
      Bool.false_and]

/-- The fields of CONFIG are the configuration's, and its high bits are 0 (R27). -/
theorem configWord_fields (c : Config) :
    (configWord c).extractLsb' 0 8 = c.blockSize ∧ (configWord c).getLsbD 8 = c.sinkRuns ∧
      ((configWord c).getLsbD 9 = true ↔ c.glyphOrder = .msbTop) ∧ (configWord c).extractLsb' 10 6 = 0 := by
  refine ⟨?_, ?_, ?_, ?_⟩
  · apply BitVec.eq_of_getLsbD_eq
    intro n hn
    simp [configWord_getLsbD, hn]
  · rw [configWord_getLsbD, if_neg (by decide), if_pos rfl]
  · rw [configWord_getLsbD, if_neg (by decide), if_neg (by decide)]
    simp
  · apply BitVec.eq_of_getLsbD_eq
    intro n hn
    have h8 : ¬10 + n < 8 := by omega
    have h9 : 10 + n ≠ 8 ∧ 10 + n ≠ 9 := by omega
    simp [configWord_getLsbD, h8, h9]

/-- Settles O47: the value is `configWord` of the configuration, which names no memory size and which every step
keeps. -/
theorem configShowsTheConfiguration : Obligations.ConfigShowsTheConfiguration := by
  refine ⟨fun s => configWord_fields s.cfg, fun s m n off => ?_, fun s t h => ?_⟩
  · rfl
  · exact congrArg configWord (step_cfg h)

/-! ## The schedule -/

/-- The outcome with its next state changed. -/
def mapNext (f : State → State) : Host.Outcome State Fault Refusal → Host.Outcome State Fault Refusal
  | .next s => .next (f s)
  | .fault e => .fault e
  | .refused e => .refused e

/-- The state with other live registers and another schedule: what no engine step reads (R34, 20_memory.md R83). -/
def State.mapUnread (f : Regs → Regs) (g : List Turn → List Turn) (s : State) : State :=
  { s with live := f s.live, world := g s.world }

section Unread

variable (f : Regs → Regs) (g : List Turn → List Turn)

theorem settleFor_mapUnread (n : Nat) (s : State) :
    settleFor n (s.mapUnread f g) = (settleFor n s).mapUnread f g := by
  induction n generalizing s with
  | zero => rfl
  | succ n ih =>
    rcases hc : s.cont with _ | ⟨_ | p | v, rest⟩
    · rw [settleFor_of_atAction _ s (by rw [hc]; rfl)]
      exact settleFor_of_atAction _ _ (by show atAction s.cont = true; rw [hc]; rfl)
    · rw [settleFor_of_atAction _ s (by rw [hc]; rfl)]
      exact settleFor_of_atAction _ _ (by show atAction s.cont = true; rw [hc]; rfl)
    · rw [settleFor_call hc, settleFor_call (s := s.mapUnread f g) hc, ← ih]
      rfl
    · rw [settleFor_upd hc, settleFor_upd (s := s.mapUnread f g) hc, ← ih]
      cases v <;> rfl

theorem settle_mapUnread (s : State) : settle (s.mapUnread f g) = (settle s).mapUnread f g :=
  settleFor_mapUnread f g _ s

theorem finishAction_mapUnread (s : State) : finishAction (s.mapUnread f g) = (finishAction s).mapUnread f g := by
  rw [finishAction_eq, finishAction_eq, settle_mapUnread]
  change (if (settle s).cont = [] then _ else _) = _
  split <;> rfl

theorem perform_mapUnread (a : Action) (ans : Answer) (s : State) :
    perform a ans (s.mapUnread f g) = mapNext (State.mapUnread f g) (perform a ans s) := by
  cases a with
  | sink r => rfl
  | memRead sp addr use =>
    simp only [perform]
    rcases memRead_cases sp addr use ans s with ⟨h, hm⟩ | ⟨h, hm⟩
    · rw [hm]
      exact if_pos h
    · rw [hm]
      exact if_neg (Nat.not_lt.mpr h)
  | bsSeek => rfl
  | bsRequest => rfl
  | bsRead use =>
    simp only [perform, mapNext]
    rcases bsRead_cases use ans s with ⟨h, hb⟩ | ⟨h, hb⟩
    · rw [hb]
      exact congrArg Host.Outcome.next (if_pos h)
    · rw [hb]
      exact congrArg Host.Outcome.next (if_neg (ne_true_of_eq_false h))

/-- A command whose internal computation meets no action ends in that step (R37). -/
theorem engineTurn_end {s : State} (ans : Answer) (he : s.eng = .exec) (hc : (settle s).cont = []) :
    engineTurn ans s = .next (settle s).complete := by
  unfold engineTurn
  rw [he]
  simp only [hc]

/-- An engine step reads neither the live registers nor the schedule, and passes both on. -/
theorem engineTurn_mapUnread (ans : Answer) (s : State) :
    engineTurn ans (s.mapUnread f g) = mapNext (State.mapUnread f g) (engineTurn ans s) := by
  cases he : s.eng with
  | idle => rw [engineTurn_idle ans he, engineTurn_idle ans (s := s.mapUnread f g) he]; rfl
  | exec =>
    have hset := settle_mapUnread f g s
    rcases hc : (settle s).cont with _ | ⟨a | p | v, rest⟩
    · rw [engineTurn_end ans he hc, engineTurn_end (s := s.mapUnread f g) ans he (by rw [hset]; exact hc), hset]
      rfl
    · rw [← engineTurn_settle ans he, ← engineTurn_settle (s := s.mapUnread f g) ans he, hset,
        engineTurn_act (s := settle s) ans ((settle_eng s).trans he) hc,
        engineTurn_act (s := (settle s).mapUnread f g) ans ((settle_eng s).trans he) hc]
      have hp := perform_mapUnread f g a ans { settle s with cont := rest }
      simp only [State.mapUnread] at hp ⊢
      rw [hp]
      cases perform a ans { settle s with cont := rest } with
      | next u => exact congrArg Host.Outcome.next (finishAction_mapUnread f g u)
      | fault e => rfl
      | refused e => rfl
    all_goals
      have hat := settle_atAction s
      rw [hc] at hat
      cases hat

end Unread

/-- A scheduled engine turn is the engine's step, with the turn taken from the schedule. -/
theorem step_engine {ans : Answer} {ts : List Turn} (h : s.world = .engine ans :: ts) :
    step s = engineTurn ans { s with world := ts } := step_of_world h

/-- Settles O50, by induction on the answers: each turn is the engine's step, which neither reads the schedule nor
changes it. -/
theorem scheduledEngineTurnsAreSteps : Obligations.ScheduledEngineTurnsAreSteps := by
  intro as
  induction as with
  | nil => intro s ts; rfl
  | cons a as ih =>
    intro s ts
    have hturn : ∀ w, engineTurn a { s with world := w } =
        mapNext (fun u => { u with world := w }) (engineTurn a s) :=
      fun w => engineTurn_mapUnread id (fun _ => w) a s
    have hstep : Sys2Proof.core.step { s with world := (a :: as).map .engine ++ ts } =
        mapNext (fun u => { u with world := as.map .engine ++ ts }) (engineTurn a s) :=
      (step_engine (s := { s with world := (a :: as).map .engine ++ ts }) rfl).trans (hturn _)
    simp only [List.length_cons, Host.Core.run, engineRun]
    rw [hstep, hturn ts]
    cases engineTurn a s with
    | next t => exact ih t ts
    | fault e => rfl
    | refused e => rfl

/-- Settles O49: the scheduled turn is the host's, its access is the write, and the word decodes to the command. -/
theorem cmdWriteStepRunsTheCommand : Obligations.CmdWriteStepRunsTheCommand := by
  intro s w i rest ts hworld hhost hdec
  calc step s = hostTurn { s with world := ts } := step_of_world hworld
    _ = hostWrite offCmd w { s with host := rest, world := ts } := by rw [hostTurn, hhost]
    _ = exec i { s with host := rest, world := ts } := by rw [hostWrite_cmd, writeCmd, hdec]

end Sys2Proof.Machine
end

section
/-! No step reads local memory outside its space (20_memory.md R61, 43_bitmap_blitter.md R201).

The invariant speaks of tasks: a pending read is at an address its space has, and a pending bitmap lies in its space as a
whole. Each turn of internal computation keeps it, so a read that becomes the next action is inside; acceptance starts a
bitmap only when `Validate` found it inside. -/

namespace Sys2Proof.Machine

/-! ## The tasks of the command pseudocode -/

theorem readsInside_iff (s : State) : s.readsInside = true ↔ s.cont.all (taskInside s.cfg) = true := Iff.rfl

theorem append_inside {cfg : Config} {ts us : List Task} (ht : ts.all (taskInside cfg) = true)
    (hu : us.all (taskInside cfg) = true) : (ts ++ us).all (taskInside cfg) = true := by
  rw [List.all_append, ht, hu, Bool.and_self]

/-- Sink requests read nothing. -/
theorem sinks_inside (cfg : Config) (rs : List SinkReq) : (rs.map Task.sink).all (taskInside cfg) = true := by
  rw [List.all_eq_true]
  intro t ht
  obtain ⟨r, _, rfl⟩ := List.mem_map.mp ht
  rfl

/-- Byte `k` of row `j` of a bitmap is inside when the whole bitmap is (R201). -/
theorem bitmapByte_lt {addr bw h j k size : Nat} (hin : addr + bw * h ≤ size) (hj : j < h) (hk : k < bw) :
    addr + j * bw + k < size := by
  have hrow : bw * (j + 1) ≤ bw * h := Nat.mul_le_mul_left bw hj
  rw [Nat.mul_succ, Nat.mul_comm bw j] at hrow
  omega

/-- The transactions of `nextByte` are the ByteStore's, not local memory's (44_stream_decoder.md R224). -/
theorem nextByteTasks_inside (cfg : Config) (sc : StreamCursor) (use : ByteUse) :
    (nextByteTasks sc use).all (taskInside cfg) = true := by
  unfold nextByteTasks
  split <;> rfl

theorem fetchTasks_inside {cfg : Config} {b : BitmapRegs} {j k : Nat} (sc : StreamCursor)
    (hb : taskInside cfg (.call (.bitmapLoop b j k)) = true) (hj : (j : Int) < b.h.toInt) (hk : k < b.bw) :
    (fetchTasks sc b j k).all (taskInside cfg) = true := by
  unfold fetchTasks
  unfold taskInside at hb
  cases hsrc : b.source with
  | mem sp =>
    simp only [hsrc, decide_eq_true_eq] at hb
    have hlt := bitmapByte_lt hb (j := j) (by omega) hk
    simpa [taskInside] using hlt
  | stream => exact nextByteTasks_inside cfg sc _

/-- One turn of a bitmap's loops reads inside and leaves the same bitmap pending. -/
theorem bitmapTasks_inside {cfg : Config} {b : BitmapRegs} {j k : Nat} (sc : StreamCursor)
    (hb : taskInside cfg (.call (.bitmapLoop b j k)) = true) :
    (bitmapTasks sc b j k).all (taskInside cfg) = true := by
  have hnext : ∀ u j' k', [.upd u, .call (.bitmapLoop b j' k')].all (taskInside cfg) = true := by
    intro u j' k'
    rw [List.all_cons, List.all_cons, List.all_nil, Bool.and_true]
    exact hb
  unfold bitmapTasks
  split
  · rename_i hj
    split
    · rename_i hk
      exact append_inside (fetchTasks_inside sc hb hj hk) (hnext _ _ _)
    · exact hnext _ _ _
  · rfl

theorem glyphTasks_inside (cfg : Config) (sc : StreamCursor) (g : GlyphRegs) (band col : Nat) :
    (glyphTasks sc g band col).all (taskInside cfg) = true := by
  unfold glyphTasks
  split
  · split
    · exact append_inside (nextByteTasks_inside cfg sc _) rfl
    · rfl
  · rfl

theorem halfStrips_inside (cfg : Config) (cx cy c : Word) (mask : BitVec 2) (delta x y : Word) :
    (halfStrips cx cy c mask delta x y).all (taskInside cfg) = true := by
  unfold halfStrips
  split <;> split <;> rfl

theorem triRun_inside (cfg : Config) (t : TriRegs) : taskInside cfg (.call (triRun t)) = true := by
  unfold triRun scanRun
  split <;> rfl

theorem bits_inside (cfg : Config) (snap : Regs) (sc : StreamCursor) (use : ByteUse) (byte : Byte) (b : Nat) :
    (unfold cfg snap sc (.bits use byte b)).all (taskInside cfg) = true := by
  cases use with
  | bitmap g j k =>
    simp only [unfold, bitmapBitTasks]
    split
    · split
      · rfl
      · exact append_inside (sinks_inside cfg _) rfl
    · rfl
  | glyph g band col =>
    simp only [unfold, glyphBitTasks]
    split
    · exact append_inside (sinks_inside cfg _) rfl
    · rfl

/-- One turn of a procedure leaves pending only what reads inside, when the procedure does: a bitmap's loops are the only
ones that read local memory. -/
theorem unfold_inside {cfg : Config} (snap : Regs) (sc : StreamCursor) {p : Proc}
    (hp : taskInside cfg (.call p) = true) : (unfold cfg snap sc p).all (taskInside cfg) = true := by
  cases p with
  | emitH x y len c =>
    simp only [unfold, emitHTasks]
    split
    · rfl
    · split <;> rfl
  | emitV x y len c =>
    simp only [unfold, emitVTasks]
    split
    · rfl
    · split <;> rfl
  | plotsH x y c k n => cases n <;> rfl
  | plotsV x y c k n => cases n <;> rfl
  | lineLoop l n => cases n <;> rfl
  | fillCols x y h c k n => cases n <;> rfl
  | circleLoop cx cy c m =>
    simp only [unfold, circleTasks]
    split
    · exact append_inside (sinks_inside cfg _) rfl
    · rfl
  | circleHLoop cx cy c mask m =>
    simp only [unfold, circleHTasks]
    split
    · exact append_inside (sinks_inside cfg _) rfl
    · rfl
  | fillCircleHLoop cx cy c mask delta m =>
    simp only [unfold, fillCircleHTasks]
    split
    · exact append_inside (halfStrips_inside cfg cx cy c mask delta _ _) rfl
    · rfl
  | triLoop t n =>
    cases n with
    | zero => rfl
    | succ n =>
      rw [unfold, triTasks, List.all_cons, triRun_inside]
      rfl
  | bitmapLoop b j k => exact bitmapTasks_inside sc hp
  | glyphLoop g band col => exact glyphTasks_inside cfg sc g band col
  | bits use byte b => exact bits_inside cfg snap sc use byte b

/-! ## The pseudocode a command starts with -/

/-- A bitmap that `Validate` passed lies in its space (R97 step 5, R201). -/
theorem blitCore_inside {cfg : Config} {r : Regs} (order : BitOrder) (hv : blitVerdict cfg r = .ok) :
    (blitCore order r).all (taskInside cfg) = true := by
  have hin : r.p2.toNat + packedBytes r.p3 r.p4 ≤ spaceSize cfg r.srcSpace := by
    unfold blitVerdict at hv
    split at hv
    · cases hv
    · split at hv
      · cases hv
      · rename_i hout
        simpa [outsideSpace] using hout
  simpa [blitCore, blitRegs, taskInside, packedBytes] using hin

/-- A command that passes its checks starts with nothing that reads outside; only BLIT and BLITXBM need the check. -/
theorem bodyOf_inside {cfg : Config} {i : Instr} {r : Regs} (hv : verdictOf i cfg r = .ok) :
    (bodyOf i r).all (taskInside cfg) = true := by
  cases i with
  | line | hrun | vrun | circleh | fillcircleh | triangle | sblit | sglyph => rfl
  | rect =>
    simp only [bodyOf, rectBody]
    split <;> rfl
  | fillrect =>
    simp only [bodyOf, fillrectBody, fillRectTasks]
    split <;> rfl
  | circle => exact append_inside (sinks_inside cfg _) rfl
  | fillcircle =>
    simp only [bodyOf, fillcircleBody]
    split <;> rfl
  | roundrect =>
    simp only [bodyOf, roundrectBody]
    split <;> rfl
  | fillroundrect =>
    simp only [bodyOf, fillroundrectBody, fillRectTasks]
    split
    · rfl
    · split <;> rfl
  | filltriangle =>
    simp only [bodyOf, filltriangleBody, fillSorted]
    split <;> rfl
  | blit => exact blitCore_inside .msb hv
  | blitxbm => exact blitCore_inside .lsb hv

/-! ## The turns of the world -/

/-- What the statement asks of an outcome: the read fault did not arise, and a next state's pending reads are inside. -/
def ReadsStayInside : Host.Outcome State Fault Refusal → Prop
  | .next t => t.readsInside = true
  | .fault e => e ≠ .localReadOutside
  | .refused _ => True

theorem readsStayInside_iff (o : Host.Outcome State Fault Refusal) :
    ReadsStayInside o ↔ o ≠ .fault .localReadOutside ∧ ∀ t, o = .next t → t.readsInside = true := by
  cases o <;> simp [ReadsStayInside]

variable {s : State}

theorem settle_inside (hs : s.readsInside = true) : (settle s).readsInside = true := by
  refine settle_induct (P := fun u => u.readsInside = true) s hs (fun u p rest hu hc => ?_) (fun u v rest hu hc => ?_)
  all_goals
    rw [readsInside_iff, hc, List.all_cons, Bool.and_eq_true] at hu
    rw [readsInside_iff]
  · simp [unfold_inside _ _ hu.1, hu.2]
  · simp [hu.2]

theorem finishAction_inside (hs : s.readsInside = true) : (finishAction s).readsInside = true := by
  rw [finishAction_eq]
  split
  · rfl
  · exact settle_inside hs

/-- An action whose address is inside does not fault, and hands on at most a byte to draw. -/
theorem perform_inside {a : Action} (ans : Answer) (ha : taskInside s.cfg (.act a) = true)
    (hs : s.readsInside = true) : ReadsStayInside (perform a ans s) := by
  cases a with
  | sink r => exact hs
  | memRead sp x use =>
    have hx : x < spaceSize s.cfg sp := by simpa [taskInside] using ha
    simp only [perform]
    rcases memRead_cases sp x use ans s with ⟨_, hm⟩ | ⟨hout, _⟩
    · rw [hm]
      exact hs
    · omega
  | bsSeek => exact hs
  | bsRequest => exact hs
  | bsRead use =>
    simp only [perform]
    rcases bsRead_cases use ans s with ⟨_, hb⟩ | ⟨_, hb⟩
    · rw [hb]
      rfl
    · rw [hb]
      exact hs

theorem engineTurn_inside (ans : Answer) (hs : s.readsInside = true) : ReadsStayInside (engineTurn ans s) := by
  cases he : s.eng with
  | idle =>
    rw [engineTurn_idle ans he]
    exact hs
  | exec =>
    have hset := settle_inside hs
    rw [readsInside_iff] at hset
    have hat := settle_atAction s
    rcases hc : (settle s).cont with _ | ⟨a | p | u, rest⟩
    · rw [engineTurn_end ans he hc]
      rfl
    · rw [hc, List.all_cons, Bool.and_eq_true] at hset
      obtain ⟨ha, hrest⟩ := hset
      rw [← engineTurn_settle ans he, engineTurn_act ans ((settle_eng s).trans he) hc]
      have hp := perform_inside (s := { settle s with cont := rest }) ans ha hrest
      cases ho : perform a ans { settle s with cont := rest } with
      | next u =>
        rw [ho] at hp
        exact finishAction_inside hp
      | fault e =>
        rw [ho] at hp
        exact hp
      | refused e => trivial
    · rw [hc] at hat; cases hat
    · rw [hc] at hat; cases hat

/-- Acceptance keeps the invariant when its check passes only what reads inside (R35, R97). -/
theorem acceptWord_inside {w : Word} {verdict : Config → Regs → Verdict} {body : Regs → List Task}
    (hbody : ∀ cfg r, verdict cfg r = .ok → (body r).all (taskInside cfg) = true) (hs : s.readsInside = true) :
    ReadsStayInside (acceptWord w verdict body s) := by
  cases hb : s.busy with
  | true =>
    rw [acceptWord_busy hb]
    exact hs
  | false =>
    rw [acceptWord_idle hb]
    rcases settleVerdict_cases (verdict s.cfg (s.snapshotFor w)) (body (s.snapshotFor w)) (s.latch w) with
      ⟨hok, hv⟩ | ⟨_, hv⟩ | ⟨e, hv⟩
    · rw [hv]
      exact hbody _ _ hok
    · rw [hv]
      exact hs
    · rw [hv]
      exact hs

theorem writeCmd_inside (w : Word) (hs : s.readsInside = true) : ReadsStayInside (writeCmd w s) := by
  have hillegal : ∀ (body : Regs → List Task) (cfg : Config) (r : Regs), Verdict.illegalCmd = .ok →
      (body r).all (taskInside cfg) = true := fun _ _ _ => nofun
  rcases writeCmd_cases w s with ⟨i, _, hw⟩ | ⟨_, _, hw⟩
  · rw [hw, exec_eq, acceptCommand]
    split
    · exact acceptWord_inside (fun _ _ => bodyOf_inside) hs
    · exact acceptWord_inside (hillegal _) hs
  · rw [hw]
    exact acceptWord_inside (hillegal _) hs

theorem hostTurn_inside (hs : s.readsInside = true) : ReadsStayInside (hostTurn s) := by
  rcases hostTurn_cases s with ⟨_, hh⟩ | ⟨off, v, rest, _, hh⟩ | ⟨off, rest, _, hh⟩ | ⟨rest, _, hh⟩ |
    ⟨a, b, rest, _, hh⟩
  · rw [hh]
    exact hs
  · rw [hh]
    by_cases hoff : off = offCmd
    · rw [hoff, hostWrite_cmd]
      exact writeCmd_inside v hs
    · rw [hostWrite_of_ne_cmd hoff, writeReg_frame]
      exact hs
  · rw [hh]
    exact hs
  · rw [hh]
    exact hs
  · rw [hh]
    rcases hostRamWrite_cases a b { s with host := rest } with ⟨_, hw⟩ | ⟨_, hw⟩
    · rw [hw]
      exact hs
    · rw [hw]
      exact nofun

theorem takeTurn_inside (turn : Turn) (hs : s.readsInside = true) : ReadsStayInside (takeTurn turn s) := by
  cases turn with
  | host => exact hostTurn_inside hs
  | engine ans => exact engineTurn_inside ans hs
  | reset => exact rfl

/-- Settles O53: each turn of the world keeps the pending reads inside, so none of them faults. -/
theorem localReadsStayInside : Obligations.LocalReadsStayInside := by
  intro s hs
  obtain ⟨turn, ts, n, hstep⟩ := step_cases s
  rw [hstep, ← readsStayInside_iff]
  exact takeTurn_inside (s := { s with world := ts, turnNo := n }) turn hs

end Sys2Proof.Machine
end

section
/-! Local memory and the stream as the engine's partners see them: what an engine step leaves alone (20_memory.md R63,
R83), what a host write to RAM changes and a RAM read may return (R60, R63, R79), and how a read of the ByteStore moves
the cursor or ends the command (20_memory.md R71, R74, 44_stream_decoder.md R224, R225, R228). -/

namespace Sys2Proof.Machine

/-! ## The cursor -/

/-- The cursor's readiness for a read changes neither the address nor what is left of the stream (R224). -/
theorem cursorReady_raddr_bleft (cfg : Config) (c : StreamCursor) :
    (cursorReady cfg c).raddr = c.raddr ∧ (cursorReady cfg c).bleft = c.bleft := by
  unfold cursorReady
  split <;> exact ⟨rfl, rfl⟩

/-- The last byte of a stream leaves nothing and ends it (R225). -/
theorem consume_last {c : StreamCursor} (h : c.bleft = 1) : c.consume.bleft = 0 ∧ c.consume.fsm = .done := by
  simp [StreamCursor.consume, h]

/-- The bytes left count down to the end of the stream, the address with them up, modulo 2^16 (R74, R225). -/
theorem cursorAfter_end (cfg : Config) {n : Nat} {c : StreamCursor} (hc : c.bleft = BitVec.ofNat 32 (n + 1)) :
    let d := cursorAfter cfg c (n + 1)
    d.raddr = c.raddr + BitVec.ofNat 16 (n + 1) ∧ d.bleft = 0 ∧ d.fsm = .done := by
  induction n generalizing c with
  | zero =>
    obtain ⟨hraddr, hbleft⟩ := cursorReady_raddr_bleft cfg c
    obtain ⟨hzero, hdone⟩ := consume_last (hbleft.trans hc)
    exact ⟨congrArg (· + 1) hraddr, hzero, hdone⟩
  | succ n ih =>
    obtain ⟨hraddr, hbleft⟩ := cursorReady_raddr_bleft cfg c
    have hleft : (cursorReady cfg c).consume.bleft = BitVec.ofNat 32 (n + 1) := by
      change (cursorReady cfg c).bleft - 1#32 = _
      rw [hbleft, hc, BitVec.ofNat_add, BitVec.add_sub_cancel]
    obtain ⟨haddr, hend⟩ := ih hleft
    refine ⟨haddr.trans ?_, hend⟩
    change (cursorReady cfg c).raddr + 1#16 + _ = _
    rw [hraddr, BitVec.ofNat_add (n + 1) 1, BitVec.add_assoc, BitVec.add_comm 1#16]

/-- Settles O32: the stream starts with as many bytes left as it has, so its last byte is the one that ends it; the
block size and the bound on the length play no part. -/
theorem streamEndsDoneAfterItsBytes : Obligations.StreamEndsDoneAfterItsBytes := by
  intro cfg start n _ hpos _
  obtain ⟨m, rfl⟩ := Nat.exists_eq_succ_of_ne_zero (Nat.one_le_iff_ne_zero.mp hpos)
  exact cursorAfter_end cfg (c := streamStart start (BitVec.ofNat 32 (m + 1))) rfl

/-! ## RAM -/

variable {s t : State}

/-- A host write inside RAM goes on (R63). -/
theorem hostRamWrite_of_lt {x : Word} (b : Byte) (hx : x.toNat < s.cfg.ramSize) :
    hostRamWrite x b s = .next { s with
      ram := s.ram.write x.toNat b
      ramOld := if s.busy then (x.toNat, s.ram.read x.toNat) :: s.ramOld else s.ramOld } := if_pos hx

/-- What a host write to RAM makes of the values a byte has held: while a command runs, the new value joins those of its
byte and no other (R79). -/
theorem ramValues_hostRamWrite {x : Word} {b : Byte} (hb : s.busy = true) (hwf : s.ram.wf = true)
    (ht : hostRamWrite x b s = .next t) :
    ramValues t x.toNat = b :: ramValues s x.toNat ∧ ∀ y, y ≠ x.toNat → ramValues t y = ramValues s y := by
  rcases hostRamWrite_cases x b s with ⟨_, hw⟩ | ⟨_, hw⟩
  · cases hw.symm.trans ht
    refine ⟨?_, fun y hy => ?_⟩
    · simp [ramValues, hb, Memory.read_write_self hwf]
    · simp [ramValues, hb, Memory.read_write_of_ne _ _ hy, hy.symm]
  · cases hw.symm.trans ht

/-- Every value a RAM byte has held since acceptance is returned to some answer (R79). -/
theorem exists_localByte_eq {x : Nat} {b : Byte} (hb : b ∈ ramValues s x) : ∃ ans, localByte s .ram x ans = b := by
  obtain ⟨n, hn⟩ := List.mem_iff_getElem?.mp hb
  refine ⟨{ older := n }, ?_⟩
  simp only [localByte]
  rw [List.getD_eq_getElem?_getD, hn, Option.getD_some]

/-- A pending read of RAM shows, in its step, the value the answer picks. -/
theorem engineTurn_ramRead {x : Nat} {use : ByteUse} {rest : List Task} (he : s.eng = .exec)
    (hc : s.cont = .act (.memRead .ram x use) :: rest) (hx : x < s.cfg.ramSize) (ans : Answer) :
    ∃ t, engineTurn ans s = .next t ∧ t.trace = .memRead .ram x (localByte s .ram x ans) :: s.trace := by
  rw [engineTurn_act ans he hc, perform]
  rcases memRead_cases .ram x use ans { s with cont := rest } with ⟨_, hm⟩ | ⟨hout, _⟩
  · rw [hm]
    refine ⟨_, rfl, ?_⟩
    rw [finishAction_frame]
    rfl
  · exact absurd hx (Nat.not_lt.mpr hout)

/-- Settles O39: the answer picks among the values held, each of them can be picked, and a host write adds to them. -/
theorem ramReadReturnsAValueHeld : Obligations.RamReadReturnsAValueHeld := by
  refine ⟨fun s x use rest he hc hx => ⟨fun a => ?_, fun b hb => ?_⟩, fun s x b hb hwf hx => ?_⟩
  · obtain ⟨t, ht, htrace⟩ := engineTurn_ramRead he hc hx a
    exact ⟨t, _, ht, localByte_mem s x a, htrace⟩
  · obtain ⟨a, rfl⟩ := exists_localByte_eq hb
    exact ⟨a, engineTurn_ramRead he hc hx a⟩
  · have hw := hostRamWrite_of_lt b hx
    exact ⟨_, hw, ramValues_hostRamWrite hb hwf hw⟩

/-- Settles O44: `Memory.write` sets its byte alone, and nothing but RAM and the record of overwritten bytes is named. -/
theorem hostRamWriteSetsOneByte : Obligations.HostRamWriteSetsOneByte := by
  intro s x b hx hwf
  exact ⟨_, hostRamWrite_of_lt b hx, Memory.read_write_self hwf x.toNat b,
    fun _ hy => Memory.read_write_of_ne s.ram b hy, rfl⟩

/-! ## What an engine step leaves alone and does not read -/

/-- An action rejects nothing. -/
theorem perform_rej {a : Action} {ans : Answer} (h : perform a ans s = .next t) : t.rej = s.rej := by
  cases a with
  | sink r => cases h; rfl
  | memRead sp addr use =>
    simp only [perform] at h
    rcases memRead_cases sp addr use ans s with ⟨_, hm⟩ | ⟨_, hm⟩
    · cases hm.symm.trans h
      rfl
    · cases hm.symm.trans h
  | bsSeek => cases h; rfl
  | bsRequest => cases h; rfl
  | bsRead use =>
    cases h
    rcases bsRead_cases use ans s with ⟨_, hb⟩ | ⟨_, hb⟩
    · rw [hb]
      simp [State.rej]
    · rw [hb]
      rfl

theorem settle_rej (s : State) : (settle s).rej = s.rej := congrArg rejBit (settle_status s)

theorem complete_rej (s : State) : s.complete.rej = s.rej := rejBit_withBusy s.status false

theorem finishAction_rej (s : State) : (finishAction s).rej = s.rej := by
  rw [finishAction_eq]
  split
  · rw [complete_rej, settle_rej]
  · exact settle_rej s

/-- The machine without the running command's own state and without what was shown: what an engine step may not
touch. -/
def State.surroundings (s : State) : State :=
  { s with status := 0, bdone := 0, rdone := 0, eng := .idle, sc := .zero, cont := [], bsPos := 0, bsLeft := 0,
           trace := [] }

theorem settle_surroundings (s : State) : (settle s).surroundings = s.surroundings := by
  rw [settle_frame]
  rfl

theorem perform_surroundings {a : Action} {ans : Answer} (h : perform a ans s = .next t) :
    t.surroundings = s.surroundings := by
  obtain ⟨o, ho⟩ := perform_frame h
  rw [ho]
  rfl

theorem finishAction_surroundings (s : State) : (finishAction s).surroundings = s.surroundings := by
  rw [finishAction_frame]
  rfl

/-- An engine step touches the running command's own state and what is shown, nothing else (R63). -/
theorem engineTurn_surroundings {ans : Answer} (h : engineTurn ans s = .next t) :
    t.surroundings = s.surroundings := by
  rcases engineTurn_cases h with ⟨_, rfl⟩ | ⟨_, _, rfl⟩ | ⟨_, a, rest, u, _, hp, rfl⟩
  · rfl
  · exact settle_surroundings s
  · exact (finishAction_surroundings u).trans ((perform_surroundings hp).trans (settle_surroundings s))

/-- An engine step rejects nothing and clears no rejection (10_state.md R36). -/
theorem engineTurn_rej {ans : Answer} (h : engineTurn ans s = .next t) : t.rej = s.rej := by
  rcases engineTurn_cases h with ⟨_, rfl⟩ | ⟨_, _, rfl⟩ | ⟨_, a, rest, u, _, hp, rfl⟩
  · rfl
  · exact (complete_rej _).trans (settle_rej s)
  · exact (finishAction_rej u).trans ((perform_rej hp).trans (settle_rej s))

/-- Settles O41: all that the statement lists but REJ is part of the surroundings. -/
theorem engineWritesNoMemory : Obligations.EngineWritesNoMemory := by
  intro s t a h
  have hkeep := engineTurn_surroundings h
  exact ⟨(congrArg State.ram hkeep :), (congrArg State.rom hkeep :), (congrArg State.remote hkeep :),
    (congrArg State.cfg hkeep :), (congrArg State.live hkeep :), (congrArg State.snap hkeep :),
    (congrArg State.ramOld hkeep :), (congrArg State.host hkeep :), (congrArg State.world hkeep :),
    (congrArg State.turnNo hkeep :), engineTurn_rej h⟩

/-- Settles O42, by induction on the answers: no engine step reads the live registers, and each passes them on. -/
theorem runningCommandIgnoresLiveRegisters : Obligations.RunningCommandIgnoresLiveRegisters := by
  intro as
  induction as with
  | nil => intro s r; rfl
  | cons a as ih =>
    intro s r
    have hturn : engineTurn a { s with live := r } = mapNext (fun t => { t with live := r }) (engineTurn a s) :=
      engineTurn_mapUnread (fun _ => r) id a s
    simp only [engineRun]
    rw [hturn]
    cases engineTurn a s with
    | next t => exact ih t r
    | fault e => rfl
    | refused e => rfl

/-! ## No data -/

/-- Nothing follows an action that ended the command: BUSY is cleared once more. -/
theorem finishAction_of_nil (h : s.cont = []) : finishAction s = s.complete := by
  have hset : settle s = s := settle_of_atAction (by rw [h]; rfl)
  rw [finishAction_eq, hset, if_pos h]

/-- Settles O37: the read raises the error, which empties the continuation, so nothing follows it in the step. -/
theorem noDataEndsTheCommand : Obligations.NoDataEndsTheCommand := by
  intro s use rest a he hc hnone
  have hno : noData a { s with cont := rest } = true := by
    simpa [noData] using hnone
  rw [engineTurn_act a he hc, perform]
  rcases bsRead_cases use a { s with cont := rest } with ⟨_, hb⟩ | ⟨hdata, _⟩
  · rw [hb]
    refine ⟨_, congrArg Host.Outcome.next (finishAction_of_nil rfl), ?_, ?_, ?_, rfl⟩
    · simp [State.err]
    · simp [State.busy]
    · simp [State.rej]
  · cases hno.symm.trans hdata

end Sys2Proof.Machine
end

section
/-! The command word (30_encoding.md R90 to R98) and the host's statements that deliver it (R99, R100).

A word is its fields side by side (`wordOf`), and a concatenation determines its parts, so a word and its fields carry
the same information. What `decode` does with the fields is said once, by `decode_of_opcode` and
`decode_of_no_opcode`; the statements about words follow from these and from `encode_eq_iff`. -/

namespace Sys2Proof.Machine

/-! ## A word and its fields -/

/-- The word with these fields (R90): reserved bits 15:11, the three flags, reserved bits 7:6, the opcode. -/
def wordOf (high : BitVec 5) (f : Flags) (mid : BitVec 2) (op : BitVec 6) : Word :=
  high ++ BitVec.ofBool f.aln ++ BitVec.ofBool f.src ++ BitVec.ofBool f.bg ++ mid ++ op

theorem encode_eq_wordOf (i : Instr) : encode i = wordOf 0 i.flags 0 (opcode i) := rfl

theorem wordOf_fields (w : Word) :
    wordOf (w.extractLsb' 11 5) (flagsOf w) (w.extractLsb' 6 2) (w.extractLsb' 0 6) = w := word_eq_fields w

/-- Concatenations of parts of the same widths are equal part by part. -/
theorem append_inj_iff {m n : Nat} (x x' : BitVec m) (y y' : BitVec n) : x ++ y = x' ++ y' ↔ x = x' ∧ y = y' := by
  constructor
  · intro h
    have hhigh := congrArg (BitVec.extractLsb' n m) h
    have hlow := congrArg (BitVec.extractLsb' 0 n) h
    rw [BitVec.extractLsb'_append_eq_left, BitVec.extractLsb'_append_eq_left] at hhigh
    rw [BitVec.extractLsb'_append_eq_right, BitVec.extractLsb'_append_eq_right] at hlow
    exact ⟨hhigh, hlow⟩
  · rintro ⟨rfl, rfl⟩
    rfl

theorem wordOf_inj_iff {high high' : BitVec 5} {f f' : Flags} {mid mid' : BitVec 2} {op op' : BitVec 6} :
    wordOf high f mid op = wordOf high' f' mid' op' ↔ high = high' ∧ f = f' ∧ mid = mid' ∧ op = op' := by
  obtain ⟨bg, src, aln⟩ := f
  obtain ⟨bg', src', aln'⟩ := f'
  unfold wordOf
  change (_ : BitVec (5 + 1 + 1 + 1 + 2 + 6)) = _ ↔ _
  simp only [append_inj_iff, BitVec.ofBool_eq_iff_eq, Flags.mk.injEq]
  tauto

theorem wordOf_and (high high' : BitVec 5) (f f' : Flags) (mid mid' : BitVec 2) (op op' : BitVec 6) :
    wordOf high f mid op &&& wordOf high' f' mid' op' =
      wordOf (high &&& high') ⟨f.bg && f'.bg, f.src && f'.src, f.aln && f'.aln⟩ (mid &&& mid') (op &&& op') := by
  unfold wordOf
  change (_ &&& _ : BitVec (5 + 1 + 1 + 1 + 2 + 6)) = _
  simp only [BitVec.and_append, BitVec.ofBool_and_ofBool]

theorem reservedSet_eq_false_iff (w : Word) :
    reservedSet w = false ↔ w.extractLsb' 11 5 = 0 ∧ w.extractLsb' 6 2 = 0 := by
  simp [reservedSet, and_comm]

/-- The word of a command, field by field (R90). -/
theorem encode_eq_iff (i : Instr) (w : Word) :
    encode i = w ↔ opcode i = w.extractLsb' 0 6 ∧ i.flags = flagsOf w ∧ reservedSet w = false := by
  conv_lhs => rw [encode_eq_wordOf, ← wordOf_fields w, wordOf_inj_iff]
  rw [reservedSet_eq_false_iff]
  constructor
  · rintro ⟨hhigh, hf, hmid, hop⟩
    exact ⟨hop, hf, hhigh.symm, hmid.symm⟩
  · rintro ⟨hop, hf, hhigh, hmid⟩
    exact ⟨hhigh.symm, hf, hmid.symm, hop⟩

/-! ## Operations and their flags -/

/-- The command of the same operation with other flags. -/
def withFlags (f : Flags) (i : Instr) : Instr := (ofOpcode (opcode i) f).getD i

theorem ofOpcode_opcode (i : Instr) (f : Flags) : ofOpcode (opcode i) f = some (withFlags f i) := by
  cases i <;> rfl

@[simp] theorem opcode_withFlags (f : Flags) (i : Instr) : opcode (withFlags f i) = opcode i := by
  cases i <;> rfl

@[simp] theorem flags_withFlags (f : Flags) (i : Instr) : (withFlags f i).flags = f := by
  cases i <;> rfl

@[simp] theorem allows_withFlags (f : Flags) (i : Instr) : (withFlags f i).allows = i.allows := by
  cases i <;> rfl

theorem withFlags_self (i : Instr) : withFlags i.flags i = i := by
  cases i <;> rfl

/-- An opcode and its flags are one command at most (R92). -/
theorem eq_withFlags_of_opcode_eq {i o : Instr} (h : opcode i = opcode o) : i = withFlags i.flags o := by
  have hi := ofOpcode_opcode i i.flags
  rw [h, ofOpcode_opcode o, withFlags_self] at hi
  exact (Option.some.inj hi).symm

/-- Every operation has its row in the list of R92. -/
theorem withFlags_mem_operations (i : Instr) : withFlags {} i ∈ operations := by
  cases i <;> simp [operations, withFlags, ofOpcode, opcode]

/-- The opcodes that name no operation (R98). -/
theorem opcode_unassigned_iff (op : BitVec 6) :
    op.toNat ∈ [0x00, 0x0E, 0x0F] ∨ 0x14 ≤ op.toNat ↔ ∀ o ∈ operations, opcode o ≠ op := by
  revert op
  decide

/-! ## The decoder -/

/-- What the decoder makes of a word with an operation's opcode (R97 steps 2 and 3). -/
theorem decode_of_opcode {o : Instr} {w : Word} (hop : opcode o = w.extractLsb' 0 6) :
    decode w =
      if reservedSet w then .error .reservedBit
      else if (flagsOf w).within o.allows then .ok (withFlags (flagsOf w) o)
      else .error .disallowedFlag := by
  simp only [decode, ← hop, ofOpcode_opcode, Instr.wellFormed, flags_withFlags, allows_withFlags]

/-- What the decoder makes of a word with no operation's opcode (R97 step 1). -/
theorem decode_of_no_opcode {w : Word} (h : ∀ o ∈ operations, opcode o ≠ w.extractLsb' 0 6) :
    decode w = .error .unknownOpcode := by
  have hnone : ofOpcode (w.extractLsb' 0 6) (flagsOf w) = none := by
    rw [Option.eq_none_iff_forall_ne_some]
    intro i hi
    apply h _ (withFlags_mem_operations i)
    rw [opcode_withFlags]
    exact (opcode_flags_of_ofOpcode hi).1
  simp only [decode, hnone]

/-- A word is a command's exactly when it is the word of that command and the command is well formed. -/
theorem decode_eq_ok_iff (w : Word) (i : Instr) : decode w = .ok i ↔ encode i = w ∧ i.wellFormed = true := by
  constructor
  · intro h
    have hw := encode_of_decode h
    obtain ⟨hop, hf, hres⟩ := (encode_eq_iff i w).1 hw
    refine ⟨hw, ?_⟩
    by_contra hill
    rw [Instr.wellFormed, hf] at hill
    rw [decode_of_opcode hop, hres, if_neg Bool.false_ne_true, if_neg hill] at h
    cases h
  · rintro ⟨hw, hwf⟩
    obtain ⟨hop, hf, hres⟩ := (encode_eq_iff i w).1 hw
    rw [Instr.wellFormed, hf] at hwf
    rw [decode_of_opcode hop, hres, if_neg Bool.false_ne_true, if_pos hwf, ← hf, withFlags_self]

/-- A word that decodes to no command: an opcode that names no operation, a reserved bit, or a flag that the operation
does not allow (R97 steps 1 to 3). -/
theorem exists_error_iff (w : Word) :
    (∃ e, decode w = .error e) ↔
      (∀ o ∈ operations, opcode o ≠ w.extractLsb' 0 6) ∨ reservedSet w = true ∨
        ∃ o ∈ operations, opcode o = w.extractLsb' 0 6 ∧ (flagsOf w).within o.allows = false := by
  by_cases hop : ∀ o ∈ operations, opcode o ≠ w.extractLsb' 0 6
  · exact iff_of_true ⟨_, decode_of_no_opcode hop⟩ (.inl hop)
  · obtain ⟨o, ho, hoo⟩ : ∃ o ∈ operations, opcode o = w.extractLsb' 0 6 := by simpa using hop
    have huniq : (∃ o' ∈ operations, opcode o' = w.extractLsb' 0 6 ∧ (flagsOf w).within o'.allows = false) ↔
        (flagsOf w).within o.allows = false := by
      constructor
      · rintro ⟨o', _, ho', hill⟩
        rwa [eq_withFlags_of_opcode_eq (ho'.trans hoo.symm), allows_withFlags] at hill
      · exact fun hill => ⟨o, ho, hoo, hill⟩
    rw [huniq, or_iff_right hop, decode_of_opcode hoo]
    cases reservedSet w <;> cases (flagsOf w).within o.allows <;> simp

/-! ## The pattern table -/

/-- The bits of a word that a row of R94 fixes: all but the flags the operation allows. -/
def fixedBits (a : Flags) : Word := wordOf 0x1F ⟨!a.bg, !a.src, !a.aln⟩ 0x3 0x3F

/-- The row of R94 is the operation's, whatever the flags. -/
theorem patternOf_withFlags (f : Flags) (i : Instr) : patternOf (withFlags f i) = patternOf i := by
  cases i <;> rfl

/-- A row of R94 follows from the operation's opcode and allowed flags (R90, R92). -/
theorem patternOf_eq (i : Instr) : patternOf i = ⟨wordOf 0 {} 0 (opcode i), fixedBits i.allows⟩ := by
  have htable : ∀ o ∈ operations, patternOf o = ⟨wordOf 0 {} 0 (opcode o), fixedBits o.allows⟩ := by decide
  have hrow := htable _ (withFlags_mem_operations i)
  rwa [patternOf_withFlags, opcode_withFlags, allows_withFlags] at hrow

theorem within_iff (f a : Flags) :
    f.within a = true ↔ (⟨f.bg && !a.bg, f.src && !a.src, f.aln && !a.aln⟩ : Flags) = {} := by
  obtain ⟨bg, src, aln⟩ := f
  obtain ⟨abg, asrc, aaln⟩ := a
  revert bg src aln abg asrc aaln
  decide

/-- A word agrees with a row exactly when its opcode is the row's, its reserved bits are 0 and its flags are allowed. -/
theorem selects_iff (o : Instr) (w : Word) :
    (patternOf o).selects w = true ↔
      opcode o = w.extractLsb' 0 6 ∧ reservedSet w = false ∧ (flagsOf w).within o.allows = true := by
  have hmask : w &&& fixedBits o.allows = wordOf (w.extractLsb' 11 5)
      ⟨(flagsOf w).bg && !o.allows.bg, (flagsOf w).src && !o.allows.src, (flagsOf w).aln && !o.allows.aln⟩
      (w.extractLsb' 6 2) (w.extractLsb' 0 6) := by
    conv_lhs => rw [← wordOf_fields w, fixedBits, wordOf_and]
    congr 1 <;> exact BitVec.and_allOnes
  rw [patternOf_eq, PatternRow.selects, beq_iff_eq, hmask, wordOf_inj_iff, reservedSet_eq_false_iff, within_iff]
  constructor
  · rintro ⟨hhigh, hf, hmid, hop⟩
    exact ⟨hop.symm, ⟨hhigh, hmid⟩, hf⟩
  · rintro ⟨hop, ⟨hhigh, hmid⟩, hf⟩
    exact ⟨hhigh, hf, hmid, hop.symm⟩

/-- A command's word agrees with the command's row (R94). -/
theorem selects_of_decode {w : Word} {i : Instr} (h : decode w = .ok i) : (patternOf i).selects w = true := by
  obtain ⟨hw, hwf⟩ := (decode_eq_ok_iff w i).1 h
  obtain ⟨hop, hf, hres⟩ := (encode_eq_iff i w).1 hw
  rw [Instr.wellFormed, hf] at hwf
  exact (selects_iff i w).2 ⟨hop, hres, hwf⟩

/-! ## Refused words -/

/-- An idle engine that finds a word illegal latches it with ILLEGAL_CMD and does nothing else (R97, R301). -/
theorem acceptWord_illegal {s : State} (w : Word) (body : Regs → List Task) (h : s.busy = false) :
    acceptWord w (fun _ _ => .illegalCmd) body s = .next ((s.latch w).latchError .illegalCmd) :=
  acceptWord_idle h

/-- STATUS.ERR after an error is latched is its code (60_exceptions.md R300). -/
theorem latchError_err (e : ErrCode) (s : State) : (s.latchError e).err = e.code := errField_withErr _ _

/-- Latching a word and an error leaves BUSY as it was (R35). -/
theorem latch_latchError_busy (w : Word) (e : ErrCode) (s : State) : ((s.latch w).latchError e).busy = s.busy := by
  simp [State.busy]

/-- An idle engine refuses a word that decodes to no command (R301). -/
theorem writeCmd_of_error {s : State} {w : Word} {e : DecodeError} (h : s.busy = false) (hw : decode w = .error e) :
    writeCmd w s = .next ((s.latch w).latchError .illegalCmd) := by
  rw [writeCmd, hw]
  exact acceptWord_illegal w _ h

/-! ## The statements about words -/

/-- Settles O1: both directions are `decode_eq_ok_iff`. -/
theorem decodeAndEncodeAgree : Obligations.DecodeAndEncodeAgree :=
  ⟨fun i hi => (decode_eq_ok_iff _ i).2 ⟨rfl, hi⟩, fun w i h => ((decode_eq_ok_iff w i).1 h).symm⟩

/-- Settles O2: a word that agrees with the operation's row has its opcode and flags it allows, so it decodes to that
operation with the word's flags; the row does not depend on them. -/
theorem maskAndMatchSelectTheOperation : Obligations.MaskAndMatchSelectTheOperation := by
  intro w o _
  constructor
  · intro hsel
    obtain ⟨hop, hres, hflags⟩ := (selects_iff o w).1 hsel
    refine ⟨withFlags (flagsOf w) o, ?_, ?_⟩
    · rw [decode_of_opcode hop, hres, if_neg Bool.false_ne_true, if_pos hflags]
    · exact patternOf_withFlags _ o
  · rintro ⟨i, hi, hrow⟩
    rw [← hrow]
    exact selects_of_decode hi

/-- Settles O3: the reserved encodings are the words `exists_error_iff` names, and such a word is refused by
`writeCmd_of_error`. -/
theorem reservedEncodingsAreIllegal : Obligations.ReservedEncodingsAreIllegal := by
  intro w op reserved
  have hreserved : (∃ e, decode w = .error e) ↔ reserved := by
    have hbits : reservedSet w = true ↔ w.extractLsb' 6 2 ≠ 0 ∨ w.extractLsb' 11 5 ≠ 0 := by simp [reservedSet]
    rw [exists_error_iff, ← opcode_unassigned_iff, hbits, or_assoc, or_assoc]
  refine ⟨hreserved, fun hr s hidle => ?_⟩
  obtain ⟨e, he⟩ := hreserved.2 hr
  exact ⟨_, (hostWrite_cmd w s).trans (writeCmd_of_error hidle he), latchError_err .illegalCmd _,
    (latch_latchError_busy w _ s).trans hidle, rfl, rfl⟩

/-- Settles O4: each word is the word of its command, which is well formed. -/
theorem tableWordsReadAsTheirCommands : Obligations.TableWordsReadAsTheirCommands := by
  refine ⟨?_, ?_, ?_, ?_, ?_, ?_⟩
  all_goals
    rw [decode_eq_ok_iff]
    decide

/-- Settles O11: `Validate` of an ill-formed command is ILLEGAL_CMD, whatever its operands. -/
theorem disallowedFlagIsRefused : Obligations.DisallowedFlagIsRefused := by
  intro s i hidle hill
  refine ⟨?_, latchError_err .illegalCmd _⟩
  rw [exec_eq, acceptCommand, hill, if_neg Bool.false_ne_true, acceptWord_illegal _ _ hidle]

/-! ## Statements of a host program -/

/-- Settles O45: the turn reads STATUS, and WAIT leaves the program only when the engine is idle. -/
theorem waitPollsStatusUntilIdle : Obligations.WaitPollsStatusUntilIdle := by
  intro s rest hhost
  rw [hostTurn, hhost]
  cases hb : s.busy with
  | true => simp [hostRead, State.observe, readReg, offStatus, ← hhost]
  | false => simp [hostRead, State.observe, readReg, offStatus]

/-- The statements `WR` that make these register writes (R99). -/
def writeOps (ws : List (Offset × Word)) : List HostOp := ws.map fun w => .wr w.1 w.2

/-- Host writes of registers other than CMD, one after another. -/
def writeAll (ws : List (Offset × Word)) (s : State) : State := ws.foldl (fun t w => writeReg w.1 w.2 t) s

/-- A register write neither reads nor changes the host's program and the schedule. -/
theorem writeReg_schedule (off : Offset) (v : Word) (s : State) (ops : List HostOp) (ts : List Turn) :
    { writeReg off v s with host := ops, world := ts } = writeReg off v { s with host := ops, world := ts } := by
  unfold writeReg
  split <;> rfl

/-- A scheduled host turn that writes a register other than CMD (R99). -/
theorem step_wr {s : State} {off : Offset} {v : Word} {ops : List HostOp} {ts : List Turn} (hoff : off ≠ offCmd)
    (hhost : s.host = .wr off v :: ops) (hworld : s.world = .host :: ts) :
    step s = .next (writeReg off v { s with host := ops, world := ts }) :=
  calc step s = hostTurn { s with world := ts } := step_of_world hworld
    _ = hostWrite off v { s with host := ops, world := ts } := by rw [hostTurn, hhost]
    _ = .next (writeReg off v { s with host := ops, world := ts }) := hostWrite_of_ne_cmd hoff v _

theorem run_succ {s t : State} (n : Nat) (h : step s = .next t) :
    Host.Core.run Sys2Proof.core (n + 1) s = Host.Core.run Sys2Proof.core n t := by
  have hcore : Sys2Proof.core.step s = .next t := h
  simp only [Host.Core.run]
  rw [hcore]

theorem run_one (s : State) : Host.Core.run Sys2Proof.core 1 s = step s := by
  have hcore : Sys2Proof.core.step s = step s := rfl
  simp only [Host.Core.run]
  rw [hcore]
  cases step s <;> rfl

/-- A run that begins with scheduled register writes goes on from the state they leave. -/
theorem run_writeOps {ws : List (Offset × Word)} {ops : List HostOp} {ts : List Turn} (n : Nat)
    (hoff : ∀ w ∈ ws, w.1 ≠ offCmd) (s : State) (hhost : s.host = writeOps ws ++ ops)
    (hworld : s.world = List.replicate ws.length .host ++ ts) :
    Host.Core.run Sys2Proof.core (n + ws.length) s =
      Host.Core.run Sys2Proof.core n (writeAll ws { s with host := ops, world := ts }) := by
  induction ws generalizing s with
  | nil =>
    have hops : s.host = ops := hhost
    have hturns : s.world = ts := hworld
    rw [← hops, ← hturns]
    rfl
  | cons w ws ih =>
    have hstep := step_wr (hoff w List.mem_cons_self) hhost hworld
    have hrest := ih (fun w' hw' => hoff w' (List.mem_cons_of_mem w hw')) (writeReg w.1 w.2
      { s with host := writeOps ws ++ ops, world := List.replicate ws.length .host ++ ts })
      (by rw [← writeReg_schedule]) (by rw [← writeReg_schedule])
    rw [writeReg_schedule] at hrest
    exact (run_succ _ hstep).trans hrest

/-- The register writes that load a command's operands: operand `k` to Pk, at offset `2 + k` (R21, R100). -/
def operandWrites (args : List Word) : List (Offset × Word) := args.mapIdx fun k v => (BitVec.ofNat 4 (2 + k), v)

theorem arity_le (i : Instr) : arity i ≤ 6 := by
  cases i <;> simp [arity]

/-- What a command pseudo-instruction stands for (R100). -/
theorem expandCommand_eq_some {i : Instr} {args : List Word} {ops : List HostOp} (h : expandCommand i args = some ops) :
    args.length ≤ 6 ∧ ops = writeOps (operandWrites args) ++ [.wr offCmd (encode i)] := by
  unfold expandCommand at h
  split at h
  · rename_i harity
    cases h
    refine ⟨harity ▸ arity_le i, ?_⟩
    simp [writeOps, operandWrites, List.mapIdx_eq_zipIdx_map, offCmd]
  · cases h

theorem operandWrites_ne_cmd {args : List Word} (h : args.length ≤ 6) :
    ∀ w ∈ operandWrites args, w.1 ≠ offCmd := by
  intro w hw
  obtain ⟨k, hk, rfl⟩ := List.mem_mapIdx.1 hw
  have hoff : ∀ n < 6, BitVec.ofNat 4 (2 + n) ≠ offCmd := by decide
  exact hoff k (by omega)

/-- The operands of a command arrive in P0, P1, and so on (R95, R100). -/
theorem writeAll_operandWrites (s : State) {args : List Word} (h : args.length ≤ 6) :
    writeAll (operandWrites args) s = { s with live := s.live.loadOperands args } := by
  match args, h with
  | [], _ | [_], _ | [_, _], _ | [_, _, _], _ | [_, _, _, _], _ | [_, _, _, _, _], _ | [_, _, _, _, _, _], _ =>
    simp [writeAll, operandWrites, writeReg, Regs.loadOperands]

/-- Settles O46: the operand writes load the live registers, and the turn after them writes the command's word. -/
theorem commandStatementLoadsAndStarts : Obligations.CommandStatementLoadsAndStarts := by
  intro s i args ops rest ts hwf hexp hhost hworld
  obtain ⟨hlen, rfl⟩ := expandCommand_eq_some hexp
  have hcount : (writeOps (operandWrites args) ++ [HostOp.wr offCmd (encode i)]).length =
      1 + (operandWrites args).length := by
    simp [writeOps, Nat.add_comm]
  rw [hcount] at hworld ⊢
  rw [Nat.add_comm, List.replicate_succ', List.append_assoc] at hworld
  rw [List.append_assoc] at hhost
  have hload := run_writeOps 1 (operandWrites_ne_cmd hlen) s hhost hworld
  rw [writeAll_operandWrites _ hlen, run_one] at hload
  exact hload.trans (cmdWriteStepRunsTheCommand _ _ i rest ts rfl rfl (decodeAndEncodeAgree.1 i hwf))

end Sys2Proof.Machine
end

section
/-! Runs, lines and rectangles from acceptance to completion (40_raster_lines.md), and the two other shape commands
made of them (41_raster_circles.md R156, 42_raster_triangles.md R180). -/

namespace Sys2Proof.Machine

/-! ## Operand checks that pass (60_exceptions.md R306) -/

theorem runVerdict_ok (cfg : Config) {r : Regs} (h : 0 < r.p2.toInt) : runVerdict cfg r = .ok := by
  have hlen : runDegenerate r = false := decide_eq_false (by omega)
  simp [runVerdict, hlen]

theorem rectDegenerate_eq_false {r : Regs} (hw : 0 < r.p2.toInt) (hh : 0 < r.p3.toInt) : rectDegenerate r = false :=
  decide_eq_false (by omega)

theorem rectVerdict_ok (cfg : Config) {r : Regs} (hw : 0 < r.p2.toInt) (hh : 0 < r.p3.toInt) :
    rectVerdict cfg r = .ok := by
  simp [rectVerdict, rectDegenerate_eq_false hw hh]

/-! ## What the commands' pseudocode draws -/

section
variable {cfg : Config} {snap : Regs}

/-- RECT's four edges in the order of R125. -/
theorem draws_rectBody {r : Regs} (hw : 0 < r.p2.toInt) (hh : 0 < r.p3.toInt) :
    Draws cfg snap (rectBody r) (rectEmission cfg r) := by
  rw [rectBody, rectDegenerate_eq_false hw hh]
  exact (((draws_emitH _ _ _ _).append (draws_emitH _ _ _ _)).append (draws_emitV _ _ _ _)).append (draws_emitV _ _ _ _)

/-- FILLROUNDRECT's central columns, then the right strips, then the left ones (41_raster_circles.md R156). -/
theorem draws_fillroundrectBody {r : Regs} (hw : 0 < r.p2.toInt) (hh : 0 < r.p3.toInt) :
    Draws cfg snap (fillroundrectBody r) (fillroundrectEmission cfg r) := by
  rw [fillroundrectBody, rectDegenerate_eq_false hw hh]
  exact ((draws_fillRect _ _ _ _ _).append (draws_fillCircleHCore _ _ _ _ _ _)).append
    (draws_fillCircleHCore _ _ _ _ _ _)

/-- TRIANGLE's edges 0-1, 1-2, 2-0 (42_raster_triangles.md R180). -/
theorem draws_triangleBody (r : Regs) : Draws cfg snap (triangleBody r) (triangleEmission r) :=
  ((draws_lineCore _ _ _ _ _).append (draws_lineCore _ _ _ _ _)).append (draws_lineCore _ _ _ _ _)

end

/-! ## The statements -/

/-- Settles O15: LINE has no operand check, and its body is one `LineCore`. -/
theorem lineEmitsLineCore : Obligations.LineEmitsLineCore := by
  intro s as hidle hlen
  exact exec_draws (i := .line {}) hidle rfl rfl (draws_lineCore _ _ _ _ _) hlen

/-- Settles O16: `len > 0` passes HRUN's check, and its body is one `EmitH`. -/
theorem hrunEmitsItsRun : Obligations.HrunEmitsItsRun := by
  intro s as hidle hpos hlen
  exact exec_draws (i := .hrun {}) hidle rfl (runVerdict_ok s.cfg hpos) (draws_emitH _ _ _ _) hlen

/-- Settles O17: `len > 0` passes VRUN's check, and its body is one `EmitV`. -/
theorem vrunEmitsItsRun : Obligations.VrunEmitsItsRun := by
  intro s as hidle hpos hlen
  exact exec_draws (i := .vrun {}) hidle rfl (runVerdict_ok s.cfg hpos) (draws_emitV _ _ _ _) hlen

/-- Settles O18: `w, h > 0` pass RECT's check, and its body is its four edges. -/
theorem rectEmitsItsFourEdges : Obligations.RectEmitsItsFourEdges := by
  intro s as hidle hw hh hlen
  exact exec_draws (i := .rect {}) hidle rfl (rectVerdict_ok s.cfg hw hh) (draws_rectBody hw hh) hlen

/-- Settles O19: `w, h > 0` pass FILLRECT's check, and its body is the column loop. -/
theorem fillrectEmitsItsColumns : Obligations.FillrectEmitsItsColumns := by
  intro s as hidle hw hh hlen
  exact exec_draws (i := .fillrect {}) hidle rfl (rectVerdict_ok s.cfg hw hh) (draws_fillRect _ _ _ _ _) hlen

/-- Settles O25: `w, h > 0` pass FILLROUNDRECT's check, and no radius is refused. -/
theorem fillroundrectEmitsColumnsAndStrips : Obligations.FillroundrectEmitsColumnsAndStrips := by
  intro s as hidle hw hh hlen
  exact exec_draws (i := .fillroundrect {}) hidle rfl (rectVerdict_ok s.cfg hw hh) (draws_fillroundrectBody hw hh) hlen

/-- Settles O26: TRIANGLE has no operand check, and its body is three `LineCore`s. -/
theorem triangleEmitsThreeLines : Obligations.TriangleEmitsThreeLines := by
  intro s as hidle hlen
  exact exec_draws (i := .triangle {}) hidle rfl rfl (draws_triangleBody _) hlen

end Sys2Proof.Machine
end

section
/-! Word arithmetic that does not wrap (00_scope.md R9): where the exact result fits, the word holds it. -/

namespace Sys2Proof.Machine

theorem toInt_add_of_fits {a b : Word} (hlo : -32768 ≤ a.toInt + b.toInt) (hhi : a.toInt + b.toInt ≤ 32767) :
    (a + b).toInt = a.toInt + b.toInt := by
  rw [BitVec.toInt_add, Int.bmod_eq_of_le_mul_two] <;> omega

theorem toInt_sub_of_fits {a b : Word} (hlo : -32768 ≤ a.toInt - b.toInt) (hhi : a.toInt - b.toInt ≤ 32767) :
    (a - b).toInt = a.toInt - b.toInt := by
  rw [BitVec.toInt_sub, Int.bmod_eq_of_le_mul_two] <;> omega

theorem toInt_ofInt_of_fits {z : Int} (hlo : -32768 ≤ z) (hhi : z ≤ 32767) : (BitVec.ofInt 16 z).toInt = z := by
  rw [BitVec.toInt_ofInt, Int.bmod_eq_of_le_mul_two] <;> omega

theorem toInt_loopVar_of_fits {a : Word} {k : Nat} (h : a.toInt + k ≤ 32767) : (loopVar a k).toInt = a.toInt + k := by
  have ha := BitVec.le_toInt a
  rw [loopVar, BitVec.toInt_add, BitVec.toInt_ofNat', Int.add_bmod_bmod, Int.bmod_eq_of_le_mul_two] <;> omega

theorem toInt_abs16 {a : Word} (h : -32767 ≤ a.toInt) : (abs16 a).toInt = a.toInt.natAbs := by
  have ha := BitVec.toInt_lt (x := a)
  unfold abs16
  split
  · rw [BitVec.toInt_neg, Int.bmod_eq_of_le_mul_two] <;> omega
  · omega

/-- Halving never wraps. -/
theorem toInt_tdiv16_two {a : Word} (h : 0 ≤ a.toInt) : (tdiv16 a 2).toInt = a.toInt / 2 := by
  have ha := BitVec.toInt_lt (x := a)
  have htwo : (2 : Word).toInt = 2 := rfl
  rw [tdiv16, htwo, Int.tdiv_eq_ediv_of_nonneg h, toInt_ofInt_of_fits] <;> omega

@[simp] theorem toInt_sext32 (a : Word) : (sext32 a).toInt = a.toInt := BitVec.toInt_signExtend_of_le (by omega)

/-- Keeping the low half of a value that fits in it loses nothing. -/
theorem toInt_low16_of_fits {a : Word32} (hlo : -32768 ≤ a.toInt) (hhi : a.toInt ≤ 32767) :
    (low16 a).toInt = a.toInt := by
  rw [low16, BitVec.toInt_setWidth, ← Int.bmod_bmod_of_dvd (m := 2 ^ 32) (by decide), ← BitVec.toInt_eq_toNat_bmod,
    Int.bmod_eq_of_le_mul_two] <;> omega

theorem toNat_toInt_of_nonneg {a : Word} (h : 0 ≤ a.toInt) : a.toInt.toNat = a.toNat := by
  rw [BitVec.toInt_eq_toNat_cond] at h ⊢
  split at h <;> omega

theorem ofNat_toInt_of_nonneg {a : Word} (h : 0 ≤ a.toInt) : BitVec.ofNat 16 a.toInt.toNat = a := by
  rw [toNat_toInt_of_nonneg h, BitVec.ofNat_toNat, BitVec.setWidth_eq]

end Sys2Proof.Machine
end

section
/-! Whether runs are forwarded or expanded (40_raster_lines.md R121): a run of positive length is one request, or the
PLOTs of that request's pixels. So every emission made of runs has the same pixels either way. -/

namespace Sys2Proof.Machine

/-! ## Runs -/

theorem runH_of_nonpos {cfg : Config} {x y len c : Word} (h : len.toInt ≤ 0) : runH cfg x y len c = [] := if_pos h

theorem runV_of_nonpos {cfg : Config} {x y len c : Word} (h : len.toInt ≤ 0) : runV cfg x y len c = [] := if_pos h

theorem runH_of_pos {cfg : Config} {x y len c : Word} (h : 0 < len.toInt) :
    runH cfg x y len c = if cfg.sinkRuns then [.hrun x y len c] else reqPlots (.hrun x y len c) := by
  rw [runH, if_neg (by omega)]
  simp [reqPlots, reqPixels, toNat_toInt_of_nonneg h.le, Function.comp_def]

theorem runV_of_pos {cfg : Config} {x y len c : Word} (h : 0 < len.toInt) :
    runV cfg x y len c = if cfg.sinkRuns then [.vrun x y len c] else reqPlots (.vrun x y len c) := by
  rw [runV, if_neg (by omega)]
  simp [reqPlots, reqPixels, toNat_toInt_of_nonneg h.le, Function.comp_def]

theorem pixels_reqPlots (q : SinkReq) : (reqPlots q).flatMap reqPixels = reqPixels q := by
  simp [reqPlots, reqPixels, List.flatMap_map]

/-- Forwarded or expanded, a request stands for its own pixels. -/
theorem pixels_forwarded_or_expanded (b : Bool) (q : SinkReq) :
    (if b then [q] else reqPlots q).flatMap reqPixels = reqPixels q := by
  cases b
  · exact pixels_reqPlots q
  · exact List.flatMap_singleton ..

/-! ## Emissions with the same pixels -/

/-- The two emissions stand for the same pixels with the same colours, in the same order (00_scope.md R18). -/
def SamePixels (rs qs : List SinkReq) : Prop := rs.flatMap reqPixels = qs.flatMap reqPixels

namespace SamePixels

theorem append {rs rs' qs qs' : List SinkReq} (h : SamePixels rs qs) (h' : SamePixels rs' qs') :
    SamePixels (rs ++ rs') (qs ++ qs') := by
  unfold SamePixels at *
  rw [List.flatMap_append, List.flatMap_append, h, h']

theorem flatMap {α : Type} {f g : α → List SinkReq} (l : List α) (h : ∀ a, SamePixels (f a) (g a)) :
    SamePixels (l.flatMap f) (l.flatMap g) := by
  unfold SamePixels at *
  simp only [List.flatMap_assoc, h]

variable (cfg cfg' : Config)

/-- The pixels of an `EmitH` are those of its HRUN, under any configuration. -/
theorem runH (x y len c : Word) : SamePixels (runH cfg x y len c) (runH cfg' x y len c) := by
  by_cases h : len.toInt ≤ 0
  · rw [runH_of_nonpos h, runH_of_nonpos h]
    rfl
  · have hpos : 0 < len.toInt := by omega
    rw [SamePixels, runH_of_pos hpos, runH_of_pos hpos, pixels_forwarded_or_expanded, pixels_forwarded_or_expanded]

/-- The pixels of an `EmitV` are those of its VRUN, under any configuration. -/
theorem runV (x y len c : Word) : SamePixels (runV cfg x y len c) (runV cfg' x y len c) := by
  by_cases h : len.toInt ≤ 0
  · rw [runV_of_nonpos h, runV_of_nonpos h]
    rfl
  · have hpos : 0 < len.toInt := by omega
    rw [SamePixels, runV_of_pos hpos, runV_of_pos hpos, pixels_forwarded_or_expanded, pixels_forwarded_or_expanded]

theorem rectColumns (x y w h c : Word) : SamePixels (rectColumns cfg x y w h c) (rectColumns cfg' x y w h c) := by
  unfold Machine.rectColumns
  split
  · rfl
  · exact flatMap _ fun _ => runV ..

theorem stripRuns (cx cy : Word) (mask : BitVec 2) (delta c x y : Word) :
    SamePixels (stripRuns cfg cx cy mask delta c x y) (stripRuns cfg' cx cy mask delta c x y) := by
  unfold Machine.stripRuns
  refine append ?_ ?_
  · split
    · exact (runV ..).append (runV ..)
    · rfl
  · split
    · exact (runV ..).append (runV ..)
    · rfl

theorem diskStrips (cx cy r : Word) (mask : BitVec 2) (delta c : Word) :
    SamePixels (diskStrips cfg cx cy r mask delta c) (diskStrips cfg' cx cy r mask delta c) :=
  flatMap _ fun _ => stripRuns ..

theorem fillcircle (r : Regs) : SamePixels (fillcircleEmission cfg r) (fillcircleEmission cfg' r) := by
  unfold fillcircleEmission
  split
  · rfl
  · exact (runV ..).append (diskStrips ..)

theorem scanRequests (a b y c : Word) : SamePixels (scanRequests cfg a b y c) (scanRequests cfg' a b y c) := by
  unfold Machine.scanRequests
  split
  · exact runH ..
  · exact runH ..

theorem scanLines (t : TriRegs) (n : Nat) : SamePixels (scanLines cfg t n) (scanLines cfg' t n) :=
  flatMap _ fun _ => scanRequests ..

theorem sortedEmission (v : Vertices) (c : Word) :
    SamePixels (sortedEmission cfg v c) (sortedEmission cfg' v c) := by
  unfold Machine.sortedEmission
  split
  · exact runH ..
  · exact (scanLines ..).append (scanLines ..)

theorem rect (r : Regs) : SamePixels (rectEmission cfg r) (rectEmission cfg' r) :=
  (((runH ..).append (runH ..)).append (runV ..)).append (runV ..)

/-- The arcs of ROUNDRECT are PLOTs under every configuration (41_raster_circles.md R155). -/
theorem roundrect (r : Regs) : SamePixels (roundrectEmission cfg r) (roundrectEmission cfg' r) :=
  (((((((runH ..).append (runH ..)).append (runV ..)).append (runV ..)).append rfl).append rfl).append rfl).append rfl

theorem fillroundrect (r : Regs) : SamePixels (fillroundrectEmission cfg r) (fillroundrectEmission cfg' r) :=
  ((rectColumns ..).append (diskStrips ..)).append (diskStrips ..)

end SamePixels

/-- Settles O56: every command that emits runs is made of `EmitH`, `EmitV` and PLOTs. -/
theorem sinkRunsKeepsThePixels : Obligations.SinkRunsKeepsThePixels := by
  intro cfg r emission hmem
  simp only [List.mem_cons, List.not_mem_nil, or_false] at hmem
  rcases hmem with rfl | rfl | rfl | rfl | rfl | rfl | rfl | rfl | rfl
  · exact SamePixels.runH ..
  · exact SamePixels.runV ..
  · exact SamePixels.rect ..
  · exact SamePixels.rectColumns ..
  · exact SamePixels.fillcircle ..
  · exact SamePixels.diskStrips ..
  · exact SamePixels.roundrect ..
  · exact SamePixels.fillroundrect ..
  · exact SamePixels.sortedEmission ..

end Sys2Proof.Machine
end

section
/-! `LineCore` (40_raster_lines.md R120) as its observer sees it: how many PLOTs, where they begin and end, and that a
run is the line between its ends (R121).

After `k` iterations that stepped the minor axis `m` times, the error register holds `dx / 2 + m * dx - k * dy`, and it
stays in `[0, dx)`. So after the `dx` iterations between the endpoints the minor axis has stepped exactly `dy` times. -/

namespace Sys2Proof.Machine

/-! ## The loop's registers -/

theorem loopVar_add_one (a : Word) (k : Nat) : loopVar a (k + 1) = loopVar a k + 1 := by
  rw [loopVar, loopVar, BitVec.ofNat_add, BitVec.add_assoc]
  rfl

/-- An iteration whose error does not underflow moves along the major axis only (R120). -/
theorem lineStep_of_nonneg {l : LineRegs} (h : 0 ≤ (l.err - l.dy).toInt) :
    lineStep l = { l with xx := l.xx + 1, err := l.err - l.dy } := by
  simp only [lineStep, if_neg (by omega : ¬ (l.err - l.dy).toInt < 0)]

/-- An iteration whose error underflows moves along both axes (R120). -/
theorem lineStep_of_neg {l : LineRegs} (h : (l.err - l.dy).toInt < 0) :
    lineStep l = { l with xx := l.xx + 1, y := l.y + l.ystep, err := l.err - l.dy + l.dx } := by
  simp only [lineStep, if_pos h]

/-- The registers `k` iterations after `l`, `m` of which stepped the minor axis, with error `e`. -/
def lineAfter (l : LineRegs) (k m : Nat) (e : Word) : LineRegs :=
  { l with xx := loopVar l.xx k, y := l.y + BitVec.ofNat 16 m * l.ystep, err := e }

theorem lineAfter_zero (l : LineRegs) : lineAfter l 0 0 l.err = l := by
  simp [lineAfter, loopVar_zero]

/-- Whether the minor axis steps or not, the major axis does. -/
theorem lineStep_lineAfter (l : LineRegs) (k m : Nat) (e : Word) :
    lineStep (lineAfter l k m e) =
      if (e - l.dy).toInt < 0 then lineAfter l (k + 1) (m + 1) (e - l.dy + l.dx)
      else lineAfter l (k + 1) m (e - l.dy) := by
  by_cases hneg : (e - l.dy).toInt < 0
  · have hminor : BitVec.ofNat 16 (m + 1) * l.ystep = BitVec.ofNat 16 m * l.ystep + l.ystep := by
      rw [BitVec.ofNat_add, BitVec.add_mul]
      exact congrArg _ (BitVec.one_mul l.ystep)
    rw [if_pos hneg, lineStep_of_neg (l := lineAfter l k m e) hneg]
    simp only [lineAfter, loopVar_add_one, hminor, BitVec.add_assoc]
  · rw [if_neg hneg, lineStep_of_nonneg (l := lineAfter l k m e) (not_lt.mp hneg)]
    simp only [lineAfter, loopVar_add_one]

theorem exists_lineStep_iterate (l : LineRegs) (k : Nat) : ∃ m e, lineStep^[k] l = lineAfter l k m e := by
  induction k with
  | zero => exact ⟨0, l.err, (lineAfter_zero l).symm⟩
  | succ k ih =>
    obtain ⟨m, e, h⟩ := ih
    rw [Function.iterate_succ_apply', h, lineStep_lineAfter]
    split
    · exact ⟨_, _, rfl⟩
    · exact ⟨_, _, rfl⟩

/-! ## The error -/

/-- The registers of a line of slope at most one, with the error it starts with (R120). -/
structure LineStart (l : LineRegs) : Prop where
  dy_nonneg : 0 ≤ l.dy.toInt
  dy_le : l.dy.toInt ≤ l.dx.toInt
  err_eq : l.err.toInt = l.dx.toInt / 2

/-- The error after `k` iterations, `m` of which stepped the minor axis. -/
structure ErrAfter (l : LineRegs) (k m : Nat) (e : Word) : Prop where
  value : e.toInt = l.dx.toInt / 2 + m * l.dx.toInt - k * l.dy.toInt
  nonneg : 0 ≤ e.toInt
  lt_dx : e.toInt < l.dx.toInt

/-- One more iteration steps the minor axis exactly when that keeps the error in range. -/
theorem ErrAfter.step {l : LineRegs} (hl : LineStart l) {k m : Nat} {e : Word} (h : ErrAfter l k m e) :
    ∃ m' e', lineStep (lineAfter l k m e) = lineAfter l (k + 1) m' e' ∧ ErrAfter l (k + 1) m' e' := by
  obtain ⟨hdy, hle, -⟩ := hl
  obtain ⟨hvalue, hnonneg, hlt⟩ := h
  have hdx := BitVec.toInt_lt (x := l.dx)
  have hsub : (e - l.dy).toInt = e.toInt - l.dy.toInt := toInt_sub_of_fits (by omega) (by omega)
  rw [lineStep_lineAfter]
  split
  · next hneg =>
    have hadd : (e - l.dy + l.dx).toInt = e.toInt - l.dy.toInt + l.dx.toInt := by
      rw [toInt_add_of_fits, hsub] <;> omega
    refine ⟨_, _, rfl, ?_, by omega, by omega⟩
    rw [hadd, hvalue]
    push_cast
    ring
  · next hpos =>
    refine ⟨_, _, rfl, ?_, by omega, by omega⟩
    rw [hsub, hvalue]
    push_cast
    ring

theorem exists_errAfter {l : LineRegs} (hl : LineStart l) (hdx : 0 < l.dx.toInt) (k : Nat) :
    ∃ m e, lineStep^[k] l = lineAfter l k m e ∧ ErrAfter l k m e := by
  induction k with
  | zero =>
    have herr := hl.err_eq
    exact ⟨0, l.err, (lineAfter_zero l).symm, by simpa using herr, by omega, by omega⟩
  | succ k ih =>
    obtain ⟨m, e, hk, herr⟩ := ih
    rw [Function.iterate_succ_apply', hk]
    exact herr.step hl

/-- An error in range leaves one choice of the minor steps. -/
theorem eq_of_err_in_range {a b d : Int} (hnonneg : 0 ≤ d / 2 + a * d - b * d) (hlt : d / 2 + a * d - b * d < d) :
    a = b := by
  have hd : 0 < d := by omega
  have hdiv : (d / 2 + (a - b) * d) / d = a - b := by
    rw [Int.add_mul_ediv_right _ _ hd.ne', Int.ediv_eq_zero_of_lt, zero_add] <;> omega
  rw [Int.ediv_eq_zero_of_lt (by linarith) (by linarith)] at hdiv
  omega

/-- A line without minor extent never steps its minor axis. -/
theorem lineStep_iterate_of_flat {l : LineRegs} (hl : LineStart l) (hdy : l.dy.toInt = 0) {k : Nat}
    (hk : k ≤ l.dx.toInt) : ∃ e, lineStep^[k] l = lineAfter l k 0 e := by
  cases k with
  | zero => exact ⟨l.err, (lineAfter_zero l).symm⟩
  | succ k =>
    obtain ⟨m, e, hit, hvalue, hnonneg, hlt⟩ := exists_errAfter hl (by omega) (k + 1)
    rw [hdy] at hvalue
    have hm : (m : Int) = 0 := eq_of_err_in_range (d := l.dx.toInt) (by linarith) (by linarith)
    exact ⟨e, Int.natCast_eq_zero.mp hm ▸ hit⟩

/-- At the far end of the major axis the minor axis has stepped its whole extent. -/
theorem lineStep_iterate_dx {l : LineRegs} (hl : LineStart l) :
    ∃ e, lineStep^[l.dx.toInt.toNat] l = lineAfter l l.dx.toInt.toNat l.dy.toInt.toNat e := by
  have hdy := hl.dy_nonneg
  have hle := hl.dy_le
  by_cases hdx : 0 < l.dx.toInt
  · obtain ⟨m, e, hit, hvalue, hnonneg, hlt⟩ := exists_errAfter hl hdx l.dx.toInt.toNat
    rw [Int.toNat_of_nonneg hdx.le, mul_comm l.dx.toInt l.dy.toInt] at hvalue
    have hm : (m : Int) = l.dy.toInt := eq_of_err_in_range (hvalue ▸ hnonneg) (hvalue ▸ hlt)
    exact ⟨e, by rw [hit, ← hm, Int.toNat_natCast]⟩
  · have hdx0 : l.dx.toInt = 0 := by omega
    have hdy0 : l.dy.toInt = 0 := by omega
    rw [hdx0, hdy0]
    exact ⟨l.err, (lineAfter_zero l).symm⟩

/-! ## The endpoints -/

/-- The PLOT at `xx` along the major axis and `y` along the minor one (R120). -/
def axisPlot (steep : Bool) (xx y c : Word) : SinkReq := if steep then .plot y xx c else .plot xx y c

theorem linePlot_lineAfter (l : LineRegs) (k m : Nat) (e : Word) :
    linePlot (lineAfter l k m e) = axisPlot l.steep (loopVar l.xx k) (l.y + BitVec.ofNat 16 m * l.ystep) l.c := rfl

/-- PLOTs at different places along the major axis differ. -/
theorem major_eq_of_axisPlot_eq {steep : Bool} {xx xx' y y' c : Word}
    (h : axisPlot steep xx y c = axisPlot steep xx' y' c) : xx = xx' := by
  cases steep
  · exact (SinkReq.plot.inj h).1
  · exact (SinkReq.plot.inj h).2.1

theorem orderMajor_cases (g : Segment) :
    (g.x0.toInt ≤ g.x1.toInt ∧ orderMajor g = g) ∨
      (g.x1.toInt < g.x0.toInt ∧ orderMajor g = ⟨g.x1, g.y1, g.x0, g.y0⟩) := by
  unfold orderMajor
  split
  · exact .inr ⟨‹_›, rfl⟩
  · exact .inl ⟨not_lt.mp ‹_›, rfl⟩

/-- Normalisation keeps the two endpoints, in one order or the other (R120). -/
theorem normalised_ends (x0 y0 x1 y1 c : Word) :
    let g := normalised x0 y0 x1 y1
    let steep := segmentSteep ⟨x0, y0, x1, y1⟩
    (axisPlot steep g.x0 g.y0 c = .plot x0 y0 c ∧ axisPlot steep g.x1 g.y1 c = .plot x1 y1 c) ∨
      (axisPlot steep g.x0 g.y0 c = .plot x1 y1 c ∧ axisPlot steep g.x1 g.y1 c = .plot x0 y0 c) := by
  intro g steep
  have hg : g = orderMajor (if steep then ⟨y0, x0, y1, x1⟩ else ⟨x0, y0, x1, y1⟩) := rfl
  rcases orderMajor_cases (if steep then ⟨y0, x0, y1, x1⟩ else ⟨x0, y0, x1, y1⟩) with ⟨-, h⟩ | ⟨-, h⟩
  · left
    rw [hg, h]
    cases steep <;> exact ⟨rfl, rfl⟩
  · right
    rw [hg, h]
    cases steep <;> exact ⟨rfl, rfl⟩

/-- A segment in order along its major axis, `n` long on it, of slope at most one. -/
structure Gentle (g : Segment) (n : Nat) : Prop where
  extent : g.x1.toInt - g.x0.toInt = n
  extent_le : n ≤ 32767
  slope : (g.y1.toInt - g.y0.toInt).natAbs ≤ n

theorem gentle_orderMajor {g : Segment} (hx : (g.x1.toInt - g.x0.toInt).natAbs ≤ 32767)
    (hslope : (g.y1.toInt - g.y0.toInt).natAbs ≤ (g.x1.toInt - g.x0.toInt).natAbs) :
    Gentle (orderMajor g) (g.x1.toInt - g.x0.toInt).natAbs := by
  rcases orderMajor_cases g with ⟨hord, h⟩ | ⟨hord, h⟩
  · rw [h]
    exact ⟨by omega, hx, hslope⟩
  · rw [h]
    exact ⟨by dsimp only; omega, hx, by dsimp only; omega⟩

section
variable {x0 y0 x1 y1 : Word} (hx : (x1.toInt - x0.toInt).natAbs ≤ 32767) (hy : (y1.toInt - y0.toInt).natAbs ≤ 32767)
include hx hy

/-- `abs16` is exact where the differences fit (R9, R120). -/
theorem segmentSteep_iff :
    segmentSteep ⟨x0, y0, x1, y1⟩ = true ↔ (x1.toInt - x0.toInt).natAbs < (y1.toInt - y0.toInt).natAbs := by
  have hdx : (x1 - x0).toInt = x1.toInt - x0.toInt := toInt_sub_of_fits (by omega) (by omega)
  have hdy : (y1 - y0).toInt = y1.toInt - y0.toInt := toInt_sub_of_fits (by omega) (by omega)
  rw [segmentSteep, decide_eq_true_iff]
  dsimp only
  rw [toInt_abs16 (by omega), toInt_abs16 (by omega), hdx, hdy]
  omega

/-- The normalised line is as long as the larger difference. -/
theorem gentle_normalised :
    Gentle (normalised x0 y0 x1 y1) (max (x1.toInt - x0.toInt).natAbs (y1.toInt - y0.toInt).natAbs) := by
  have hsteep := segmentSteep_iff hx hy
  rw [normalised, transposeSteep]
  split
  · next h =>
    have hlt := hsteep.mp h
    rw [max_eq_right hlt.le]
    exact gentle_orderMajor hy hlt.le
  · next h =>
    have hle := not_lt.mp (mt hsteep.mpr h)
    rw [max_eq_left hle]
    exact gentle_orderMajor hx hle

end

/-- The minor axis moves by its signed difference (R120). -/
theorem abs16_mul_sign {a b : Word} (h : (b.toInt - a.toInt).natAbs ≤ 32767) :
    abs16 (b - a) * (if a.toInt < b.toInt then 1 else -1) = b - a := by
  have hsub : (b - a).toInt = b.toInt - a.toInt := toInt_sub_of_fits (by omega) (by omega)
  unfold abs16
  split
  · rw [if_neg (by omega)]
    ring
  · split
    · exact BitVec.mul_one _
    · have hab : b = a := BitVec.toInt_inj.mp (by omega)
      rw [hab, BitVec.sub_self, BitVec.zero_mul]

section
variable {g : Segment} {n : Nat} (h : Gentle g n) (steep : Bool) (c : Word)
include h

theorem Gentle.dx_eq : (lineRegs steep g c).dx.toInt = n := by
  obtain ⟨hext, hle, -⟩ := h
  exact (toInt_sub_of_fits (by omega) (by omega)).trans hext

theorem Gentle.dy_eq : (lineRegs steep g c).dy.toInt = (g.y1.toInt - g.y0.toInt).natAbs := by
  obtain ⟨-, hle, hslope⟩ := h
  have hsub : (g.y1 - g.y0).toInt = g.y1.toInt - g.y0.toInt := toInt_sub_of_fits (by omega) (by omega)
  rw [lineRegs, toInt_abs16 (by omega), hsub]

theorem Gentle.lineStart : LineStart (lineRegs steep g c) where
  dy_nonneg := by rw [h.dy_eq]; omega
  dy_le := by rw [h.dy_eq, h.dx_eq]; exact_mod_cast h.slope
  err_eq := toInt_tdiv16_two (h.dx_eq steep c ▸ Int.natCast_nonneg n)

/-- The PLOT after `n` iterations is the far endpoint. -/
theorem Gentle.last_plot : linePlot (lineStep^[n] (lineRegs steep g c)) = axisPlot steep g.x1 g.y1 c := by
  have hstart := h.lineStart steep c
  obtain ⟨e, hit⟩ := lineStep_iterate_dx hstart
  rw [h.dx_eq, Int.toNat_natCast] at hit
  have hx : loopVar g.x0 n = g.x1 := by
    have hext := h.extent
    have hfits := BitVec.toInt_lt (x := g.x1)
    exact BitVec.toInt_inj.mp ((toInt_loopVar_of_fits (by omega)).trans (by omega))
  have hy : g.y0 + abs16 (g.y1 - g.y0) * (if g.y0.toInt < g.y1.toInt then 1 else -1) = g.y1 := by
    rw [abs16_mul_sign (h.slope.trans h.extent_le)]
    ring
  rw [hit, linePlot_lineAfter, ofNat_toInt_of_nonneg hstart.dy_nonneg]
  exact congrArg₂ (axisPlot steep · · c) hx hy

end

/-! ## The PLOTs of a line -/

/-- A normalised line of extent `n` is one PLOT per iteration, `n + 1` of them (R120). -/
theorem linePlots_of_gentle {x0 y0 x1 y1 : Word} {n : Nat} (h : Gentle (normalised x0 y0 x1 y1) n) (c : Word) :
    linePlots x0 y0 x1 y1 c =
      (List.range (n + 1)).map fun k =>
        linePlot (lineStep^[k] (lineRegs (segmentSteep ⟨x0, y0, x1, y1⟩) (normalised x0 y0 x1 y1) c)) := by
  have hcount : loopCount (normalised x0 y0 x1 y1).x0.toInt (normalised x0 y0 x1 y1).x1.toInt = n + 1 := by
    have hext := h.extent
    unfold loopCount
    omega
  unfold linePlots
  simp only [hcount]

/-- No two iterations plot the same place: the major axis moves every time and does not wrap. -/
theorem Gentle.nodup_plots {g : Segment} {n : Nat} (h : Gentle g n) (steep : Bool) (c : Word) :
    ((List.range (n + 1)).map fun k => linePlot (lineStep^[k] (lineRegs steep g c))).Nodup := by
  have hfits : g.x0.toInt + n ≤ 32767 := by
    have hext := h.extent
    have hlt := BitVec.toInt_lt (x := g.x1)
    omega
  refine List.nodup_range.map_on fun j hj k hk heq => ?_
  rw [List.mem_range] at hj hk
  obtain ⟨m, e, hit⟩ := exists_lineStep_iterate (lineRegs steep g c) j
  obtain ⟨m', e', hit'⟩ := exists_lineStep_iterate (lineRegs steep g c) k
  rw [hit, hit', linePlot_lineAfter, linePlot_lineAfter] at heq
  have hxx : (loopVar g.x0 j).toInt = (loopVar g.x0 k).toInt := congrArg BitVec.toInt (major_eq_of_axisPlot_eq heq)
  rw [toInt_loopVar_of_fits (by omega), toInt_loopVar_of_fits (by omega)] at hxx
  omega

/-- Settles O54: the normalised line has one iteration per place of its major axis, the first plots one endpoint and the
last the other. -/
theorem lineEmitsSpanPlusOne : Obligations.LineEmitsSpanPlusOne := by
  intro x0 y0 x1 y1 c hx hy ps
  have hg := gentle_normalised hx hy
  have hends := normalised_ends x0 y0 x1 y1 c
  have hps : ps = _ := linePlots_of_gentle hg c
  generalize normalised x0 y0 x1 y1 = g at hg hends hps
  generalize segmentSteep ⟨x0, y0, x1, y1⟩ = steep at hends hps
  generalize max (x1.toInt - x0.toInt).natAbs (y1.toInt - y0.toInt).natAbs = n at hg hps ⊢
  have hfirst : axisPlot steep g.x0 g.y0 c ∈ ps := hps ▸ List.mem_map.mpr ⟨0, by simp, rfl⟩
  have hlast : axisPlot steep g.x1 g.y1 c ∈ ps := hps ▸ List.mem_map.mpr ⟨n, by simp, hg.last_plot steep c⟩
  refine ⟨by simp [hps], hps ▸ hg.nodup_plots steep c, ?_⟩
  rcases hends with ⟨h0, h1⟩ | ⟨h1, h0⟩
  · exact ⟨h0 ▸ hfirst, h1 ▸ hlast⟩
  · exact ⟨h0 ▸ hlast, h1 ▸ hfirst⟩

/-! ## A run is the line between its ends -/

theorem normalised_of_not_steep {x0 y0 x1 y1 : Word} (hsteep : segmentSteep ⟨x0, y0, x1, y1⟩ = false)
    (hord : x0.toInt ≤ x1.toInt) : normalised x0 y0 x1 y1 = ⟨x0, y0, x1, y1⟩ := by
  rw [normalised, transposeSteep, hsteep]
  exact if_neg (not_lt.mpr hord)

theorem normalised_of_steep {x0 y0 x1 y1 : Word} (hsteep : segmentSteep ⟨x0, y0, x1, y1⟩ = true)
    (hord : y0.toInt ≤ y1.toInt) : normalised x0 y0 x1 y1 = ⟨y0, x0, y1, x1⟩ := by
  rw [normalised, transposeSteep, hsteep]
  exact if_neg (not_lt.mpr hord)

/-- A line without minor extent plots its major axis place by place. -/
theorem linePlots_of_flat {x0 y0 x1 y1 a b v : Word} {n : Nat} (hnorm : normalised x0 y0 x1 y1 = ⟨a, v, b, v⟩)
    (hext : b.toInt - a.toInt = n) (hle : n ≤ 32767) (c : Word) :
    linePlots x0 y0 x1 y1 c =
      (List.range (n + 1)).map fun k => axisPlot (segmentSteep ⟨x0, y0, x1, y1⟩) (loopVar a k) v c := by
  have hg : Gentle ⟨a, v, b, v⟩ n := ⟨hext, hle, by simp⟩
  rw [linePlots_of_gentle (hnorm ▸ hg), hnorm]
  refine List.map_congr_left fun k hk => ?_
  have hk : (k : Int) ≤ n := by have := List.mem_range.mp hk; omega
  have hdy := hg.dy_eq (segmentSteep ⟨x0, y0, x1, y1⟩) c
  rw [sub_self] at hdy
  obtain ⟨e, hit⟩ := lineStep_iterate_of_flat (hg.lineStart _ c) hdy (hg.dx_eq _ c ▸ hk)
  rw [hit, linePlot_lineAfter]
  simp [lineRegs]

/-- The last place of a run that does not wrap. -/
theorem toInt_run_end {a len : Word} (hpos : 1 ≤ len.toInt) (hfits : a.toInt + len.toInt - 1 ≤ 32767) :
    (a + len - 1).toInt = a.toInt + (len.toInt - 1) := by
  have ha := BitVec.le_toInt a
  have hlen := BitVec.toInt_lt (x := len)
  have hone : (1 : Word).toInt = 1 := rfl
  have hsub : (len - 1).toInt = len.toInt - 1 := by rw [toInt_sub_of_fits, hone] <;> omega
  rw [add_sub_assoc, toInt_add_of_fits, hsub] <;> omega

section
variable {cfg : Config} {x y len : Word} (hcfg : cfg.sinkRuns = false) (hpos : 1 ≤ len.toInt)
include hcfg hpos

/-- A horizontal run is flat, and not steep. -/
theorem runH_eq_linePlots (hfits : x.toInt + len.toInt - 1 ≤ 32767) (c : Word) :
    runH cfg x y len c = linePlots x y (x + len - 1) y c := by
  have hend := toInt_run_end hpos hfits
  have hlen := BitVec.toInt_lt (x := len)
  have hsteep : segmentSteep ⟨x, y, x + len - 1, y⟩ = false :=
    Bool.eq_false_iff.mpr (mt (segmentSteep_iff (by omega) (by omega)).mp (by omega))
  have hcount : len.toInt.toNat = len.toInt.toNat - 1 + 1 := by omega
  rw [linePlots_of_flat (normalised_of_not_steep hsteep (by omega)) (n := len.toInt.toNat - 1) (by omega) (by omega),
    ← hcount, hsteep, runH_of_pos (by omega), hcfg]
  simp [reqPlots, reqPixels, axisPlot]

/-- A vertical run of more than one pixel is flat along its own axis, and steep. -/
theorem runV_eq_linePlots_of_long (hlong : 1 < len.toInt) (hfits : y.toInt + len.toInt - 1 ≤ 32767) (c : Word) :
    runV cfg x y len c = linePlots x y x (y + len - 1) c := by
  have hend := toInt_run_end hpos hfits
  have hlen := BitVec.toInt_lt (x := len)
  have hsteep : segmentSteep ⟨x, y, x, y + len - 1⟩ = true := (segmentSteep_iff (by omega) (by omega)).mpr (by omega)
  have hcount : len.toInt.toNat = len.toInt.toNat - 1 + 1 := by omega
  rw [linePlots_of_flat (normalised_of_steep hsteep (by omega)) (n := len.toInt.toNat - 1) (by omega) (by omega),
    ← hcount, hsteep, runV_of_pos (by omega), hcfg]
  simp [reqPlots, reqPixels, axisPlot]

/-- A run of one pixel has no direction. -/
theorem runV_eq_runH_of_one (hone : len = 1) (c : Word) : runV cfg x y len c = runH cfg x y len c := by
  subst hone
  rw [runV_of_pos hpos, runH_of_pos hpos, hcfg]
  simp [reqPlots, reqPixels, loopVar_zero]

end

/-- Settles O55: a run has no extent across its own direction, so its line's error never underflows. -/
theorem runExpandsToItsLine : Obligations.RunExpandsToItsLine := by
  intro cfg x y len c hcfg hpos
  refine ⟨fun hfits => runH_eq_linePlots hcfg hpos hfits c, fun hfits => ?_⟩
  by_cases hlong : 1 < len.toInt
  · exact runV_eq_linePlots_of_long hcfg hpos hlong hfits c
  · have hone : len = 1 := BitVec.toInt_inj.mp (by simp; omega)
    have hx := BitVec.toInt_lt (x := x)
    rw [runV_eq_runH_of_one hcfg hpos hone, runH_eq_linePlots hcfg hpos (by omega), hone, BitVec.add_sub_cancel,
      BitVec.add_sub_cancel]

end Sys2Proof.Machine
end

section
/-! FILLTRIANGLE's scanlines (42_raster_triangles.md R181): one run per scanline, ascending, each of at least one pixel.

Every intercept lies between the ends of its edge, hence between the least and the greatest x of the vertices
(`rowBounds`). These are at most 32766 apart, so no run's length wraps. -/

namespace Sys2Proof.Machine

/-! ## The vertices -/

/-- The abscissae of the vertices. -/
def Vertices.xs (v : Vertices) : List Word := [v.x0, v.x1, v.x2]

theorem Vertices.x0_mem (v : Vertices) : v.x0 ∈ v.xs := List.mem_cons_self

theorem Vertices.x1_mem (v : Vertices) : v.x1 ∈ v.xs := List.mem_cons_of_mem _ List.mem_cons_self

theorem Vertices.x2_mem (v : Vertices) : v.x2 ∈ v.xs := by simp [Vertices.xs]

theorem swap01_spec (v : Vertices) :
    (swap01 v).xs.Perm v.xs ∧ (swap01 v).y0.toInt = min v.y0.toInt v.y1.toInt ∧
      (swap01 v).y1.toInt = max v.y0.toInt v.y1.toInt ∧ (swap01 v).y2 = v.y2 := by
  unfold swap01
  split
  · exact ⟨List.Perm.swap .., by dsimp only; omega, by dsimp only; omega, rfl⟩
  · exact ⟨.refl _, by omega, by omega, rfl⟩

theorem swap12_spec (v : Vertices) :
    (swap12 v).xs.Perm v.xs ∧ (swap12 v).y0 = v.y0 ∧ (swap12 v).y1.toInt = min v.y1.toInt v.y2.toInt ∧
      (swap12 v).y2.toInt = max v.y1.toInt v.y2.toInt := by
  unfold swap12
  split
  · exact ⟨(List.Perm.swap ..).cons _, rfl, by dsimp only; omega, by dsimp only; omega⟩
  · exact ⟨.refl _, rfl, by omega, by omega⟩

/-- Sorting keeps the vertices (R181 step 1). -/
theorem xs_sortByY_perm (v : Vertices) : (sortByY v).xs.Perm v.xs :=
  ((swap01_spec _).1.trans (swap12_spec _).1).trans (swap01_spec v).1

/-- Three compare-swaps sort (R181 step 1). -/
theorem sortByY_sorted (v : Vertices) :
    (sortByY v).y0.toInt ≤ (sortByY v).y1.toInt ∧ (sortByY v).y1.toInt ≤ (sortByY v).y2.toInt := by
  obtain ⟨-, ha0, ha1, ha2⟩ := swap01_spec v
  obtain ⟨-, hb0, hb1, hb2⟩ := swap12_spec (swap01 v)
  obtain ⟨-, hc0, hc1, hc2⟩ := swap01_spec (swap12 (swap01 v))
  unfold sortByY
  rw [hc0, hc1, hc2, hb0, hb1, hb2, ha0, ha1, ha2]
  omega

/-- `x` lies within the bounds `b`. -/
def WithinBounds (b : Word × Word) (x : Word) : Prop := b.1.toInt ≤ x.toInt ∧ x.toInt ≤ b.2.toInt

/-- Widening takes in `x` and gives up nothing (R181 step 2). -/
theorem withinBounds_widen {b : Word × Word} (x : Word) (hb : b.1.toInt ≤ b.2.toInt) :
    WithinBounds (widen b x) x ∧ ∀ z, WithinBounds b z → WithinBounds (widen b x) z := by
  unfold widen WithinBounds
  split
  · exact ⟨by dsimp only; omega, fun z hz => by dsimp only; omega⟩
  · split
    · exact ⟨by dsimp only; omega, fun z hz => by dsimp only; omega⟩
    · exact ⟨by omega, fun z hz => hz⟩

/-- The bounds hold every vertex (R181 step 2). -/
theorem withinBounds_rowBounds (v : Vertices) : ∀ x ∈ v.xs, WithinBounds (rowBounds v) x := by
  obtain ⟨h1, hkeep1⟩ := withinBounds_widen (b := (v.x0, v.x0)) v.x1 le_rfl
  obtain ⟨h2, hkeep2⟩ := withinBounds_widen (b := widen (v.x0, v.x0) v.x1) v.x2 (h1.1.trans h1.2)
  simp only [Vertices.xs, List.mem_cons, List.not_mem_nil, or_false, forall_eq_or_imp, forall_eq]
  exact ⟨hkeep2 _ (hkeep1 _ ⟨le_rfl, le_rfl⟩), hkeep2 _ h1, h2⟩

/-- Each bound is a vertex's (R181 step 2). -/
theorem rowBounds_mem (v : Vertices) : (rowBounds v).1 ∈ v.xs ∧ (rowBounds v).2 ∈ v.xs := by
  have hwiden : ∀ (b : Word × Word) (x : Word), b.1 ∈ v.xs → b.2 ∈ v.xs → x ∈ v.xs →
      (widen b x).1 ∈ v.xs ∧ (widen b x).2 ∈ v.xs := by
    intro b x hlo hhi hx
    unfold widen
    split
    · exact ⟨hx, hhi⟩
    · split
      · exact ⟨hlo, hx⟩
      · exact ⟨hlo, hhi⟩
  obtain ⟨hlo, hhi⟩ := hwiden (v.x0, v.x0) v.x1 v.x0_mem v.x0_mem v.x1_mem
  exact hwiden _ v.x2 hlo hhi v.x2_mem

/-! ## Intercepts -/

/-- A fraction of a difference lies between nothing and all of it, whatever its sign. -/
theorem tdiv_mul_between {k n d : Int} (hk : 0 ≤ k) (hkn : k ≤ n) (hn : 0 < n) :
    min 0 d ≤ (k * d).tdiv n ∧ (k * d).tdiv n ≤ max 0 d := by
  have hfrac : ∀ e : Int, 0 ≤ e → 0 ≤ (k * e).tdiv n ∧ (k * e).tdiv n ≤ e := by
    intro e he
    have hke : 0 ≤ k * e := mul_nonneg hk he
    rw [Int.tdiv_eq_ediv_of_nonneg hke]
    exact ⟨Int.ediv_nonneg hke hn.le, Int.ediv_le_of_le_mul hn (by nlinarith)⟩
  rcases le_total 0 d with hd | hd
  · have := hfrac d hd
    omega
  · have := hfrac (-d) (by omega)
    rw [mul_neg, Int.neg_tdiv] at this
    omega

/-- The intercept is exact where its value fits (R181). -/
theorem toInt_intercept {x dy : Word} {s : Word32} (hlo : -32768 ≤ x.toInt + s.toInt.tdiv dy.toInt)
    (hhi : x.toInt + s.toInt.tdiv dy.toInt ≤ 32767) :
    (intercept x s dy).toInt = x.toInt + s.toInt.tdiv dy.toInt := by
  have hx := BitVec.toInt_lt (x := x)
  have hx' := BitVec.le_toInt x
  have hquot : (tdiv32 s (sext32 dy)).toInt = s.toInt.tdiv dy.toInt := by
    rw [tdiv32, toInt_sext32, BitVec.toInt_ofInt, Int.bmod_eq_of_le_mul_two] <;> omega
  have hsum : (sext32 x + tdiv32 s (sext32 dy)).toInt = x.toInt + s.toInt.tdiv dy.toInt := by
    rw [BitVec.toInt_add, hquot, toInt_sext32, Int.bmod_eq_of_le_mul_two] <;> omega
  rw [intercept, toInt_low16_of_fits, hsum] <;> omega

/-- An edge whose both ends lie within `b`, from the scanline that is `m` below its start for `n` scanlines, none of
them below its end. -/
structure EdgeWithin (b : Word × Word) (x d dy : Word) (s : Word32) (m n : Nat) : Prop where
  start_within : WithinBounds b x
  end_within : b.1.toInt ≤ x.toInt + d.toInt ∧ x.toInt + d.toInt ≤ b.2.toInt
  numerator : s.toInt = m * d.toInt
  above_end : 0 < n → (m : Int) + n ≤ dy.toInt + 1
  falls : 0 < n → 0 < dy.toInt

/-- A row below 32768 times a 16-bit difference fits in 32 bits. -/
theorem row_mul_difference_fits {j : Int} (d : Word) (hj : 0 ≤ j) (hj' : j ≤ 32767) :
    -2 ^ 30 ≤ j * d.toInt ∧ j * d.toInt ≤ 2 ^ 30 := by
  have hd : d.toInt ≤ 32767 := by have := BitVec.toInt_lt (x := d); omega
  have hd' : -32768 ≤ d.toInt := BitVec.le_toInt d
  exact ⟨by nlinarith, by nlinarith⟩

theorem toInt_sext32_mul_row (d : Word) {e : Word} (he : 0 ≤ e.toInt) :
    (sext32 d * sext32 e).toInt = e.toInt * d.toInt := by
  have hrow := BitVec.toInt_lt (x := e)
  have hfits := row_mul_difference_fits d he (by omega)
  rw [BitVec.toInt_mul, toInt_sext32, toInt_sext32, mul_comm, Int.bmod_eq_of_le_mul_two] <;> omega

/-- The numerator of an edge's `k`-th scanline does not wrap. -/
theorem EdgeWithin.toInt_numerator {b : Word × Word} {x d dy : Word} {s : Word32} {m n k : Nat}
    (h : EdgeWithin b x d dy s m n) (hk : k < n) :
    (s + BitVec.ofNat 32 k * sext32 d).toInt = ((m + k : Nat) : Int) * d.toInt := by
  have habove := h.above_end (by omega)
  have hdy := BitVec.toInt_lt (x := dy)
  have hfits := row_mul_difference_fits (j := ((m + k : Nat) : Int)) d (by omega) (by omega)
  have hkint : (BitVec.ofNat 32 k).toInt = k := by
    rw [BitVec.toInt_ofNat', Int.bmod_eq_of_le_mul_two] <;> omega
  rw [BitVec.toInt_add, BitVec.toInt_mul, Int.add_bmod_bmod, hkint, toInt_sext32, h.numerator, ← add_mul,
    ← Nat.cast_add, Int.bmod_eq_of_le_mul_two] <;> omega

/-- No intercept leaves the bounds of its edge (R181). -/
theorem EdgeWithin.intercept_within {b : Word × Word} {x d dy : Word} {s : Word32} {m n k : Nat}
    (h : EdgeWithin b x d dy s m n) (hk : k < n) :
    WithinBounds b (intercept x (s + BitVec.ofNat 32 k * sext32 d) dy) := by
  obtain ⟨hx, hx'⟩ := h.start_within
  obtain ⟨hend, hend'⟩ := h.end_within
  have habove := h.above_end (by omega)
  have hnum := h.toInt_numerator hk
  have hfrac := tdiv_mul_between (k := ((m + k : Nat) : Int)) (d := d.toInt) (by omega) (by omega) (h.falls (by omega))
  have hlo := BitVec.le_toInt b.1
  have hhi := BitVec.toInt_lt (x := b.2)
  rw [← hnum] at hfrac
  unfold WithinBounds
  rw [toInt_intercept (by omega) (by omega)]
  omega

/-! ## Scanlines -/

/-- The requests are runs on the scanlines `rows`, one on each in order and of at least one pixel, forwarded or expanded
as the configuration says (R121, R181). -/
def ScansRows (cfg : Config) (rows : List Word) (rs : List SinkReq) : Prop :=
  ∃ runs : List SinkReq, runs.map runRow = rows.map some ∧
    (∀ q ∈ runs, ∃ len, runLength q = some len ∧ 1 ≤ len.toInt) ∧
    rs = if cfg.sinkRuns then runs else runs.flatMap reqPlots

namespace ScansRows

variable {cfg : Config}

theorem nil : ScansRows cfg [] [] := ⟨[], rfl, by simp, by simp⟩

theorem append {rows rows' : List Word} {rs rs' : List SinkReq} (h : ScansRows cfg rows rs)
    (h' : ScansRows cfg rows' rs') : ScansRows cfg (rows ++ rows') (rs ++ rs') := by
  obtain ⟨runs, hrows, hlen, rfl⟩ := h
  obtain ⟨runs', hrows', hlen', rfl⟩ := h'
  refine ⟨runs ++ runs', by rw [List.map_append, List.map_append, hrows, hrows'], ?_, ?_⟩
  · exact fun q hq => (List.mem_append.mp hq).elim (hlen q) (hlen' q)
  · split
    · rfl
    · exact List.flatMap_append.symm

/-- A run that reaches from one abscissa to another not left of it has a pixel. -/
theorem run {a b : Word} (y c : Word) (hab : a.toInt ≤ b.toInt) (hfits : b.toInt - a.toInt ≤ 32766) :
    ScansRows cfg [y] (runH cfg a y (b - a + 1) c) := by
  have hone : (1 : Word).toInt = 1 := rfl
  have hsub : (b - a).toInt = b.toInt - a.toInt := toInt_sub_of_fits (by omega) (by omega)
  have hlen : 1 ≤ (b - a + 1).toInt := by rw [toInt_add_of_fits, hsub, hone] <;> omega
  refine ⟨[.hrun a y (b - a + 1) c], rfl, by simpa [runLength] using hlen, ?_⟩
  rw [runH_of_pos (by omega), List.flatMap_singleton]

theorem flatMap_range {n : Nat} {row : Nat → Word} {rs : Nat → List SinkReq}
    (h : ∀ k < n, ScansRows cfg [row k] (rs k)) :
    ScansRows cfg ((List.range n).map row) ((List.range n).flatMap rs) := by
  induction n with
  | zero => exact nil
  | succ n ih =>
    rw [List.range_succ, List.map_append, List.flatMap_append]
    refine (ih fun k hk => h k (by omega)).append ?_
    simpa using h n (by omega)

end ScansRows

/-- The run between two intercepts has a pixel, in whichever order they come (R181). -/
theorem scansRows_scanRequests {cfg : Config} {b : Word × Word} {a a' : Word} (y c : Word) (ha : WithinBounds b a)
    (ha' : WithinBounds b a') (hfits : b.2.toInt - b.1.toInt ≤ 32766) :
    ScansRows cfg [y] (scanRequests cfg a a' y c) := by
  obtain ⟨hlo, hhi⟩ := ha
  obtain ⟨hlo', hhi'⟩ := ha'
  unfold scanRequests
  split
  · exact .run y c (by omega) (by omega)
  · exact .run y c (by omega) (by omega)

/-- A scan loop draws its scanlines one by one (R181). -/
theorem scansRows_scanLines {cfg : Config} {b : Word × Word} {t : TriRegs} {m m' n : Nat}
    (ha : EdgeWithin b t.xa t.dxa t.dya t.sa m n) (hb : EdgeWithin b t.xb t.dxb t.dyb t.sb m' n)
    (hfits : b.2.toInt - b.1.toInt ≤ 32766) :
    ScansRows cfg ((List.range n).map (loopVar t.y)) (scanLines cfg t n) :=
  .flatMap_range fun _ hk => scansRows_scanRequests _ _ (ha.intercept_within hk) (hb.intercept_within hk) hfits

/-! ## The triangle -/

theorem loopVar_loopVar (a : Word) (j k : Nat) : loopVar (loopVar a j) k = loopVar a (j + k) := by
  rw [loopVar, loopVar, loopVar, BitVec.ofNat_add, BitVec.add_assoc]

/-- A loop from `a` has the value `b` after `b - a` turns. -/
theorem loopVar_toNat_sub {a b : Word} (h : a.toInt ≤ b.toInt) : loopVar a (b.toInt - a.toInt).toNat = b := by
  have hb := BitVec.toInt_lt (x := b)
  exact BitVec.toInt_inj.mp ((toInt_loopVar_of_fits (by omega)).trans (by omega))

theorem upperLast_cases (v : Vertices) :
    (v.y1.toInt = v.y2.toInt ∧ upperLast v = v.y1.toInt) ∨
      (v.y1.toInt ≠ v.y2.toInt ∧ upperLast v = v.y1.toInt - 1) := by
  unfold upperLast
  split
  · next h => exact .inl ⟨congrArg _ h, rfl⟩
  · next h => exact .inr ⟨mt BitVec.toInt_inj.mp h, rfl⟩

/-- The lower part starts at the middle vertex unless that is as low as the last (R181 step 5). -/
theorem lowerStart_of_lt {v : Vertices} (hlt : v.y1.toInt < v.y2.toInt) : lowerStart v = v.y1 := by
  have hlast : upperLast v + 1 = v.y1.toInt := by
    rcases upperLast_cases v with ⟨hy, hl⟩ | ⟨hy, hl⟩ <;> omega
  rw [lowerStart, hlast, BitVec.ofInt_toInt]

/-- A triangle with its vertices in order of y, `height + 1` scanlines high, none of whose differences wrap. -/
structure SortedTriangle (v : Vertices) : Prop where
  y0_le : v.y0.toInt ≤ v.y1.toInt
  y1_le : v.y1.toInt ≤ v.y2.toInt
  height_fits : v.y2.toInt - v.y0.toInt ≤ 32767
  width_fits : (rowBounds v).2.toInt - (rowBounds v).1.toInt ≤ 32766

section
variable {v : Vertices} (h : SortedTriangle v)
include h

/-- An edge between two of the vertices lies within the bounds. -/
theorem SortedTriangle.edgeWithin {x x' y y' : Word} {s : Word32} {m n : Nat} (hx : x ∈ v.xs) (hx' : x' ∈ v.xs)
    (hy : y.toInt ≤ y'.toInt) (hy' : y'.toInt - y.toInt ≤ 32767) (hs : s.toInt = m * (x' - x).toInt)
    (habove : 0 < n → m + n ≤ y'.toInt - y.toInt + 1) (hfalls : 0 < n → y.toInt < y'.toInt) :
    EdgeWithin (rowBounds v) x (x' - x) (y' - y) s m n := by
  have hb := withinBounds_rowBounds v x hx
  have hb' := withinBounds_rowBounds v x' hx'
  have hwidth := h.width_fits
  have hdx : (x' - x).toInt = x'.toInt - x.toInt := by
    obtain ⟨hlo, hhi⟩ := hb
    obtain ⟨hlo', hhi'⟩ := hb'
    exact toInt_sub_of_fits (by omega) (by omega)
  have hdy : (y' - y).toInt = y'.toInt - y.toInt := toInt_sub_of_fits (by omega) (by omega)
  refine ⟨hb, ?_, hs, ?_, ?_⟩
  · rw [hdx]
    obtain ⟨hlo', hhi'⟩ := hb'
    omega
  · rwa [hdy]
  · intro hn
    have := hfalls hn
    omega

/-- The upper scan loop, from the top vertex on: edges 0-1 and 0-2 (R181 step 4). -/
theorem SortedTriangle.scansRows_upper {cfg : Config} (hne : v.y0 ≠ v.y2) (c : Word) {n : Nat}
    (hn : n = loopCount v.y0.toInt (upperLast v)) :
    ScansRows cfg ((List.range n).map (loopVar v.y0)) (scanLines cfg (upperRegs v c) n) := by
  have htop := h.y0_le
  have hbottom := h.y1_le
  have hheight := h.height_fits
  have htall : v.y0.toInt ≠ v.y2.toInt := mt BitVec.toInt_inj.mp hne
  have hlast : upperLast v ≤ v.y1.toInt ∧ (v.y0.toInt ≤ upperLast v → v.y0.toInt < v.y1.toInt) := by
    rcases upperLast_cases v with ⟨hy, hl⟩ | ⟨hy, hl⟩ <;> omega
  obtain ⟨hle, hrows⟩ := hlast
  rw [loopCount] at hn
  exact scansRows_scanLines (t := upperRegs v c) (m := 0) (m' := 0)
    (h.edgeWithin v.x0_mem v.x1_mem htop (by omega) (by simp [upperRegs]) (by omega) (by omega))
    (h.edgeWithin v.x0_mem v.x2_mem (by omega) hheight (by simp [upperRegs]) (by omega) (by omega)) h.width_fits

/-- The lower scan loop, from the middle vertex on where it is not the last: edges 1-2 and 0-2 (R181 step 5). -/
theorem SortedTriangle.scansRows_lower {cfg : Config} (hlt : v.y1.toInt < v.y2.toInt) (c : Word) {n : Nat}
    (hn : n = (v.y2.toInt - v.y1.toInt + 1).toNat) :
    ScansRows cfg ((List.range n).map (loopVar v.y1)) (scanLines cfg (lowerRegs v c) n) := by
  have htop := h.y0_le
  have hheight := h.height_fits
  have hstart : lowerStart v = v.y1 := lowerStart_of_lt hlt
  have hrow : (v.y1 - v.y0).toInt = v.y1.toInt - v.y0.toInt := toInt_sub_of_fits (by omega) (by omega)
  have hsa : (lowerRegs v c).sa.toInt = (0 : Nat) * (v.x2 - v.x1).toInt := by
    simp [lowerRegs, hstart]
  have hsb : (lowerRegs v c).sb.toInt = ((v.y1.toInt - v.y0.toInt).toNat : Nat) * (v.x2 - v.x0).toInt := by
    rw [lowerRegs, hstart, toInt_sext32_mul_row _ (by omega), hrow, Int.toNat_of_nonneg (by omega)]
  rw [← hstart]
  exact scansRows_scanLines (t := lowerRegs v c)
    (h.edgeWithin v.x1_mem v.x2_mem hlt.le (by omega) hsa (by omega) (by omega))
    (h.edgeWithin v.x0_mem v.x2_mem (by omega) hheight hsb (by omega) (by omega)) h.width_fits

/-- A triangle on one scanline is one run between its bounds (R181 step 2). -/
theorem SortedTriangle.scansRows_of_level (cfg : Config) (c : Word) (hlevel : v.y0 = v.y2) :
    ScansRows cfg [v.y0] (sortedEmission cfg v c) := by
  obtain ⟨hlo, hhi⟩ := withinBounds_rowBounds v v.x0 v.x0_mem
  rw [sortedEmission, if_pos hlevel]
  exact .run _ _ (hlo.trans hhi) h.width_fits

/-- With a level bottom edge the upper loop draws every scanline and the lower loop none (R181 step 4). -/
theorem SortedTriangle.scansRows_of_level_bottom (cfg : Config) (c : Word) (hne : v.y0 ≠ v.y2)
    (hbottom : v.y1.toInt = v.y2.toInt) (hlast : upperLast v = v.y1.toInt) :
    ScansRows cfg ((List.range (v.y2.toInt - v.y0.toInt + 1).toNat).map (loopVar v.y0)) (sortedEmission cfg v c) := by
  have hupperCount : loopCount v.y0.toInt (upperLast v) = (v.y2.toInt - v.y0.toInt + 1).toNat := by
    rw [loopCount, hlast, hbottom]
  have hlowerCount : loopCount (upperLast v + 1) v.y2.toInt = 0 := by
    unfold loopCount
    omega
  rw [sortedEmission, if_neg hne, hupperCount, hlowerCount]
  simpa [scanLines] using h.scansRows_upper (cfg := cfg) hne c hupperCount.symm

/-- Otherwise the lower loop goes on where the upper one stops, at the middle vertex (R181 steps 4 and 5). -/
theorem SortedTriangle.scansRows_of_two_parts (cfg : Config) (c : Word) (hne : v.y0 ≠ v.y2)
    (hbottom : v.y1.toInt < v.y2.toInt) (hlast : upperLast v = v.y1.toInt - 1) :
    ScansRows cfg ((List.range (v.y2.toInt - v.y0.toInt + 1).toNat).map (loopVar v.y0)) (sortedEmission cfg v c) := by
  have htop := h.y0_le
  have hupperCount : loopCount v.y0.toInt (upperLast v) = (v.y1.toInt - v.y0.toInt).toNat := by
    unfold loopCount
    omega
  have hlowerCount : loopCount (upperLast v + 1) v.y2.toInt = (v.y2.toInt - v.y1.toInt + 1).toNat := by
    unfold loopCount
    omega
  have hall : (v.y2.toInt - v.y0.toInt + 1).toNat =
      (v.y1.toInt - v.y0.toInt).toNat + (v.y2.toInt - v.y1.toInt + 1).toNat := by omega
  have hmiddle : loopVar v.y1 = fun k => loopVar v.y0 ((v.y1.toInt - v.y0.toInt).toNat + k) := by
    funext k
    rw [← loopVar_loopVar, loopVar_toNat_sub htop]
  have hlower := h.scansRows_lower (cfg := cfg) hbottom c rfl
  rw [hmiddle] at hlower
  rw [sortedEmission, if_neg hne, hupperCount, hlowerCount, hall, List.range_add, List.map_append, List.map_map]
  exact (h.scansRows_upper hne c hupperCount.symm).append hlower

/-- FILLTRIANGLE's scanlines are those from the top vertex to the bottom one, in order (R181). -/
theorem SortedTriangle.scansRows_sortedEmission (cfg : Config) (c : Word) :
    ScansRows cfg ((List.range (v.y2.toInt - v.y0.toInt + 1).toNat).map (loopVar v.y0)) (sortedEmission cfg v c) := by
  by_cases hlevel : v.y0 = v.y2
  · have hone : (v.y2.toInt - v.y0.toInt + 1).toNat = 1 := by
      rw [hlevel, sub_self]
      rfl
    rw [hone]
    simpa [loopVar_zero] using h.scansRows_of_level cfg c hlevel
  · have hle := h.y1_le
    rcases upperLast_cases v with ⟨hy, hlast⟩ | ⟨hy, hlast⟩
    · exact h.scansRows_of_level_bottom cfg c hlevel hy hlast
    · exact h.scansRows_of_two_parts cfg c hlevel (by omega) hlast

end

/-- Settles O60: the vertices sorted, each scan loop keeps its intercepts within the vertices. -/
theorem filltriangleScansEachLineOnce : Obligations.FilltriangleScansEachLineOnce := by
  intro cfg r hwidth v hheight
  have hmem : ∀ x ∈ v.xs, x ∈ [r.p0, r.p2, r.p4] := fun x hx => (xs_sortByY_perm r.vertices).mem_iff.mp hx
  obtain ⟨hy0, hy1⟩ := sortByY_sorted r.vertices
  obtain ⟨hlo, hhi⟩ := rowBounds_mem v
  have hsorted : SortedTriangle v := ⟨hy0, hy1, hheight, hwidth _ (hmem _ hhi) _ (hmem _ hlo)⟩
  obtain ⟨runs, hrows, hlen, hemission⟩ := hsorted.scansRows_sortedEmission cfg r.fg
  exact ⟨runs, by rw [hrows, List.map_map]; rfl, hlen, hemission⟩

end Sys2Proof.Machine
end

section
/-! Circles and rounded rectangles from acceptance to completion (41_raster_circles.md), the end of the midpoint loop
(R150) and the symmetry of CIRCLE (property L1-P2). -/

namespace Sys2Proof.Machine

/-! ## What the commands' pseudocode draws -/

section
variable {cfg : Config} {snap : Regs}

/-- CIRCLE's seeds, then its loop (R151). -/
theorem draws_circleBody (r : Regs) : Draws cfg snap (circleBody r) (circleEmission r) :=
  (Draws.sinks _).append (draws_circleLoop _ _ _ _)

theorem midPairs_of_nonpos {r : Word} (h : r.toInt ≤ 0) : midPairs r = [] := by
  rw [midPairs, Int.toNat_of_nonpos h]
  rfl

theorem diskStrips_of_nonpos {r : Word} (h : r.toInt ≤ 0) (cx cy : Word) (mask : BitVec 2) (delta c : Word) :
    diskStrips cfg cx cy r mask delta c = [] := by
  rw [diskStrips, midPairs_of_nonpos h, List.flatMap_nil]

theorem fillcircleEmission_of_neg {r : Regs} (h : r.p2.toInt < 0) : fillcircleEmission cfg r = [] := if_pos h

/-- FILLCIRCLE's central run and strips (R154): a negative radius has neither, since its loop makes no step. -/
theorem draws_fillcircleBody (r : Regs) : Draws cfg snap (fillcircleBody r) (fillcircleEmission cfg r) := by
  have hdisk : Draws cfg snap (fillCircleHCore r.p0 r.p1 r.p2 3 0 r.fg) (diskStrips cfg r.p0 r.p1 r.p2 3 0 r.fg) :=
    draws_fillCircleHCore _ _ _ _ _ _
  by_cases hneg : r.p2.toInt < 0
  · rw [fillcircleBody, if_pos hneg, fillcircleEmission_of_neg hneg]
    rwa [diskStrips_of_nonpos hneg.le] at hdisk
  · rw [fillcircleBody, if_neg hneg, fillcircleEmission, if_neg hneg]
    exact (draws_emitV _ _ _ _).append hdisk

/-- ROUNDRECT's four edges, then its four arcs (R155). -/
theorem draws_roundrectBody {r : Regs} (hw : 0 < r.p2.toInt) (hh : 0 < r.p3.toInt) :
    Draws cfg snap (roundrectBody r) (roundrectEmission cfg r) := by
  rw [roundrectBody, rectDegenerate_eq_false hw hh]
  refine (((Draws.append ?edges (draws_circleHCore _ _ _ _ _)).append (draws_circleHCore _ _ _ _ _)).append
    (draws_circleHCore _ _ _ _ _)).append (draws_circleHCore _ _ _ _ _)
  case edges =>
    exact (((draws_emitH _ _ _ _).append (draws_emitH _ _ _ _)).append (draws_emitV _ _ _ _)).append
      (draws_emitV _ _ _ _)

end

/-! ## The midpoint loop -/

theorem midMore_iff (m : Mid) : midMore m = true ↔ m.x.toInt < m.y.toInt := decide_eq_true_iff

/-- Induction along the midpoint loop: each step brings `x` and `y` closer, so the loop ends. -/
theorem midLoop_induction {P : Mid → Prop} (stop : ∀ m, ¬midMore m = true → P m)
    (step : ∀ m, midMore m = true → P (midStep m) → P m) (m : Mid) : P m := by
  by_cases hm : midMore m = true
  · exact step m hm (midLoop_induction stop step (midStep m))
  · exact stop m hm
termination_by (m.y.toInt - m.x.toInt).toNat
decreasing_by
  have hcloser := midStep_closer hm
  have hlt := (midMore_iff m).mp hm
  omega

/-- From `m` on the loop makes exactly `n` steps; before step `j`, `x` has risen by `j` and `y` has not risen. -/
structure MidSteps (m : Mid) (n : Nat) : Prop where
  le_gap : n ≤ (m.y.toInt - m.x.toInt).toNat
  ended : midMore (midStep^[n] m) = false
  before : ∀ j, j < n → midMore (midStep^[j] m) = true ∧ (midStep^[j] m).x.toInt = m.x.toInt + j ∧
    (midStep^[j] m).y.toInt ≤ m.y.toInt

theorem MidSteps.zero {m : Mid} (hm : ¬midMore m = true) : MidSteps m 0 :=
  ⟨Nat.zero_le _, eq_false_of_ne_true hm, fun _ hj => absurd hj (Nat.not_lt_zero _)⟩

theorem MidSteps.succ {m : Mid} {n : Nat} (hm : midMore m = true) (h : MidSteps (midStep m) n) :
    MidSteps m (n + 1) := by
  obtain ⟨hx, hy, -⟩ := midStep_closer hm
  have hlt := (midMore_iff m).mp hm
  have hgap := h.le_gap
  refine ⟨by omega, h.ended, fun j hj => ?_⟩
  cases j with
  | zero => exact ⟨hm, (Int.add_zero _).symm, Int.le_refl _⟩
  | succ j =>
    obtain ⟨hmore, hxj, hyj⟩ := h.before j (Nat.lt_of_succ_lt_succ hj)
    rw [Function.iterate_succ_apply]
    exact ⟨hmore, by omega, by omega⟩

/-- The loop makes one step for each pair it emits. -/
theorem midSteps_midRest (m : Mid) : MidSteps m (midRest m).length := by
  induction m using midLoop_induction with
  | stop m hm =>
    rw [midRest_of_not_more hm]
    exact .zero hm
  | step m hm ih =>
    rw [midRest_of_more hm]
    exact .succ hm ih

/-! ## The symmetry of CIRCLE -/

/-- The offset `(a, b)` from the centre is the pair `(x, y)` up to the signs and the order of its entries. -/
def InOrbit (p : Word × Word) (a b : Word) : Prop :=
  (a = p.1 ∨ a = -p.1) ∧ (b = p.2 ∨ b = -p.2) ∨ (a = p.2 ∨ a = -p.2) ∧ (b = p.1 ∨ b = -p.1)

theorem eq_or_eq_neg_neg {a x : Word} (h : a = x ∨ a = -x) : -a = x ∨ -a = -x :=
  h.symm.imp neg_eq_iff_eq_neg.mpr neg_inj.mpr

namespace InOrbit

variable {p : Word × Word} {a b : Word}

theorem swap (h : InOrbit p a b) : InOrbit p b a := h.symm.imp And.symm And.symm

theorem neg_left (h : InOrbit p a b) : InOrbit p (-a) b :=
  h.imp (And.imp_left eq_or_eq_neg_neg) (And.imp_left eq_or_eq_neg_neg)

theorem neg_right (h : InOrbit p a b) : InOrbit p a (-b) := h.swap.neg_left.swap

end InOrbit

/-- The eight points of a step (R151) are the orbit of its pair. -/
theorem plot_mem_circlePoints_iff (cx cy c a b x y : Word) :
    .plot (cx + a) (cy + b) c ∈ circlePoints cx cy c x y ↔ InOrbit (x, y) a b := by
  simp only [circlePoints, InOrbit, sub_eq_add_neg, List.mem_cons, SinkReq.plot.injEq, add_right_inj,
    List.not_mem_nil, and_true, or_false]
  tauto

/-- The four seeds (R151) are the orbit of `(0, r)`, with which the loop starts. -/
theorem plot_mem_circleSeeds_iff (cx cy c a b r : Word) :
    .plot (cx + a) (cy + b) c ∈ circleSeeds cx cy r c ↔ InOrbit (0, r) a b := by
  have hx : cx + a = cx ↔ a = 0 := add_eq_left
  have hy : cy + b = cy ↔ b = 0 := add_eq_left
  simp only [circleSeeds, InOrbit, sub_eq_add_neg, List.mem_cons, SinkReq.plot.injEq, add_right_inj, hx, hy,
    List.not_mem_nil, neg_zero, and_true, or_false, or_self]
  tauto

/-- CIRCLE emits the orbit of `(0, r)` and of every pair of the loop. -/
theorem plot_mem_circleEmission_iff (r : Regs) (a b : Word) :
    .plot (r.p0 + a) (r.p1 + b) r.fg ∈ circleEmission r ↔ ∃ p ∈ (0, r.p2) :: midPairs r.p2, InOrbit p a b := by
  simp only [circleEmission, List.mem_append, List.mem_flatMap, plot_mem_circleSeeds_iff, plot_mem_circlePoints_iff,
    List.exists_mem_cons_iff]

/-! ## The statements -/

/-- Settles O20: CIRCLE has no operand check, and its body is its seeds and its loop. -/
theorem circleEmitsSeedsAndOctants : Obligations.CircleEmitsSeedsAndOctants := by
  intro s as hidle hlen
  exact exec_draws (i := .circle {}) hidle rfl rfl (draws_circleBody _) hlen

/-- Settles O21: CIRCLEH has no operand check; the mask that selects nothing is the case of no request. -/
theorem circlehEmitsSelectedArcs : Obligations.CirclehEmitsSelectedArcs := by
  intro s as hidle hlen
  exact exec_draws (i := .circleh {}) hidle rfl rfl (draws_circleHCore _ _ _ _ _) hlen

/-- Settles O22: FILLCIRCLE has no operand check, and a negative radius is the case of no request. -/
theorem fillcircleEmitsItsDisk : Obligations.FillcircleEmitsItsDisk := by
  intro s as hidle hlen
  obtain ⟨t, hexec, hbusy, hrun⟩ := exec_draws (i := .fillcircle {}) hidle rfl rfl (draws_fillcircleBody _) hlen
  exact ⟨t, hexec, hbusy, hrun, fillcircleEmission_of_neg⟩

/-- Settles O23: FILLCIRCLEH has no operand check, and its body is the strip loop. -/
theorem fillcirclehEmitsSelectedStrips : Obligations.FillcirclehEmitsSelectedStrips := by
  intro s as hidle hlen
  exact exec_draws (i := .fillcircleh {}) hidle rfl rfl (draws_fillCircleHCore _ _ _ _ _ _) hlen

/-- Settles O24: `w, h > 0` pass ROUNDRECT's check, and no radius is refused. -/
theorem roundrectEmitsEdgesAndArcs : Obligations.RoundrectEmitsEdgesAndArcs := by
  intro s as hidle hw hh hlen
  exact exec_draws (i := .roundrect {}) hidle rfl (rectVerdict_ok s.cfg hw hh) (draws_roundrectBody hw hh) hlen

/-- Settles O57: the loop starts at `(0, r)`, a gap of `r`, and makes one step for each pair it emits. -/
theorem midpointLoopEnds : Obligations.MidpointLoopEnds := by
  intro r
  have hx : (midInit r).x.toInt = 0 := rfl
  have hy : (midInit r).y = r := rfl
  have hsteps := midSteps_midRest (midInit r)
  rw [midRest_midInit] at hsteps
  obtain ⟨hgap, hended, hbefore⟩ := hsteps
  rw [hx, hy, Int.sub_zero] at hgap
  refine ⟨_, hgap, hended, rfl, fun j hj => ?_⟩
  obtain ⟨hmore, hxj, hyj⟩ := hbefore j hj
  rw [hx, Int.zero_add] at hxj
  exact ⟨hmore, hxj, hyj⟩

/-- Settles O58: an orbit holds the mirror images of each of its offsets. -/
theorem circleIsEightfoldSymmetric : Obligations.CircleIsEightfoldSymmetric := by
  intro r a b hmem
  obtain ⟨p, hp, horbit⟩ := (plot_mem_circleEmission_iff r a b).mp hmem
  rw [sub_eq_add_neg, sub_eq_add_neg]
  simp only [plot_mem_circleEmission_iff]
  exact ⟨⟨p, hp, horbit.neg_left⟩, ⟨p, hp, horbit.neg_right⟩, ⟨p, hp, horbit.swap⟩⟩

end Sys2Proof.Machine
end

section
/-! FILLTRIANGLE from acceptance to completion, and the divisors of its scan loops (42_raster_triangles.md R181). -/

namespace Sys2Proof.Machine

/-! ## The divisors of the scan loops -/

section
variable {v : Vertices}

/-- Edge 0-1 is not level where the upper part has a scanline (R181 step 4): were it level, `last` would be `y0 - 1`, one
short of the first scanline even where `y0` is the least word, since `last` is exact (log entry 5). -/
theorem y1_ne_y0_of_upper_runs (htall : v.y0 ≠ v.y2) (hruns : 0 < loopCount v.y0.toInt (upperLast v)) :
    v.y1 ≠ v.y0 := by
  intro hlevel
  rw [upperLast, if_neg (hlevel.trans_ne htall), hlevel, loopCount] at hruns
  omega

/-- Edge 1-2 is not level where the lower part has a scanline (R181 step 5): with `y1 = y2` the upper part takes the last
one. -/
theorem y2_ne_y1_of_lower_runs (hruns : 0 < loopCount (upperLast v + 1) v.y2.toInt) : v.y2 ≠ v.y1 := by
  intro hlevel
  rw [upperLast, if_pos hlevel.symm, hlevel, loopCount] at hruns
  omega

end

/-! ## The statements -/

/-- Settles O27: FILLTRIANGLE has no operand check, and its body is the scan of its sorted vertices. -/
theorem filltriangleEmitsItsScanlines : Obligations.FilltriangleEmitsItsScanlines := by
  intro s as hidle hlen
  exact exec_draws (i := .filltriangle {}) hidle rfl rfl (draws_fillSorted _ _) hlen

/-- Settles O59: a loop's divisors are the heights of its two edges. Edge 0-2 is not level, as the triangle is more than
one scanline high, nor is the other edge of a loop that runs. -/
theorem filltriangleNeverDividesByZero : Obligations.FilltriangleNeverDividesByZero := by
  intro r v htall
  have hlong : v.y2 - v.y0 ≠ 0 := sub_ne_zero_of_ne htall.symm
  constructor
  · intro hruns
    exact ⟨sub_ne_zero_of_ne (y1_ne_y0_of_upper_runs htall hruns), hlong⟩
  · intro hruns
    exact ⟨sub_ne_zero_of_ne (y2_ne_y1_of_lower_runs hruns), hlong⟩

end Sys2Proof.Machine
end

section
/-! BLIT and BLITXBM (43_bitmap_blitter.md): the range check R201, the two commands from acceptance to completion, and
what is read and drawn.

The two commands differ in their opcode and in their bit order (R204, R205), so they have one proof, over the
instruction and its order (`BlitsIn`). What they show is a walk over the bytes of a grid; `gridOrder_map_index` says
that this walk counts the bytes in ascending order, which gives the addresses read (R202) and, eight bits to the byte,
the pixels of a row. -/

namespace Sys2Proof.Machine

/-! ## The operand check -/

/-- The size in bytes of a row (R200) of a width that is not negative. -/
theorem byteWidth_of_nonneg {w : Word} (h : 0 ≤ w.toInt) : byteWidth w = (w.toNat + 7) / 8 := by
  have hw := toNat_toInt_of_nonneg h
  unfold byteWidth
  omega

/-- The bytes of a row have a bit for each of its pixels (R200). -/
theorem toInt_le_eight_mul_byteWidth (w : Word) : w.toInt ≤ 8 * byteWidth w := by
  unfold byteWidth
  omega

/-- `Validate` steps 4 and 5 on a blit (30_encoding.md R97): degenerate (60_exceptions.md R306), outside its space
(R201), or passed. -/
theorem blitVerdict_eq (c : Config) (r : Regs) :
    blitVerdict c r =
      if r.p3.toInt ≤ 0 ∨ r.p4.toInt ≤ 0 then .degenerate
      else if spaceSize c r.srcSpace < r.p2.toNat + packedBytes r.p3 r.p4 then .badAddress
      else .ok := by
  simp only [blitVerdict, bitmapDegenerate, outsideSpace, decide_eq_true_eq]

/-- A blit passes when its size is not degenerate and its bitmap is inside its space. -/
theorem blitVerdict_eq_ok_iff (c : Config) (r : Regs) :
    blitVerdict c r = .ok ↔
      0 < r.p3.toInt ∧ 0 < r.p4.toInt ∧ r.p2.toNat + packedBytes r.p3 r.p4 ≤ spaceSize c r.srcSpace := by
  rw [blitVerdict_eq]
  split
  · exact iff_of_false nofun (by omega)
  · split
    · exact iff_of_false nofun (by omega)
    · exact iff_of_true rfl (by omega)

/-- A bitmap of positive size that does not fit its space has the verdict BAD_ADDRESS (R201). -/
theorem blitVerdict_of_outside {c : Config} {r : Regs} (hw : 0 < r.p3.toInt) (hh : 0 < r.p4.toInt)
    (hout : spaceSize c r.srcSpace < r.p2.toNat + packedBytes r.p3 r.p4) : blitVerdict c r = .badAddress := by
  rw [blitVerdict_eq, if_neg (by omega), if_pos hout]

/-- The flags of a command are those of its word (30_encoding.md R90). -/
theorem flagsOf_encode (i : Instr) : flagsOf (encode i) = i.flags := ((encode_eq_iff i _).1 rfl).2.1.symm

/-- The space a command's SRC flag selects (R90, R201). -/
theorem srcSpace_snapshotFor_encode (s : State) (i : Instr) :
    (s.snapshotFor (encode i)).srcSpace = if i.flags.src then .rom else .ram := by
  rw [← flagsOf_encode]
  rfl

/-! ## BLIT and BLITXBM as one -/

/-- The instruction is a blit with flags `f`, and `order` its bit order (R204, R205). -/
def BlitsIn (order : BitOrder) (f : Flags) (i : Instr) : Prop :=
  i = .blit f ∧ order = .msb ∨ i = .blitxbm f ∧ order = .lsb

namespace BlitsIn

variable {order : BitOrder} {f : Flags} {i : Instr}

theorem flags_eq (h : BlitsIn order f i) : i.flags = f := by
  obtain ⟨rfl, -⟩ | ⟨rfl, -⟩ := h <;> rfl

theorem verdictOf_eq (h : BlitsIn order f i) : verdictOf i = blitVerdict := by
  obtain ⟨rfl, -⟩ | ⟨rfl, -⟩ := h <;> rfl

theorem bodyOf_eq (h : BlitsIn order f i) : bodyOf i = blitCore order := by
  obtain ⟨rfl, rfl⟩ | ⟨rfl, rfl⟩ := h <;> rfl

/-- A blit allows the flags BG and SRC (30_encoding.md R92). -/
theorem wellFormed (h : BlitsIn order f i) (haln : f.aln = false) : i.wellFormed = true := by
  obtain ⟨rfl, -⟩ | ⟨rfl, -⟩ := h <;> simp [Instr.wellFormed, Instr.flags, Instr.allows, Flags.within, haln]

end BlitsIn

/-- A blit whose bitmap has a positive size and does not fit its space is refused (R201, R302). -/
theorem exec_blit_outside {order : BitOrder} {f : Flags} {i : Instr} {s : State} (h : BlitsIn order f i)
    (hidle : s.busy = false) (haln : f.aln = false) (hw : 0 < s.live.p3.toInt) (hh : 0 < s.live.p4.toInt)
    (hout : (if f.src then s.cfg.romSize else s.cfg.ramSize) <
      s.live.p2.toNat + (s.live.p3.toNat + 7) / 8 * s.live.p4.toNat) :
    exec i s = .next ((s.latch (encode i)).latchError .badAddress) := by
  have hsize : spaceSize s.cfg (s.snapshotFor (encode i)).srcSpace =
      if f.src then s.cfg.romSize else s.cfg.ramSize := by
    rw [srcSpace_snapshotFor_encode, h.flags_eq]
    cases f.src <;> rfl
  have hbytes : packedBytes s.live.p3 s.live.p4 = (s.live.p3.toNat + 7) / 8 * s.live.p4.toNat := by
    rw [packedBytes, byteWidth_of_nonneg hw.le, toNat_toInt_of_nonneg hh.le]
  have hverdict : blitVerdict s.cfg (s.snapshotFor (encode i)) = .badAddress :=
    blitVerdict_of_outside hw hh (by rw [hsize]; exact hbytes ▸ hout)
  rw [exec_idle hidle (h.wellFormed haln), h.verdictOf_eq, hverdict]
  rfl

/-! ## From acceptance to completion -/

/-- What a blit shows depends on the memories alone. -/
theorem blitObserved_congr {s t : State} (hram : t.ram = s.ram) (hrom : t.rom = s.rom) (sp : Space) (snap : Regs)
    (g : BitmapRegs) : blitObserved t sp snap g = blitObserved s sp snap g := by
  have hbyte : spaceByte t sp = spaceByte s sp := by
    funext a
    cases sp
    · exact congrArg (Memory.read · a) hram
    · exact congrArg (Memory.read · a) hrom
  simp only [blitObserved, hbyte]

theorem mem_gridOrder {h w j k : Nat} (hj : j < h) (hk : k < w) : (j, k) ∈ gridOrder h w :=
  List.mem_flatMap.mpr ⟨j, List.mem_range.mpr hj, List.mem_map.mpr ⟨k, List.mem_range.mpr hk, rfl⟩⟩

/-- The loops of a blit that passes its checks, run from the state its acceptance leaves (R203), up to completion. -/
theorem reach_blitCore {s : State} {w : Word} (order : BitOrder) {r : Regs} (hr : r = s.snapshotFor w)
    (hidle : s.busy = false) (hv : blitVerdict s.cfg r = .ok) :
    ∃ t, Reach (fun _ => True) ((s.latch w).start (blitCore order r))
        (blitObserved s r.srcSpace r (blitRegs order r)) t ∧ t.cont = [] ∧
      t.complete = s.afterCommand w (blitObserved s r.srcSpace r (blitRegs order r))
        (BitVec.ofNat 32 (packedBytes r.p3 r.p4)) r.p4 := by
  subst hr
  obtain ⟨-, hh, hfit⟩ := (blitVerdict_eq_ok_iff _ _).mp hv
  have hbytes : packedBytes s.live.p3 s.live.p4 = s.live.p4.toInt.toNat * byteWidth s.live.p3 := Nat.mul_comm _ _
  have hreach := reach_localBitmap (s := (s.latch w).start (blitCore order (s.snapshotFor w)))
    (g := blitRegs order (s.snapshotFor w)) (rest := []) rfl rfl rfl (hbytes ▸ hfit)
  rw [blitObserved_congr (s := s) (t := (s.latch w).start (blitCore order (s.snapshotFor w))) rfl rfl] at hreach
  refine ⟨_, hreach, rfl, ?_⟩
  have hstatus : withBusy false (withBusy true (withErr 0 s.status)) = withErr 0 s.status :=
    withBusy_false_of_idle _ true ((busyBit_withErr _ 0).trans hidle)
  have hrows : BitVec.ofNat 16 s.live.p4.toInt.toNat = s.live.p4 := ofNat_toInt_of_nonneg hh.le
  simp only [State.complete, State.start, State.latch, State.afterCommand, State.snapshotFor, blitRegs, hstatus,
    hbytes, hrows, zero_add]

/-- A bitmap that passes its check shows something: it has a row and a byte in it. -/
theorem blitObserved_ne_nil (s : State) {c : Config} {r : Regs} (order : BitOrder) (hv : blitVerdict c r = .ok) :
    blitObserved s r.srcSpace r (blitRegs order r) ≠ [] := by
  intro hnil
  obtain ⟨hw, hh, -⟩ := (blitVerdict_eq_ok_iff _ _).mp hv
  have hrows : 0 < r.p4.toInt.toNat := by omega
  have hbytes : 0 < byteWidth r.p3 := by
    have := toInt_le_eight_mul_byteWidth r.p3
    omega
  exact List.cons_ne_nil _ _ (List.flatMap_eq_nil_iff.mp hnil _ (mem_gridOrder hrows hbytes))

section
variable {order : BitOrder} {f : Flags} {i : Instr} {s : State} (h : BlitsIn order f i) (hidle : s.busy = false)
  (haln : f.aln = false) (hv : blitVerdict s.cfg (s.snapshotFor (encode i)) = .ok)
include h hidle haln hv

/-- A blit that passes its checks, from acceptance to completion: one engine step per observation. -/
theorem blit_completes {as : List Answer} {r : Regs} (hr : r = s.snapshotFor (encode i))
    (hlen : as.length = (blitObserved s r.srcSpace r (blitRegs order r)).length) :
    ∃ t, exec i s = .next t ∧ t.busy = true ∧
      engineRun as t = .next (s.afterCommand (encode i) (blitObserved s r.srcSpace r (blitRegs order r))
        (BitVec.ofNat 32 (packedBytes r.p3 r.p4)) r.p4) := by
  subst hr
  obtain ⟨t, hreach, hend, hcomplete⟩ := reach_blitCore order rfl hidle hv
  have hpos := List.length_pos_iff.mpr (blitObserved_ne_nil s order hv)
  rw [← h.bodyOf_eq] at hreach
  rw [← hcomplete]
  exact exec_reach hidle (h.wellFormed haln) (h.verdictOf_eq ▸ hv) hreach hend
    (hlen.trans (max_eq_right hpos).symm) fun _ _ => trivial

/-- A blit that passes its checks ends idle when every answer is prompt, and has shown what it owes. -/
theorem blit_shows : ∃ t n u, exec i s = .next t ∧ engineRun (List.replicate n .ready) t = .next u ∧
    u.busy = false ∧ u.trace = (blitObserved s (s.snapshotFor (encode i)).srcSpace (s.snapshotFor (encode i))
      (blitRegs order (s.snapshotFor (encode i)))).reverse ++ s.trace := by
  obtain ⟨t, hexec, -, hrun⟩ := blit_completes h hidle haln hv rfl List.length_replicate
  exact ⟨t, _, _, hexec, hrun, (busyBit_withErr s.status 0).trans hidle, rfl⟩

end

/-! ## The bytes of a grid in order -/

/-- Row by row, the positions of a grid are numbered in ascending order. -/
theorem gridOrder_map_index (h w : Nat) : (gridOrder h w).map (fun p => p.1 * w + p.2) = List.range (h * w) := by
  induction h with
  | zero => simp [gridOrder]
  | succ h ih =>
    have hsplit : gridOrder (h + 1) w = gridOrder h w ++ (List.range w).map fun k => (h, k) := by
      simp [gridOrder, List.range_succ]
    rw [hsplit, List.map_append, ih, List.map_map, Nat.succ_mul, List.range_add]
    rfl

theorem length_gridOrder (h w : Nat) : (gridOrder h w).length = h * w := by
  simpa using congrArg List.length (gridOrder_map_index h w)

theorem flatMap_gridOrder {α : Type} (h w : Nat) (g : Nat × Nat → List α) :
    (gridOrder h w).flatMap g = (List.range h).flatMap fun j => (List.range w).flatMap fun k => g (j, k) := by
  simp only [gridOrder, List.flatMap_assoc, List.flatMap_map]

/-- The bits of `n` bytes, byte by byte, are `8 * n` bits in order. -/
theorem flatMap_bits {α : Type} (n : Nat) (g : Nat → List α) :
    ((List.range n).flatMap fun k => (List.range 8).flatMap fun b => g (8 * k + b)) =
      (List.range (8 * n)).flatMap g := by
  rw [Nat.mul_comm, ← gridOrder_map_index, List.flatMap_map, flatMap_gridOrder]
  simp only [Nat.mul_comm]

/-! ## The addresses read -/

theorem readAddresses_flatMap {α : Type} (l : List α) (g : α → List Observed) :
    readAddresses (l.flatMap g) = l.flatMap fun a => readAddresses (g a) := List.filterMap_flatMap ..

/-- One local fetch reads one address. -/
theorem readAddresses_memRead_sinks (sp : Space) (a : Nat) (b : Byte) (rs : List SinkReq) :
    readAddresses (.memRead sp a b :: rs.map .sink) = [a] := by
  simp [readAddresses]

/-- A local blit reads the bytes of its bitmap in ascending order, each once (R202). -/
theorem readAddresses_blitObserved (s : State) (sp : Space) (snap : Regs) (g : BitmapRegs) :
    readAddresses (blitObserved s sp snap g) = (List.range (g.h.toInt.toNat * g.bw)).map (g.addr.toNat + ·) := by
  rw [blitObserved, readAddresses_flatMap, ← gridOrder_map_index, List.map_map, List.map_eq_flatMap]
  simp only [readAddresses_memRead_sinks, Function.comp_apply, Nat.add_assoc]

/-! ## The pixels drawn -/

theorem sinkPart_flatMap {α : Type} (l : List α) (g : α → List Observed) :
    sinkPart (l.flatMap g) = l.flatMap fun a => sinkPart (g a) := List.filterMap_flatMap ..

/-- The emission of one local fetch is what the byte draws. -/
theorem sinkPart_memRead_sinks (sp : Space) (a : Nat) (b : Byte) (rs : List SinkReq) :
    sinkPart (.memRead sp a b :: rs.map .sink) = rs := by
  simp [sinkPart]

/-- The emission of a local blit is the pixels of its bitmap, byte by byte (R203). -/
theorem sinkPart_blitObserved (s : State) (sp : Space) (snap : Regs) (g : BitmapRegs) :
    sinkPart (blitObserved s sp snap g) = bitmapPixels snap g fun m => spaceByte s sp (g.addr.toNat + m) := by
  rw [blitObserved, sinkPart_flatMap]
  simp only [sinkPart_memRead_sinks, bitmapPixels, Nat.add_assoc]

/-- A row of `n` bits of which the first `w` are drawn. -/
theorem flatMap_range_unpadded {α : Type} {w n : Nat} (h : w ≤ n) (g : Nat → α) :
    ((List.range n).flatMap fun i => if w ≤ i then [] else [g i]) = (List.range w).map g := by
  obtain ⟨pad, rfl⟩ := Nat.exists_eq_add_of_le h
  have hpixels : ((List.range w).flatMap fun i => if w ≤ i then [] else [g i]) = (List.range w).map g := by
    rw [List.map_eq_flatMap]
    refine List.flatMap_congr fun i hi => if_neg ?_
    simpa using hi
  rw [List.range_add, List.flatMap_append, hpixels, List.flatMap_map]
  simp

/-- A row whose pixels are all set draws each of them in FG, and nothing of its padding (R203). -/
theorem rowPixels_of_all_set (snap : Regs) {g : BitmapRegs} (j : Nat) (bytes : Nat → Byte) {w n : Nat}
    (hw : g.w.toInt = w) (hn : w ≤ 8 * n)
    (hset : ∀ i, i < w → bitmapBit g.order (bytes (i / 8)) (i % 8) = true) :
    ((List.range n).flatMap fun k => bytePixels snap g j k (bytes k)) =
      (List.range w).map fun i => .plot (loopVar g.x i) (loopVar g.y j) snap.fg := by
  rw [← flatMap_range_unpadded hn, ← flatMap_bits]
  refine List.flatMap_congr fun k _ => List.flatMap_congr fun b hb => ?_
  simp only [hw, Int.ofNat_le]
  by_cases hpad : w ≤ 8 * k + b
  · rw [if_pos hpad, if_pos hpad]
  · have hb := List.mem_range.mp hb
    have hbit := hset (8 * k + b) (by omega)
    rw [show (8 * k + b) / 8 = k by omega, show (8 * k + b) % 8 = b by omega] at hbit
    rw [if_neg hpad, if_neg hpad, pixelReq, if_pos hbit]

/-- A bitmap whose pixels are all set draws its grid in FG, row by row (R204, R205). -/
theorem bitmapPixels_of_all_set (snap : Regs) {g : BitmapRegs} (bytes : Nat → Byte) {w h : Nat}
    (hw : g.w.toInt = w) (hh : g.h.toInt.toNat = h) (hn : w ≤ 8 * g.bw)
    (hset : ∀ j i, j < h → i < w → bitmapBit g.order (bytes (j * g.bw + i / 8)) (i % 8) = true) :
    bitmapPixels snap g bytes =
      (gridOrder h w).map fun p => .plot (loopVar g.x p.2) (loopVar g.y p.1) snap.fg := by
  rw [bitmapPixels, hh, flatMap_gridOrder, gridOrder, List.map_flatMap]
  refine List.flatMap_congr fun j hj => ?_
  rw [List.map_map]
  exact rowPixels_of_all_set snap j _ hw hn fun i hi => hset j i (List.mem_range.mp hj) hi

/-! ## The statements -/

/-- Settles O13: BLIT and BLITXBM have the same check, and its verdict on such a bitmap is BAD_ADDRESS. -/
theorem blitOutsideItsSpaceIsRefused : Obligations.BlitOutsideItsSpaceIsRefused := by
  intro s f hidle haln hw hh hout
  exact ⟨exec_blit_outside (.inl ⟨rfl, rfl⟩) hidle haln hw hh hout,
    exec_blit_outside (.inr ⟨rfl, rfl⟩) hidle haln hw hh hout, latchError_err .badAddress _⟩

/-- Settles O28: BLIT is the blit of MSB-first order. -/
theorem blitDrawsItsBitmap : Obligations.BlitDrawsItsBitmap := by
  intro s f as hidle haln r os hv hlen
  exact blit_completes (.inl ⟨rfl, rfl⟩) hidle haln hv rfl hlen

/-- Settles O29: BLITXBM is the blit of LSB-first order. -/
theorem blitxbmDrawsItsBitmap : Obligations.BlitxbmDrawsItsBitmap := by
  intro s f as hidle haln r os hv hlen
  exact blit_completes (.inr ⟨rfl, rfl⟩) hidle haln hv rfl hlen

/-- Settles O33: the reads of `readAddresses_blitObserved`, in either bit order. -/
theorem blitReadsEachByteOnceAscending : Obligations.BlitReadsEachByteOnceAscending := by
  intro s f i hidle haln hi r hv
  obtain ⟨order, h⟩ : ∃ order, BlitsIn order f i := by
    obtain rfl | rfl := hi
    · exact ⟨.msb, .inl ⟨rfl, rfl⟩⟩
    · exact ⟨.lsb, .inr ⟨rfl, rfl⟩⟩
  obtain ⟨t, n, u, hexec, hrun, hdone, htrace⟩ := blit_shows h hidle haln hv
  refine ⟨t, n, u, _, hexec, hrun, hdone, htrace, ?_⟩
  rw [readAddresses_blitObserved, packedBytes, Nat.mul_comm]
  rfl

/-- Settles O34: row by row, `rowPixels_of_all_set`; a set bit is drawn in FG whether or not BG is. -/
theorem allSetBitmapDrawsEveryPixelInFg : Obligations.AllSetBitmapDrawsEveryPixelInFg := by
  intro s f i order hidle haln h r w h' hv hset
  obtain ⟨t, n, u, hexec, hrun, hdone, htrace⟩ := blit_shows h hidle haln hv
  obtain ⟨hw, hh, -⟩ := (blitVerdict_eq_ok_iff _ _).mp hv
  have hwidth : r.p3.toInt = w := by
    have := toNat_toInt_of_nonneg hw.le
    omega
  have hrow : w ≤ 8 * byteWidth r.p3 := by
    have := toInt_le_eight_mul_byteWidth r.p3
    omega
  have hdrawn : sinkPart (blitObserved s r.srcSpace r (blitRegs order r)) =
      (gridOrder h' w).map fun p => .plot (loopVar r.p0 p.2) (loopVar r.p1 p.1) r.fg := by
    rw [sinkPart_blitObserved]
    refine bitmapPixels_of_all_set r (g := blitRegs order r) _ hwidth (toNat_toInt_of_nonneg hh.le) hrow ?_
    intro j i hj hi
    rw [← Nat.add_assoc]
    exact hset j i hj hi
  refine ⟨t, n, u, _, hexec, hrun, hdone, htrace, ?_, hdrawn⟩
  rw [hdrawn, List.length_map, length_gridOrder, Nat.mul_comm]

end Sys2Proof.Machine
end

section
/-! The stream commands SBLIT and SGLYPH (44_stream_decoder.md): the alignment check R226, and the two commands from
acceptance to completion when every read answers Data.

The two commands differ in their grid of bytes and in what a byte draws (R233, R244), so they have one proof, over the
instruction and its grid (`StreamsBy`). -/

namespace Sys2Proof.Machine

/-! ## The operand check -/

/-- `Validate` steps 4 and 6 on SBLIT (30_encoding.md R97): degenerate (60_exceptions.md R306), off a block boundary
(R226), or passed. -/
theorem sblitVerdict_eq (c : Config) (r : Regs) :
    sblitVerdict c r =
      if r.p3.toInt ≤ 0 ∨ r.p4.toInt ≤ 0 then .degenerate else if offBoundary c r then .misaligned else .ok := by
  simp only [sblitVerdict, bitmapDegenerate, decide_eq_true_eq]

/-- `Validate` steps 4 and 6 on SGLYPH (30_encoding.md R97). -/
theorem sglyphVerdict_eq (c : Config) (r : Regs) :
    sglyphVerdict c r =
      if r.glyphWidth = 0 ∨ r.glyphBands = 0 then .degenerate else if offBoundary c r then .misaligned else .ok := by
  simp only [sglyphVerdict, glyphDegenerate, decide_eq_true_eq]

theorem pos_of_sblitVerdict_ok {c : Config} {r : Regs} (h : sblitVerdict c r = .ok) :
    0 < r.p3.toInt ∧ 0 < r.p4.toInt := by
  rw [sblitVerdict_eq] at h
  split at h
  · cases h
  · omega

theorem pos_of_sglyphVerdict_ok {c : Config} {r : Regs} (h : sglyphVerdict c r = .ok) :
    0 < r.glyphWidth ∧ 0 < r.glyphBands := by
  rw [sglyphVerdict_eq] at h
  split at h
  · cases h
  · omega

/-- A command of the aligned discipline that starts off a block boundary fails the check of R226. -/
theorem offBoundary_snapshotFor_encode {s : State} {i : Instr} (haln : i.flags.aln = true)
    (hoff : s.live.p2.toNat % s.cfg.blockSize.toNat ≠ 0) :
    offBoundary s.cfg (s.snapshotFor (encode i)) = true := by
  have hflag : (s.snapshotFor (encode i)).alnFlag = true := (congrArg Flags.aln (flagsOf_encode i)).trans haln
  rw [offBoundary, hflag, Bool.true_and]
  exact decide_eq_true hoff

/-- A well-formed command with the verdict MISALIGNED is refused, its pseudocode not started (R226). -/
theorem exec_misaligned {i : Instr} {s : State} (hidle : s.busy = false) (hi : i.wellFormed = true)
    (hv : verdictOf i s.cfg (s.snapshotFor (encode i)) = .misaligned) :
    exec i s = .next ((s.latch (encode i)).latchError .misaligned) := by
  rw [exec_idle hidle hi, hv]
  rfl

/-- The low byte of an operand register, as SGLYPH reads it (30_encoding.md R95). -/
theorem toNat_extractLsb'_eight (a : Word) : (a.extractLsb' 0 8).toNat = a.toNat % 256 := by
  simp [BitVec.extractLsb'_toNat]

/-- SBLIT allows the flags BG and ALN (30_encoding.md R92). -/
theorem wellFormed_sblit {f : Flags} (hsrc : f.src = false) : (Instr.sblit f).wellFormed = true := by
  simp [Instr.wellFormed, Instr.flags, Instr.allows, Flags.within, hsrc]

/-- SGLYPH allows the flag ALN (30_encoding.md R92). -/
theorem wellFormed_sglyph {f : Flags} (hbg : f.bg = false) (hsrc : f.src = false) :
    (Instr.sglyph f).wellFormed = true := by
  simp [Instr.wellFormed, Instr.flags, Instr.allows, Flags.within, hbg, hsrc]

/-- Settles O14: with operands that are not degenerate, the boundary check of R226 decides. -/
theorem misalignedStreamIsRefused : Obligations.MisalignedStreamIsRefused := by
  intro s f hidle hsrc haln hoff
  refine ⟨fun hw hh => ?_, fun hbg hw hb => ?_, latchError_err .misaligned _⟩
  · refine exec_misaligned hidle (wellFormed_sblit hsrc) ((sblitVerdict_eq _ _).trans ?_)
    have hdeg : ¬(s.live.p3.toInt ≤ 0 ∨ s.live.p4.toInt ≤ 0) := by omega
    exact (if_neg hdeg).trans (if_pos (offBoundary_snapshotFor_encode (i := .sblit f) haln hoff))
  · refine exec_misaligned hidle (wellFormed_sglyph hbg hsrc) ((sglyphVerdict_eq _ _).trans ?_)
    have hdeg : ¬(s.live.glyphWidth = 0 ∨ s.live.glyphBands = 0) := by
      rw [Regs.glyphWidth, Regs.glyphBands, toNat_extractLsb'_eight, toNat_extractLsb'_eight]
      exact not_or.mpr ⟨hw, hb⟩
    exact (if_neg hdeg).trans (if_pos (offBoundary_snapshotFor_encode (i := .sglyph f) haln hoff))

/-! ## SBLIT and SGLYPH as one -/

/-- What the two stream commands differ in: how many rows or bands of how many bytes, their loop, the use they make of
a byte, and what it draws. -/
structure StreamGrid where
  height : Nat
  width : Nat
  loop : Nat → Nat → Proc
  use : Nat → Nat → ByteUse
  draw : Nat × Nat → Byte → List SinkReq

/-- SBLIT's grid (R233). -/
def sblitGrid (r : Regs) : StreamGrid where
  height := r.p4.toInt.toNat
  width := byteWidth r.p3
  loop := .bitmapLoop (sblitRegs r)
  use := .bitmap (sblitRegs r)
  draw := fun p => bytePixels r (sblitRegs r) p.1 p.2

/-- SGLYPH's grid (R244). -/
def sglyphGrid (cfg : Config) (r : Regs) : StreamGrid where
  height := r.glyphBands
  width := r.glyphWidth
  loop := .glyphLoop (glyphRegs r)
  use := .glyph (glyphRegs r)
  draw := fun p => columnPixels cfg r (glyphRegs r) p.1 p.2

/-- The length `L` of the stream (R231). -/
def StreamGrid.size (g : StreamGrid) : Nat := g.width * g.height

/-- The cursor that `StreamInit` leaves for this grid (R222). -/
def StreamGrid.cursor (g : StreamGrid) (start : Word) : StreamCursor := streamStart start (BitVec.ofNat 32 g.size)

/-- What the command shows when every read answers Data. -/
def StreamGrid.shown (g : StreamGrid) (cfg : Config) (remote : Memory) (start : Word) : List Observed :=
  streamObserved cfg remote (g.cursor start) ((gridOrder g.height g.width).map g.draw)

/-- The instruction is a stream command that passes its checks on the operands `r`, and `g` is its grid. -/
inductive StreamsBy (cfg : Config) (r : Regs) : Instr → StreamGrid → Prop
  | sblit {f : Flags} (hsrc : f.src = false) (hv : sblitVerdict cfg r = .ok) : StreamsBy cfg r (.sblit f) (sblitGrid r)
  | sglyph {f : Flags} (hbg : f.bg = false) (hsrc : f.src = false) (hv : sglyphVerdict cfg r = .ok) :
      StreamsBy cfg r (.sglyph f) (sglyphGrid cfg r)

namespace StreamsBy

variable {cfg : Config} {r : Regs} {i : Instr} {g : StreamGrid}

theorem wellFormed (h : StreamsBy cfg r i g) : i.wellFormed = true := by
  cases h with
  | sblit hsrc _ => exact wellFormed_sblit hsrc
  | sglyph hbg hsrc _ => exact wellFormed_sglyph hbg hsrc

theorem verdictOf_eq_ok (h : StreamsBy cfg r i g) : verdictOf i cfg r = .ok := by
  cases h with
  | sblit _ hv => exact hv
  | sglyph _ _ hv => exact hv

theorem bodyOf_eq (h : StreamsBy cfg r i g) :
    bodyOf i r = [.upd (.streamInit r.p2 (BitVec.ofNat 32 g.size)), .call (g.loop 0 0)] := by
  cases h <;> rfl

/-- A stream that passes its checks has a byte to read (R231). -/
theorem height_pos (h : StreamsBy cfg r i g) : 0 < g.height := by
  cases h with
  | sblit _ hv =>
    have hh := (pos_of_sblitVerdict_ok hv).2
    exact Int.pos_iff_toNat_pos.mp hh
  | sglyph _ _ hv => exact (pos_of_sglyphVerdict_ok hv).2

theorem width_pos (h : StreamsBy cfg r i g) : 0 < g.width := by
  cases h with
  | sblit _ hv =>
    have hw := (pos_of_sblitVerdict_ok hv).1
    have hbits := toInt_le_eight_mul_byteWidth r.p3
    change 0 < byteWidth r.p3
    omega
  | sglyph _ _ hv => exact (pos_of_sglyphVerdict_ok hv).1

theorem size_pos (h : StreamsBy cfg r i g) : 0 < g.height * g.width := Nat.mul_pos h.height_pos h.width_pos

theorem draws_ne_nil (h : StreamsBy cfg r i g) : (gridOrder g.height g.width).map g.draw ≠ [] := by
  rw [← List.length_pos_iff, List.length_map, length_gridOrder]
  exact h.size_pos

/-- The loops of either command are a walk over its grid (R233, R244). -/
theorem gridLoop {s : State} (h : StreamsBy s.cfg s.snap i g) (hcfg : s.cfg.legal = true) :
    GridLoop (fun a => a.noData = false) s g.height g.width g.loop (fun sc j k => nextByteTasks sc (g.use j k))
      (fetchShown s.cfg s.remote g.draw) (Supply.next s.cfg) Supply.inStep := by
  cases h with
  | sblit _ _ => exact sblitGridLoop (g := sblitRegs s.snap) rfl hcfg
  | sglyph _ _ _ => exact glyphGridLoop (g := glyphRegs s.snap) hcfg

end StreamsBy

/-! ## From acceptance to completion -/

/-- A stream with a byte to read shows something. -/
theorem streamObserved_ne_nil (cfg : Config) (remote : Memory) (c : StreamCursor) {draws : List (Byte → List SinkReq)}
    (h : draws ≠ []) : streamObserved cfg remote c draws ≠ [] := by
  obtain ⟨draw, draws, rfl⟩ := List.exists_cons_of_ne_nil h
  simp [streamObserved, fetchObserved]

/-- Prompt answers have data. -/
theorem noData_of_mem_replicate_ready {n : Nat} {a : Answer} (h : a ∈ List.replicate n .ready) : a.noData = false := by
  rw [List.eq_of_mem_replicate h]
  rfl

section
variable {s : State} {i : Instr} {g : StreamGrid} (hidle : s.busy = false) (hcfg : s.cfg.legal = true)
  (h : StreamsBy s.cfg (s.snapshotFor (encode i)) i g)
include hidle hcfg h

/-- A stream command that passes its checks, every read answering Data, from acceptance to completion: one engine step
per observation. -/
theorem stream_completes {as : List Answer} (hlen : as.length = (g.shown s.cfg s.remote s.live.p2).length)
    (has : ∀ a ∈ as, a.noData = false) :
    ∃ t, exec i s = .next t ∧ t.busy = true ∧
      engineRun as t = .next (s.afterStream (encode i) (g.shown s.cfg s.remote s.live.p2) (BitVec.ofNat 32 g.size)
        (BitVec.ofNat 16 g.height) (cursorAfter s.cfg (g.cursor s.live.p2) g.size)) := by
  have hreach := reach_stream (h.gridLoop (s := (s.latch (encode i)).start (bodyOf i (s.snapshotFor (encode i)))) hcfg)
    h.bodyOf_eq h.size_pos
  have hpos := List.length_pos_iff.mpr (streamObserved_ne_nil s.cfg s.remote (g.cursor s.live.p2) h.draws_ne_nil)
  obtain ⟨t, hexec, hbusy, hrun⟩ := exec_reach hidle h.wellFormed h.verdictOf_eq_ok hreach rfl
    (hlen.trans (max_eq_right hpos).symm) has
  refine ⟨t, hexec, hbusy, hrun.trans (congrArg Host.Outcome.next ?_)⟩
  have hstatus : withBusy false (withBusy true (withErr 0 s.status)) = withErr 0 s.status :=
    withBusy_false_of_idle _ true ((busyBit_withErr _ 0).trans hidle)
  have hsize : g.height * g.width = g.size := Nat.mul_comm _ _
  simp only [State.placed, State.complete, State.start, State.latch, State.afterStream, State.afterCommand, hstatus,
    hsize, zero_add]
  rfl

/-- Prompt answers complete a stream command that passes its checks. -/
theorem stream_completes_promptly : ∃ t n, exec i s = .next t ∧
    engineRun (List.replicate n .ready) t = .next (s.afterStream (encode i) (g.shown s.cfg s.remote s.live.p2)
      (BitVec.ofNat 32 g.size) (BitVec.ofNat 16 g.height) (cursorAfter s.cfg (g.cursor s.live.p2) g.size)) := by
  obtain ⟨t, hexec, -, hrun⟩ := stream_completes hidle hcfg h List.length_replicate
    fun _ => noData_of_mem_replicate_ready
  exact ⟨t, _, hexec, hrun⟩

end

/-- Settles O30: SBLIT's grid has `h` rows of `ceil(w / 8)` bytes. -/
theorem sblitStreamsItsBitmap : Obligations.SblitStreamsItsBitmap := by
  intro s f as hidle hcfg hsrc r os n hv hlen has
  have hrows : BitVec.ofNat 16 r.p4.toInt.toNat = r.p4 := ofNat_toInt_of_nonneg (pos_of_sblitVerdict_ok hv).2.le
  rw [← hrows]
  exact stream_completes hidle hcfg (.sblit hsrc hv) hlen has

/-- Settles O31: SGLYPH's grid has `gb` bands of `gw` bytes. -/
theorem sglyphStreamsItsGlyph : Obligations.SglyphStreamsItsGlyph := by
  intro s f as hidle hcfg hbg hsrc r os n hv hlen has
  exact stream_completes hidle hcfg (.sglyph hbg hsrc hv) hlen has

end Sys2Proof.Machine
end

section
/-! What a stream emits is what its bytes draw (44_stream_decoder.md R230), so that SBLIT of a bitmap and BLIT of
the same bytes emit the same (property L1-P5). -/

namespace Sys2Proof.Machine

/-! ## The emission of a stream -/

theorem sinkPart_append (os ps : List Observed) : sinkPart (os ++ ps) = sinkPart os ++ sinkPart ps :=
  List.filterMap_append ..

theorem sinkPart_sinks (rs : List SinkReq) : sinkPart (rs.map .sink) = rs := by
  simp [sinkPart]

/-- A fetch emits nothing of its own. -/
theorem sinkPart_fetchObserved (cfg : Config) (c : StreamCursor) (b : Byte) :
    sinkPart (fetchObserved cfg c b) = [] := by
  unfold fetchObserved
  split <;> rfl

/-- The emission of a stream: draw number `m` is given the byte `m` places on, modulo 2^16 (20_memory.md R74). -/
theorem sinkPart_streamObserved (cfg : Config) (remote : Memory) (start : Word) (draws : List (Byte → List SinkReq))
    {c : StreamCursor} {m : Nat} (hc : c.raddr = start + BitVec.ofNat 16 m) :
    sinkPart (streamObserved cfg remote c draws) =
      (draws.zipIdx m).flatMap fun d => d.1 (remote.read (start + BitVec.ofNat 16 d.2).toNat) := by
  induction draws generalizing c m with
  | nil => rfl
  | cons draw draws ih =>
    have hnext : (cursorReady cfg c).consume.raddr = start + BitVec.ofNat 16 (m + 1) := by
      change (cursorReady cfg c).raddr + 1#16 = _
      rw [(cursorReady_raddr_bleft cfg c).1, hc, BitVec.ofNat_add, BitVec.add_assoc]
    rw [streamObserved, sinkPart_append, sinkPart_append, sinkPart_fetchObserved, sinkPart_sinks, ih hnext, hc,
      List.zipIdx_cons, List.flatMap_cons, List.nil_append]

/-- Row by row, the position `(j, k)` of a grid has number `j * w + k`. -/
theorem zipIdx_gridOrder (h w : Nat) : (gridOrder h w).zipIdx = (gridOrder h w).map fun p => (p, p.1 * w + p.2) := by
  rw [List.zipIdx_eq_zip_range', ← List.range_eq_range', length_gridOrder, ← gridOrder_map_index,
    List.map_prod_left_eq_zip]

/-- The emission of SBLIT is the pixels of its bitmap, byte by byte (R230, R233). -/
theorem sinkPart_sblitObserved (cfg : Config) (remote : Memory) (r : Regs) :
    sinkPart (sblitObserved cfg remote r) =
      bitmapPixels r (sblitRegs r) fun m => remote.read (r.p2 + BitVec.ofNat 16 m).toNat := by
  have hstart : (streamStart r.p2 (BitVec.ofNat 32 (packedBytes r.p3 r.p4))).raddr = r.p2 + BitVec.ofNat 16 0 :=
    (BitVec.add_zero r.p2).symm
  rw [sblitObserved, sinkPart_streamObserved cfg remote r.p2 _ hstart, List.zipIdx_map, zipIdx_gridOrder,
    List.flatMap_map, List.flatMap_map]
  rfl

/-! ## The same bitmap, streamed and local -/

/-- Bitmaps of one size whose bytes agree and draw alike have the same pixels. -/
theorem bitmapPixels_congr {snap snap' : Regs} {g g' : BitmapRegs} {bytes bytes' : Nat → Byte} (hrows : g.h = g'.h)
    (hwidth : g.bw = g'.bw) (hpixels : bytePixels snap g = bytePixels snap' g')
    (hbytes : ∀ m, m < g.h.toInt.toNat * g.bw → bytes m = bytes' m) :
    bitmapPixels snap g bytes = bitmapPixels snap' g' bytes' := by
  rw [bitmapPixels, bitmapPixels, ← hrows, ← hwidth, ← hpixels]
  refine List.flatMap_congr fun p hp => ?_
  have hindex : p.1 * g.bw + p.2 ∈ List.range (g.h.toInt.toNat * g.bw) := by
    rw [← gridOrder_map_index]
    exact List.mem_map_of_mem hp
  rw [hbytes _ (List.mem_range.mp hindex)]

/-- The background flag that a command's snapshot shows (30_encoding.md R90). -/
theorem bgFlag_snapshotFor_encode (s : State) (i : Instr) : (s.snapshotFor (encode i)).bgFlag = i.flags.bg :=
  congrArg Flags.bg (flagsOf_encode i)

/-- SBLIT draws a byte as BLIT does: the source of the byte apart, their locals are the same (R203, R233). -/
theorem bytePixels_sblitRegs {s : State} {v w : Word} (hbg : (s.snapshotFor v).bgFlag = (s.snapshotFor w).bgFlag) :
    bytePixels (s.snapshotFor v) (blitRegs .msb (s.snapshotFor v)) =
      bytePixels (s.snapshotFor w) (sblitRegs (s.snapshotFor w)) := by
  funext j k byte
  simp only [bytePixels, blitRegs, sblitRegs, hbg]
  rfl

/-- Settles O35: both emissions are the pixels of the bitmap, and the counters are its bytes and rows. -/
theorem sblitEmitsWhatBlitEmits : Obligations.SblitEmitsWhatBlitEmits := by
  intro s bg src aln hidle hcfg i j r hv hv' hbytes
  obtain ⟨t, hexec, -, hrun⟩ := blit_completes (order := .msb) (f := { bg := bg, src := src }) (.inl ⟨rfl, rfl⟩) hidle
    rfl hv rfl (List.length_replicate (a := Answer.ready))
  obtain ⟨t', n', hexec', hrun'⟩ := stream_completes_promptly (i := j) hidle hcfg (.sblit rfl hv')
  have hrows : r.p4 = BitVec.ofNat 16 r.p4.toInt.toNat :=
    (ofNat_toInt_of_nonneg (pos_of_sblitVerdict_ok hv').2.le).symm
  have hflag : r.bgFlag = (s.snapshotFor (encode j)).bgFlag :=
    (bgFlag_snapshotFor_encode s i).trans (bgFlag_snapshotFor_encode s j).symm
  have hemit : sinkPart (blitObserved s r.srcSpace r (blitRegs .msb r)) =
      sinkPart (sblitObserved s.cfg s.remote (s.snapshotFor (encode j))) := by
    rw [sinkPart_blitObserved, sinkPart_sblitObserved]
    refine bitmapPixels_congr rfl rfl (bytePixels_sblitRegs hflag) fun m hm => (hbytes m ?_).symm
    rw [packedBytes, Nat.mul_comm]
    exact hm
  have hdone : busyBit (withErr 0 s.status) = false := (busyBit_withErr s.status 0).trans hidle
  exact ⟨t, _, _, _, t', n', _, _, hexec, hrun, hdone, hexec', hrun', hdone, rfl, rfl, hemit, rfl, hrows⟩

end Sys2Proof.Machine
end

section
/-! How many transactions a stream makes (44_stream_decoder.md R227).

Between two bytes the requests made so far reach up to a block boundary, `e` blocks from address 0 (`RequestedTo`). The
first byte of a stream brings one request, to the end of its block; after it the rest of the stream needs as many more
as its end lies blocks beyond `e`, rounded up. -/

namespace Sys2Proof.Machine

/-! ## Counting -/

theorem transactionCounts_append (os ps : List Observed) :
    transactionCounts (os ++ ps) = transactionCounts os + transactionCounts ps := by
  simp only [transactionCounts, List.countP_append]
  rfl

/-- Sink requests are no transactions. -/
theorem transactionCounts_sinks (rs : List SinkReq) : transactionCounts (rs.map .sink) = 0 := by
  induction rs with
  | nil => rfl
  | cons r rs ih => exact (transactionCounts_append [.sink r] (rs.map .sink)).trans (by rw [ih]; rfl)

/-- Each byte of a stream is one read, with a seek and a request before it when the block is exhausted (R224). -/
theorem transactionCounts_cons (cfg : Config) (remote : Memory) (c : StreamCursor) (draw : Byte → List SinkReq)
    (draws : List (Byte → List SinkReq)) :
    transactionCounts (streamObserved cfg remote c (draw :: draws)) =
      (if c.kblk = 0 then 1 else 0, if c.kblk = 0 then 1 else 0, 1) +
        transactionCounts (streamObserved cfg remote (cursorReady cfg c).consume draws) := by
  have hfetch : ∀ b, transactionCounts (fetchObserved cfg c b) =
      (if c.kblk = 0 then 1 else 0, if c.kblk = 0 then 1 else 0, 1) := by
    intro b
    unfold fetchObserved
    split <;> rfl
  rw [streamObserved, transactionCounts_append, transactionCounts_append, transactionCounts_sinks, hfetch, add_zero]

/-! ## The reach of the requests -/

/-- The cursor stands at address `a`, and the bytes left of its request reach the boundary at `e` blocks. -/
structure RequestedTo (cfg : Config) (c : StreamCursor) (a e : Nat) : Prop where
  raddr : c.raddr = BitVec.ofNat 16 a
  reach : a + c.kblk.toNat = cfg.blockSize.toNat * e

theorem blockSize_pos {cfg : Config} (hcfg : cfg.legal = true) : 0 < cfg.blockSize.toNat := by
  simp only [Config.legal, Bool.and_eq_true, bne_iff_ne, ne_eq] at hcfg
  obtain ⟨⟨hblock, -⟩, -⟩ := hcfg
  exact Nat.pos_of_ne_zero fun h => hblock (BitVec.eq_of_toNat_eq h)

/-- A request reaches the end of the block it starts in (R221). -/
theorem add_requestSize (cfg : Config) (hcfg : cfg.legal = true) (a : Word) :
    a.toNat + (requestSize cfg a).toNat = cfg.blockSize.toNat * (a.toNat / cfg.blockSize.toNat + 1) := by
  have hpos := blockSize_pos hcfg
  have hmod := Nat.mod_lt a.toNat hpos
  have hsplit := Nat.div_add_mod a.toNat cfg.blockSize.toNat
  have hbyte := cfg.blockSize.isLt
  have hsize : (requestSize cfg a).toNat = cfg.blockSize.toNat - a.toNat % cfg.blockSize.toNat := by
    rw [requestSize, BitVec.toNat_ofNat, Nat.mod_eq_of_lt (by omega)]
  rw [hsize, Nat.mul_succ]
  omega

namespace RequestedTo

variable {cfg : Config} {c : StreamCursor} {a e : Nat}

/-- With nothing left of a request, the next reaches the end of the cursor's block (R221). -/
theorem of_empty (hcfg : cfg.legal = true) (hc : c.raddr = BitVec.ofNat 16 a) (hk : c.kblk = 0) (ha : a < 65536) :
    RequestedTo cfg (cursorReady cfg c) a (a / cfg.blockSize.toNat + 1) := by
  have haddr : c.raddr.toNat = a := by rw [hc, BitVec.toNat_ofNat, Nat.mod_eq_of_lt ha]
  have hreach := add_requestSize cfg hcfg c.raddr
  rw [haddr] at hreach
  rw [cursorReady, if_pos hk]
  exact ⟨hc, hreach⟩

/-- An exhausted request ends where the cursor stands. -/
theorem boundary (h : RequestedTo cfg c a e) (hk : c.kblk = 0) : a = cfg.blockSize.toNat * e := by
  have hreach := h.reach
  rwa [hk] at hreach

/-- Readiness for a read takes the requests one block on when nothing is left (R224). -/
theorem ready (h : RequestedTo cfg c a e) (hcfg : cfg.legal = true) (ha : a < 65536) :
    RequestedTo cfg (cursorReady cfg c) a (e + if c.kblk = 0 then 1 else 0) := by
  by_cases hk : c.kblk = 0
  · have hblock : a / cfg.blockSize.toNat = e := by
      rw [h.boundary hk, Nat.mul_div_cancel_left _ (blockSize_pos hcfg)]
    rw [if_pos hk, ← hblock]
    exact of_empty hcfg h.raddr hk ha
  · rw [if_neg hk, cursorReady, if_neg hk]
    exact h

/-- A read takes one byte of the request and moves its end nowhere. -/
theorem consume (h : RequestedTo cfg c a e) (hk : c.kblk ≠ 0) : RequestedTo cfg c.consume (a + 1) e := by
  refine ⟨?_, ?_⟩
  · rw [BitVec.ofNat_add, ← h.raddr]
    rfl
  · have hreach := h.reach
    have hpos : 0 < c.kblk.toNat := Nat.pos_of_ne_zero fun h0 => hk (BitVec.eq_of_toNat_eq h0)
    have hstep : c.consume.kblk.toNat = c.kblk.toNat - 1 := by
      change (c.kblk - 1#8).toNat = _
      bv_omega
    omega

end RequestedTo

/-- The cursor is ready for a read only with something left to read (R70). -/
theorem cursorReady_kblk_ne_zero {cfg : Config} (hcfg : cfg.legal = true) (c : StreamCursor) :
    (cursorReady cfg c).kblk ≠ 0 := by
  unfold cursorReady
  split
  · exact requestSize_ne_zero hcfg c.raddr
  · assumption

/-- A stream that reads on from an exhausted request reaches beyond it. -/
theorem RequestedTo.lt_ceilDiv {cfg : Config} {c : StreamCursor} {a e n : Nat} (h : RequestedTo cfg c a e)
    (hcfg : cfg.legal = true) (hk : c.kblk = 0) : e < (a + (n + 1)) ⌈/⌉ cfg.blockSize.toNat := by
  have hboundary := h.boundary hk
  rw [← Nat.not_le, ceilDiv_le_iff_le_mul (blockSize_pos hcfg)]
  omega

/-- The requests that follow when those made reach `e` blocks and `n` bytes are still to be read from address `a`. -/
def moreRequests (cfg : Config) (a n e : Nat) : Nat := (a + n) ⌈/⌉ cfg.blockSize.toNat - e

/-- The next byte's request is one of those that follow. -/
theorem moreRequests_succ {cfg : Config} {c : StreamCursor} {a e : Nat} (h : RequestedTo cfg c a e)
    (hcfg : cfg.legal = true) (n : Nat) :
    moreRequests cfg a (n + 1) e =
      (if c.kblk = 0 then 1 else 0) + moreRequests cfg (a + 1) n (e + if c.kblk = 0 then 1 else 0) := by
  have hend : a + 1 + n = a + (n + 1) := by omega
  rw [moreRequests, moreRequests, hend]
  split
  · have hbeyond := h.lt_ceilDiv (n := n) hcfg ‹_›
    omega
  · omega

/-- What is left of a stream after its requests reach `e` blocks: the requests that follow, each with its seek, and a
read for each byte. -/
theorem transactionCounts_of_requestedTo {cfg : Config} (hcfg : cfg.legal = true) (remote : Memory)
    (draws : List (Byte → List SinkReq)) {c : StreamCursor} {a e : Nat} (h : RequestedTo cfg c a e)
    (hfit : a + draws.length ≤ 65536) :
    transactionCounts (streamObserved cfg remote c draws) =
        (moreRequests cfg a draws.length e, moreRequests cfg a draws.length e, draws.length) ∧
      RequestedTo cfg (cursorAfter cfg c draws.length) (a + draws.length)
        (e + moreRequests cfg a draws.length e) := by
  induction draws generalizing c a e with
  | nil =>
    have hdone : a ⌈/⌉ cfg.blockSize.toNat ≤ e :=
      (ceilDiv_le_iff_le_mul (blockSize_pos hcfg)).mpr (h.reach ▸ Nat.le_add_right _ _)
    have hnone : moreRequests cfg a 0 e = 0 := Nat.sub_eq_zero_of_le hdone
    rw [List.length_nil, hnone]
    exact ⟨rfl, h⟩
  | cons draw draws ih =>
    rw [List.length_cons] at hfit
    obtain ⟨hcounts, hafter⟩ := ih ((h.ready hcfg (by omega)).consume (cursorReady_kblk_ne_zero hcfg c)) (by omega)
    rw [List.length_cons, moreRequests_succ h hcfg]
    constructor
    · rw [transactionCounts_cons, hcounts, Prod.mk_add_mk, Prod.mk_add_mk, Nat.add_comm 1]
    · rw [Nat.add_right_comm a 1] at hafter
      rw [← Nat.add_assoc e]
      exact hafter

/-- Blocks up to an end, counted from the block of the start. -/
theorem add_ceilDiv_eq {b : Nat} (hb : 0 < b) (a n : Nat) : (a + n) ⌈/⌉ b = a / b + (a % b + n) ⌈/⌉ b := by
  have hsplit := Nat.mod_add_div a b
  have hend : a + n + b - 1 = a % b + n + b - 1 + b * (a / b) := by omega
  rw [Nat.ceilDiv_eq_add_pred_div, hend, Nat.add_mul_div_left _ _ hb, Nat.add_comm]
  rfl

/-- R227 for a stream of at least one byte: the first brings one request, which reaches the end of its block, and the
rest follow. -/
theorem transactionCounts_stream {cfg : Config} (hcfg : cfg.legal = true) (remote : Memory) (start : Word)
    (len : Word32) {draws : List (Byte → List SinkReq)} (hne : draws ≠ []) (hfit : start.toNat + draws.length ≤ 65536) :
    let pairs := (start.toNat % cfg.blockSize.toNat + draws.length) ⌈/⌉ cfg.blockSize.toNat
    transactionCounts (streamObserved cfg remote (streamStart start len) draws) = (pairs, pairs, draws.length) ∧
      RequestedTo cfg (cursorAfter cfg (streamStart start len) draws.length) (start.toNat + draws.length)
        (start.toNat / cfg.blockSize.toNat + pairs) := by
  intro pairs
  obtain ⟨draw, draws, rfl⟩ := List.exists_cons_of_ne_nil hne
  rw [List.length_cons] at hfit
  have hpos := blockSize_pos hcfg
  have haddr : (streamStart start len).raddr = BitVec.ofNat 16 start.toNat := by simp [streamStart]
  have hstart := RequestedTo.of_empty hcfg haddr rfl (by omega)
  obtain ⟨hcounts, hafter⟩ := transactionCounts_of_requestedTo hcfg remote draws
    (hstart.consume (cursorReady_kblk_ne_zero hcfg _)) (by omega)
  have hone : 1 ≤ pairs := by
    rw [← Nat.not_lt, Nat.lt_one_iff, ← Nat.le_zero, ceilDiv_le_iff_le_mul hpos, List.length_cons]
    omega
  have hpairs :
      1 + moreRequests cfg (start.toNat + 1) draws.length (start.toNat / cfg.blockSize.toNat + 1) = pairs := by
    have hend := add_ceilDiv_eq hpos start.toNat (draws.length + 1)
    rw [moreRequests, Nat.add_right_comm, Nat.add_assoc, hend]
    change 1 + (_ + pairs - _) = pairs
    omega
  rw [← hpairs]
  constructor
  · have hempty : (streamStart start len).kblk = 0 := rfl
    rw [transactionCounts_cons, hcounts, if_pos hempty, Prod.mk_add_mk, Prod.mk_add_mk, List.length_cons,
      Nat.add_comm 1 draws.length]
  · rw [Nat.add_right_comm start.toNat 1] at hafter
    rw [← Nat.add_assoc]
    exact hafter

/-- Settles O36: either command's stream is one of `L` bytes from P2. -/
theorem streamRequestCount : Obligations.StreamRequestCount := by
  intro s f i n hidle hcfg r b o pairs hi hfit
  obtain ⟨g, h, hn⟩ : ∃ g, StreamsBy s.cfg r i g ∧ n = g.size := by
    obtain ⟨rfl, hsrc, hv, hn⟩ | ⟨rfl, hbg, hsrc, hv, hn⟩ := hi
    · exact ⟨_, .sblit hsrc hv, hn⟩
    · exact ⟨_, .sglyph hbg hsrc hv, hn⟩
  obtain ⟨t, k, hexec, hrun⟩ := stream_completes_promptly hidle hcfg h
  have hlength : ((gridOrder g.height g.width).map g.draw).length = n := by
    rw [List.length_map, length_gridOrder, hn, StreamGrid.size, Nat.mul_comm]
  obtain ⟨hcounts, hreach⟩ := transactionCounts_stream hcfg s.remote r.p2 (BitVec.ofNat 32 g.size) (h.draws_ne_nil)
    (hlength.symm ▸ hfit)
  rw [hlength] at hcounts hreach
  have hdone : busyBit (withErr 0 s.status) = false := (busyBit_withErr s.status 0).trans hidle
  refine ⟨t, k, _, _, hexec, hrun, hdone, rfl, hcounts, ?_⟩
  have hleft : r.p2.toNat + n + (cursorAfter s.cfg (g.cursor r.p2) n).kblk.toNat = b * (r.p2.toNat / b) + b * pairs :=
    hreach.reach.trans (Nat.mul_add ..)
  have hsplit : o + b * (r.p2.toNat / b) = r.p2.toNat := Nat.mod_add_div ..
  change (cursorAfter s.cfg (g.cursor r.p2) g.size).kblk.toNat = b * pairs - o - n
  rw [← hn]
  omega

end Sys2Proof.Machine
end

section
/-! A stream that runs out of data (44_stream_decoder.md R228, R232, R242).

The engine has by then followed the derivation of the whole stream up to the read that answers NoData. So: a run may
stop where a derivation stops before an action (`Reach.engineRun_concat`); the walk over a grid is followed up to any of
its bytes, with the counters of the bytes and whole rows before it (`GridLoop.reach_byte`); and what a stream shows
before one of its reads is some number of whole bytes and the transactions of the next (`streamObserved_split_at_read`). -/

namespace Sys2Proof.Machine

/-! ## A run that stops before an action -/

/-- Runs from states that differ in internal computation alone are the same. -/
theorem engineRun_congr_settle {s u : State} {as : List Answer} (h : settle s = settle u) (hs : s.eng = .exec)
    (hu : u.eng = .exec) (has : as ≠ []) : engineRun as s = engineRun as u := by
  obtain ⟨a, as, rfl⟩ := List.exists_cons_of_ne_nil has
  rw [engineRun, engineRun, ← engineTurn_settle a hs, h, engineTurn_settle a hu]

/-- The engine follows a derivation to the action where it stops, one step per observation, and then takes that
action. -/
theorem Reach.engineRun_concat {good : Answer → Prop} {s t : State} {os : List Observed} (h : Reach good s os t)
    (ht : ∃ a rest, t.cont = .act a :: rest) (hs : s.eng = .exec) :
    (settle s).cont ≠ [] ∧ ∀ (as : List Answer) (b : Answer), as.length = os.length → (∀ a ∈ as, good a) →
      engineRun (as ++ [b]) s = engineRun [b] t := by
  induction h with
  | refl s =>
    obtain ⟨a, rest, hc⟩ := ht
    have hset : settle s = s := settle_of_atAction (by rw [hc]; rfl)
    refine ⟨by simp [hset, hc], fun as b hl _ => ?_⟩
    rw [List.eq_nil_of_length_eq_zero hl, List.nil_append]
  | call hc _ ih =>
    obtain ⟨hne, hrun⟩ := ih ht hs
    refine ⟨settle_call hc ▸ hne, fun as b hl hg => ?_⟩
    exact (engineRun_congr_settle (settle_call hc) hs hs (by simp)).trans (hrun as b hl hg)
  | @upd s u rest os t hc _ ih =>
    have hs' : (State.update u { s with cont := rest }).eng = .exec := (State.update_eng _ u).trans hs
    obtain ⟨hne, hrun⟩ := ih ht hs'
    refine ⟨settle_upd hc ▸ hne, fun as b hl hg => ?_⟩
    exact (engineRun_congr_settle (settle_upd hc) hs hs' (by simp)).trans (hrun as b hl hg)
  | @act s a rest u o os t hc hp _ he _ ih =>
    have hs' := he.trans hs
    obtain ⟨hne, hrun⟩ := ih ht hs'
    have hset : settle s = s := settle_of_atAction (by rw [hc]; rfl)
    refine ⟨by simp [hset, hc], fun as b hl hg => ?_⟩
    obtain ⟨c, as, rfl⟩ : ∃ c as', as = c :: as' := List.exists_cons_of_length_eq_add_one hl
    have hturn : engineTurn c s = .next (settle u) := by
      rw [engineTurn_act c hs hc, hp c (hg c List.mem_cons_self)]
      exact congrArg Host.Outcome.next ((finishAction_eq u).trans (if_neg hne))
    rw [List.cons_append, engineRun, hturn]
    exact (engineRun_congr_settle (settle_settle u) ((settle_eng u).trans hs') hs' (by simp)).trans
      (hrun as b (Nat.succ.inj hl) fun a ha => hg a (List.mem_cons_of_mem c ha))

/-! ## A grid up to one of its bytes -/

/-- Byte number `m` of a grid is in row `m / w` at place `m % w`. -/
theorem gridOrder_eq_map_div_mod (h w : Nat) :
    gridOrder h w = (List.range (h * w)).map fun m => (m / w, m % w) := by
  rw [← gridOrder_map_index, List.map_map]
  refine (List.map_id _).symm.trans (List.map_congr_left fun p hp => ?_)
  obtain ⟨j, _, hj⟩ := List.mem_flatMap.mp hp
  obtain ⟨k, hk, rfl⟩ := List.mem_map.mp hj
  have hk := List.mem_range.mp hk
  have hpos : 0 < w := by omega
  simp [Nat.mul_comm j, Nat.mul_add_div hpos, Nat.mod_eq_of_lt hk, Nat.div_eq_of_lt hk]

theorem take_gridOrder {h w m : Nat} (hm : m ≤ h * w) :
    (gridOrder h w).take m = (List.range m).map fun m => (m / w, m % w) := by
  rw [gridOrder_eq_map_div_mod, ← List.map_take, List.take_range, Nat.min_eq_left hm]

section
variable {good : Answer → Prop} {s : State} {height width : Nat} {loop : Nat → Nat → Proc}
  {fetch : StreamCursor → Nat → Nat → List Task} {obs : Nat × Nat → Supply → List Observed} {nxt : Supply → Supply}
  {inv : Supply → Prop}

/-- One byte of a row, the row not ended by it. -/
theorem GridLoop.reach_next (h : GridLoop good s height width loop fetch obs nxt inv) {j k : Nat} (hj : j < height)
    (hk : k < width) (rest : List Task) (bd : Word32) (rd : Word) {u : Supply} (hu : inv u) (tr : List Observed) :
    Reach good (s.placed (.call (loop j k) :: rest) bd rd u tr) (obs (j, k) u)
      (s.placed (.call (loop j (k + 1)) :: rest) (bd + 1) rd (nxt u) ((obs (j, k) u).reverse ++ tr)) := by
  have hfetch := h.fetched j k (.upd .byteDone :: .call (loop j (k + 1)) :: rest) bd rd u tr hj hk hu
  refine .call (p := loop j k) (rest := rest) rfl ?_
  rw [show (s.placed (.call (loop j k) :: rest) bd rd u tr).cfg = s.cfg from rfl,
    show (s.placed (.call (loop j k) :: rest) bd rd u tr).snap = s.snap from rfl, h.byte _ _ _ hj hk]
  have hdone : Reach good
      (s.placed (.upd .byteDone :: .call (loop j (k + 1)) :: rest) bd rd (nxt u) ((obs (j, k) u).reverse ++ tr)) []
      (s.placed (.call (loop j (k + 1)) :: rest) (bd + 1) rd (nxt u) ((obs (j, k) u).reverse ++ tr)) :=
    .upd rfl (.refl _)
  have hboth := hfetch.trans hdone
  rw [List.append_nil] at hboth
  simpa [State.push, State.placed] using hboth

/-- From byte number `m` of a grid to the next, which may begin a row. -/
theorem GridLoop.reach_succ (h : GridLoop good s height width loop fetch obs nxt inv) {m : Nat}
    (hm : m < height * width) (rest : List Task) (bd : Word32) (rd : Word) {u : Supply} (hu : inv u)
    (tr : List Observed) :
    Reach good (s.placed (.call (loop (m / width) (m % width)) :: rest) bd (rd + BitVec.ofNat 16 (m / width)) u tr)
      (obs (m / width, m % width) u)
      (s.placed (.call (loop ((m + 1) / width) ((m + 1) % width)) :: rest) (bd + 1)
        (rd + BitVec.ofNat 16 ((m + 1) / width)) (nxt u) ((obs (m / width, m % width) u).reverse ++ tr)) := by
  have hpos : 0 < width := Nat.pos_of_ne_zero fun h0 => by simp [h0] at hm
  have hj : m / width < height := (Nat.div_lt_iff_lt_mul hpos).mpr hm
  have hk : m % width < width := Nat.mod_lt m hpos
  have hsplit := Nat.mod_add_div m width
  rcases Nat.lt_or_ge (m % width + 1) width with hin | hend
  · obtain ⟨hrow, hplace⟩ := (Nat.div_mod_unique hpos).mpr
      ⟨(show m % width + 1 + width * (m / width) = m + 1 by omega), hin⟩
    rw [hrow, hplace]
    exact h.reach_next hj hk rest bd _ hu tr
  · obtain ⟨hrow, hplace⟩ := (Nat.div_mod_unique hpos).mpr
      ⟨(show 0 + width * (m / width + 1) = m + 1 by rw [Nat.mul_succ]; omega), hpos⟩
    have hrows : rd + BitVec.ofNat 16 (m / width) + 1 = rd + BitVec.ofNat 16 (m / width + 1) := by
      rw [BitVec.ofNat_add, BitVec.add_assoc]
      rfl
    rw [hrow, hplace, ← hrows]
    simpa [walkObserved] using (h.rowReach 1 hj (by omega) rest bd (rd + BitVec.ofNat 16 (m / width)) hu tr).2

/-- The walk over a grid up to its byte number `m`: `m` bytes and the whole rows among them are done. -/
theorem GridLoop.reach_byte (h : GridLoop good s height width loop fetch obs nxt inv) {m : Nat}
    (hm : m < height * width) (rest : List Task) (bd : Word32) (rd : Word) {u : Supply} (hu : inv u)
    (tr : List Observed) :
    inv (nxt^[m] u) ∧ ∃ tr', Reach good (s.placed (.call (loop 0 0) :: rest) bd rd u tr)
      (walkObserved obs nxt u ((gridOrder height width).take m))
      (s.placed (.call (loop (m / width) (m % width)) :: rest) (bd + BitVec.ofNat 32 m)
        (rd + BitVec.ofNat 16 (m / width)) (nxt^[m] u) tr') := by
  induction m with
  | zero =>
    refine ⟨hu, tr, ?_⟩
    rw [Nat.zero_div, Nat.zero_mod, show bd + BitVec.ofNat 32 0 = bd from BitVec.add_zero bd,
      show rd + BitVec.ofNat 16 0 = rd from BitVec.add_zero rd]
    exact .refl _
  | succ m ih =>
    obtain ⟨hinv, tr', hreach⟩ := ih (by omega)
    have hnext := hreach.trans (h.reach_succ (m := m) (by omega) rest (bd + BitVec.ofNat 32 m) rd hinv tr')
    have hwalk : walkObserved obs nxt u ((gridOrder height width).take m) ++ obs (m / width, m % width) (nxt^[m] u) =
        walkObserved obs nxt u ((gridOrder height width).take (m + 1)) := by
      rw [take_gridOrder (by omega), take_gridOrder hm.le, List.range_succ, List.map_append, walkObserved_append,
        List.length_map, List.length_range]
      simp [walkObserved]
    have hbytes : bd + BitVec.ofNat 32 m + 1 = bd + BitVec.ofNat 32 (m + 1) := by
      rw [BitVec.ofNat_add, BitVec.add_assoc]
      rfl
    rw [hwalk, hbytes, ← Function.iterate_succ_apply' nxt] at hnext
    exact ⟨Function.iterate_succ_apply' nxt m u ▸ h.kept _ hinv, _, hnext⟩

end

/-! ## What a stream shows before one of its reads -/

/-- The transactions that precede a byte's read (R223, R224). -/
def fetchLead (cfg : Config) (c : StreamCursor) : List Observed :=
  if c.kblk = 0 then [.bsSeek c.raddr, .bsRequest (requestSize cfg c.raddr)] else []

theorem fetchObserved_eq (cfg : Config) (c : StreamCursor) (b : Byte) :
    fetchObserved cfg c b = fetchLead cfg c ++ [.bsRead (some b)] := rfl

/-- An element that is not in the first part of a list is in the second. -/
theorem exists_of_append_eq_append_cons {α : Type} {xs ys pre post : List α} {y : α} (h : xs ++ ys = pre ++ y :: post)
    (hy : y ∉ xs) : ∃ mid, pre = xs ++ mid ∧ ys = mid ++ y :: post := by
  rcases List.append_eq_append_iff.mp h with ⟨mid, hpre, hys⟩ | ⟨mid, hxs, hmid⟩
  · exact ⟨mid, hpre, hys⟩
  · cases mid with
    | nil => exact ⟨[], by simpa using hxs.symm, by simpa using hmid.symm⟩
    | cons z mid =>
      have hzy : y = z := (List.cons.inj hmid).1
      exact absurd (by rw [hxs, hzy]; simp) hy

theorem bsRead_not_mem_fetchLead (cfg : Config) (c : StreamCursor) (r : Option Byte) :
    .bsRead r ∉ fetchLead cfg c := by
  unfold fetchLead
  split <;> simp

theorem reads_fetchLead (cfg : Config) (c : StreamCursor) : (transactionCounts (fetchLead cfg c)).2.2 = 0 := by
  unfold fetchLead
  split <;> rfl

/-- Before a read that a stream shows it has shown `m` whole bytes, with a read each, and the transactions that precede
the next. -/
theorem streamObserved_split_at_read (cfg : Config) (remote : Memory) {c : StreamCursor}
    {draws : List (Byte → List SinkReq)} {pre post : List Observed} {b : Byte}
    (h : streamObserved cfg remote c draws = pre ++ .bsRead (some b) :: post) :
    ∃ m, m < draws.length ∧ (transactionCounts pre).2.2 = m ∧
      pre = streamObserved cfg remote c (draws.take m) ++ fetchLead cfg (cursorAfter cfg c m) := by
  induction draws generalizing c pre with
  | nil => simp [streamObserved] at h
  | cons draw draws ih =>
    rw [streamObserved, fetchObserved_eq, List.append_assoc, List.append_assoc, List.singleton_append] at h
    obtain ⟨mid, rfl, hmid⟩ := exists_of_append_eq_append_cons h (bsRead_not_mem_fetchLead cfg c _)
    cases mid with
    | nil =>
      refine ⟨0, Nat.succ_pos _, ?_, ?_⟩
      · rw [List.append_nil]
        exact reads_fetchLead cfg c
      · rw [List.append_nil]
        rfl
    | cons o mid =>
      obtain ⟨rfl, htail⟩ := List.cons.inj hmid
      obtain ⟨mid, rfl, hrest⟩ := exists_of_append_eq_append_cons htail (by simp)
      obtain ⟨m, hm, hreads, hpre⟩ := ih hrest
      refine ⟨m + 1, Nat.succ_lt_succ hm, ?_, ?_⟩
      · rw [transactionCounts_append, ← List.singleton_append, transactionCounts_append, transactionCounts_append,
          transactionCounts_sinks]
        simp only [Prod.snd_add, reads_fetchLead, hreads, zero_add]
        exact Nat.add_comm 1 m
      · rw [hpre, List.take_succ_cons, streamObserved, fetchObserved_eq, cursorAfter]
        simp

/-- A loop that comes to fetch a byte makes the transactions that precede its read, whatever their partners answer, and
stops before the read. -/
theorem reach_fetchLead {good : Answer → Prop} {s : State} {p : Proc} {use : ByteUse} {more rest : List Task}
    (hc : s.cont = .call p :: rest) (hp : unfold s.cfg s.snap s.sc p = nextByteTasks s.sc use ++ more) :
    ∃ t, Reach good s (fetchLead s.cfg s.sc) t ∧ t.cont = .act (.bsRead use) :: (more ++ rest) ∧ t.eng = s.eng ∧
      t.bdone = s.bdone ∧ t.rdone = s.rdone := by
  have hunfolded : (State.push (unfold s.cfg s.snap s.sc p) { s with cont := rest }).cont =
      nextByteTasks s.sc use ++ (more ++ rest) := by
    rw [hp, ← List.append_assoc]
    rfl
  unfold nextByteTasks at hunfolded
  unfold fetchLead
  split at hunfolded
  · rw [if_pos ‹_›]
    have hseek : Reach good _ _ _ :=
      .act hunfolded (fun _ _ => rfl) rfl rfl (.act rfl (fun _ _ => rfl) rfl rfl (.refl _))
    exact ⟨_, .call hc hseek, rfl, rfl, rfl, rfl⟩
  · rw [if_neg ‹_›]
    exact ⟨_, .call hc (.refl _), hunfolded, rfl, rfl, rfl⟩

/-- The walk over a streamed grid up to the read of its byte number `m`. -/
theorem GridLoop.reach_read {good : Answer → Prop} {s : State} {height width : Nat} {loop : Nat → Nat → Proc}
    {use : Nat → Nat → ByteUse} {obs : Nat × Nat → Supply → List Observed} {nxt : Supply → Supply}
    {inv : Supply → Prop}
    (h : GridLoop good s height width loop (fun sc j k => nextByteTasks sc (use j k)) obs nxt inv) {m : Nat}
    (hm : m < height * width) (bd : Word32) (rd : Word) {u : Supply} (hu : inv u) (tr : List Observed) :
    ∃ t rest, Reach good (s.placed [.call (loop 0 0)] bd rd u tr)
        (walkObserved obs nxt u ((gridOrder height width).take m) ++ fetchLead s.cfg (nxt^[m] u).sc) t ∧
      t.cont = .act (.bsRead (use (m / width) (m % width))) :: rest ∧ t.eng = s.eng ∧
      t.bdone = bd + BitVec.ofNat 32 m ∧ t.rdone = rd + BitVec.ofNat 16 (m / width) := by
  obtain ⟨-, tr', hreach⟩ := h.reach_byte hm [] bd rd hu tr
  have hpos : 0 < width := Nat.pos_of_ne_zero fun h0 => by simp [h0] at hm
  have hunfold := h.byte (nxt^[m] u).sc _ _ ((Nat.div_lt_iff_lt_mul hpos).mpr hm) (Nat.mod_lt m hpos)
  obtain ⟨t, hlead, ht⟩ := reach_fetchLead (good := good) (rest := [])
    (s := s.placed [.call (loop (m / width) (m % width))] (bd + BitVec.ofNat 32 m) (rd + BitVec.ofNat 16 (m / width))
      (nxt^[m] u) tr') rfl hunfold
  exact ⟨t, _, hreach.trans hlead, ht⟩

theorem iterate_next_sc (cfg : Config) (m : Nat) (u : Supply) :
    ((Supply.next cfg)^[m] u).sc = cursorAfter cfg u.sc m := by
  cases m with
  | zero => rfl
  | succ m => rw [iterate_next]

/-! ## The command -/

/-- The derivation of a stream command that starts, up to the read of its byte number `m`. -/
theorem StreamsBy.reach_read {s : State} {i : Instr} {g : StreamGrid} (h : StreamsBy s.cfg s.snap i g)
    (hcfg : s.cfg.legal = true) (hc : s.cont = bodyOf i s.snap) {m : Nat} (hm : m < g.height * g.width) :
    ∃ t use rest, Reach (fun a => a.noData = false) s
        (streamObserved s.cfg s.remote (g.cursor s.snap.p2) (((gridOrder g.height g.width).map g.draw).take m) ++
          fetchLead s.cfg (cursorAfter s.cfg (g.cursor s.snap.p2) m)) t ∧
      t.cont = .act (.bsRead use) :: rest ∧ t.eng = s.eng ∧ t.bdone = s.bdone + BitVec.ofNat 32 m ∧
      t.rdone = s.rdone + BitVec.ofNat 16 (m / g.width) := by
  obtain ⟨t, rest, hreach, ht⟩ := (h.gridLoop hcfg).reach_read hm s.bdone s.rdone
    (u := ⟨g.cursor s.snap.p2, s.bsPos, s.bsLeft⟩) (.inl rfl) s.trace
  rw [walkObserved_stream, iterate_next_sc, List.map_take] at hreach
  exact ⟨t, _, rest, .upd (hc.trans h.bodyOf_eq) hreach, ht⟩

/-- Settles O38: the run follows the whole stream's derivation up to the read that has no data, which then ends the
command (`noDataEndsTheCommand`). -/
theorem incompleteStreamReportsProgress : Obligations.IncompleteStreamReportsProgress := by
  intro s f i os pre post b width as hidle hcfg r hi hos hlen has n
  obtain ⟨g, h, rfl, rfl⟩ : ∃ g, StreamsBy s.cfg r i g ∧ os = g.shown s.cfg s.remote r.p2 ∧ width = g.width := by
    obtain ⟨rfl, hsrc, hv, hos, hwidth⟩ | ⟨rfl, hbg, hsrc, hv, hos, hwidth⟩ := hi
    · exact ⟨_, .sblit hsrc hv, hos, hwidth⟩
    · exact ⟨_, .sglyph hbg hsrc hv, hos, hwidth⟩
  obtain ⟨m, hm, hreads, hpre⟩ := streamObserved_split_at_read s.cfg s.remote hos
  rw [List.length_map, length_gridOrder] at hm
  obtain ⟨t, use, rest, hreach, hcont, heng, hbytes, hrows⟩ := h.reach_read
    (s := (s.latch (encode i)).start (bodyOf i r)) hcfg rfl hm
  have hrun := (hreach.engineRun_concat ⟨_, _, hcont⟩ rfl).2 as { noData := true } (hpre ▸ hlen) has
  obtain ⟨u, hturn, herr, hbusy, -, hu⟩ := noDataEndsTheCommand t use rest { noData := true } heng hcont (.inl rfl)
  have htrace : t.trace = pre.reverse ++ s.trace := hpre ▸ hreach.trace_eq
  refine ⟨_, u, exec_start hidle h.wellFormed h.verdictOf_eq_ok, ?_, herr, hbusy, ?_, ?_, ?_⟩
  · rw [hrun, engineRun, hturn]
    rfl
  · rw [hu, htrace]
    rfl
  · rw [hu, show n = m from hreads]
    exact hbytes.trans (BitVec.zero_add _)
  · rw [hu, show n = m from hreads]
    exact hrows.trans (BitVec.zero_add _)

end Sys2Proof.Machine
end

section
/-! Degenerate commands (60_exceptions.md R306, R310): `Validate` answers degenerate at step 4 (30_encoding.md R97),
before the address check R201 and the alignment check R226, and acceptance then only latches the word. -/

namespace Sys2Proof.Machine

/-! ## The operand checks that find a command degenerate -/

theorem runVerdict_of_nonpos (c : Config) {r : Regs} (h : r.p2.toInt ≤ 0) : runVerdict c r = .degenerate :=
  if_pos (decide_eq_true h)

theorem rectVerdict_of_nonpos (c : Config) {r : Regs} (h : r.p2.toInt ≤ 0 ∨ r.p3.toInt ≤ 0) :
    rectVerdict c r = .degenerate :=
  if_pos (decide_eq_true h)

/-- An empty bitmap is degenerate even where its source lies outside its space (R201). -/
theorem blitVerdict_of_nonpos (c : Config) {r : Regs} (h : r.p3.toInt ≤ 0 ∨ r.p4.toInt ≤ 0) :
    blitVerdict c r = .degenerate :=
  (blitVerdict_eq c r).trans (if_pos h)

/-- An empty streamed bitmap is degenerate even where its start is off a block boundary (R226). -/
theorem sblitVerdict_of_nonpos (c : Config) {r : Regs} (h : r.p3.toInt ≤ 0 ∨ r.p4.toInt ≤ 0) :
    sblitVerdict c r = .degenerate :=
  (sblitVerdict_eq c r).trans (if_pos h)

/-- An empty glyph is degenerate even where its start is off a block boundary (R226). Its size is in the low bytes of
P3 and P4 (R95), so the high bytes do not matter. -/
theorem sglyphVerdict_of_zero (c : Config) {r : Regs} (h : r.p3.toNat % 256 = 0 ∨ r.p4.toNat % 256 = 0) :
    sglyphVerdict c r = .degenerate := by
  rw [← toNat_extractLsb'_eight, ← toNat_extractLsb'_eight] at h
  exact (sglyphVerdict_eq c r).trans (if_pos h)

/-! ## What acceptance makes of it -/

/-- A well-formed command found degenerate is latched and its pseudocode not started (R35, R306). -/
theorem exec_degenerate {i : Instr} {s : State} (hidle : s.busy = false) (hi : i.wellFormed = true)
    (hv : verdictOf i s.cfg (s.snapshotFor (encode i)) = .degenerate) :
    exec i s = .next (s.latch (encode i)) := by
  rw [exec_idle hidle hi, hv]
  rfl

/-- Settles O12: the operand check of each operation finds its degenerate condition first, whatever else is wrong with
the operands, and latching a word clears ERR, BDONE and RDONE and raises nothing. -/
theorem degenerateCommandsDoNothing : Obligations.DegenerateCommandsDoNothing := by
  intro s hidle i hi hdeg
  have hv : verdictOf i s.cfg (s.snapshotFor (encode i)) = .degenerate := by
    cases i with
    | hrun _ | vrun _ => exact runVerdict_of_nonpos s.cfg hdeg
    | rect _ | fillrect _ | roundrect _ | fillroundrect _ => exact rectVerdict_of_nonpos s.cfg hdeg
    | blit _ | blitxbm _ => exact blitVerdict_of_nonpos s.cfg hdeg
    | sblit _ => exact sblitVerdict_of_nonpos s.cfg hdeg
    | sglyph _ => exact sglyphVerdict_of_zero s.cfg hdeg
    | line _ | circle _ | circleh _ | fillcircle _ | fillcircleh _ | triangle _ | filltriangle _ => exact hdeg.elim
  exact ⟨_, exec_degenerate hidle hi hv, rfl, (busyBit_withErr s.status 0).trans hidle, errField_withErr s.status 0,
    rfl, rfl, rfl⟩

end Sys2Proof.Machine
end

section
/-! Reset (70_reset_and_hazards.md R350 to R353): what it clears and keeps, and that the state after it is where the
invariants of the machine begin. -/

namespace Sys2Proof.Machine

/-! ## What reset clears and keeps -/

/-- Reset as an update of the state it finds: the engine's own fields are cleared (R350; the snapshot by log entry 3), and
with the continuation the running command is gone (R352). The partners' fields are not among them (R353). -/
theorem assertReset_frame (s : State) :
    assertReset s =
      { s with
        live := .zero, status := 0, bdone := 0, rdone := 0, eng := .idle, snap := .zero, sc := .zero, cont := []
        ramOld := [] } :=
  rfl

theorem takeTurn_reset (s : State) : takeTurn .reset s = .next (assertReset s) := rfl

/-- Settles O48: the fields reset names have their reset values, the others are untouched. -/
theorem resetAbortsAndClears : Obligations.ResetAbortsAndClears := by
  intro s
  refine ⟨_, takeTurn_reset s, ?_⟩
  rw [assertReset_frame]
  have hcursor : StreamCursor.zero = ⟨0, 0, 0, .notStarted⟩ := rfl
  simp only [hcursor, and_self]

/-! ## Where the invariants begin -/

/-- Reset's STATUS is not busy and ERR there is 0, the engine is idle with nothing in flight, and the memories list
nothing. -/
theorem ConsistentParts.resetWith {c : Config} (hc : c.legal = true) : ConsistentParts (State.resetWith c) where
  cfg_legal := hc
  status_legal := show statusLegal 0 = true by decide
  busy_iff := show busyBit 0 = true ↔ Eng.idle = .exec by decide
  idle_cont := fun _ => rfl
  memories_legal := rfl

/-- No read is pending after reset, because no task is. -/
theorem readsInside_resetWith (c : Config) : (State.resetWith c).readsInside = true :=
  (readsInside_iff _).mpr List.all_nil

/-- Settles O52: the test-default configuration of `State.reset` is one of the legal ones. -/
theorem resetIsConsistent : Obligations.ResetIsConsistent := by
  have hreset : ∀ c : Config, c.legal = true →
      (State.resetWith c).consistent = true ∧ (State.resetWith c).readsInside = true := fun c hc =>
    ⟨(consistent_iff_parts _).mpr (.resetWith hc), readsInside_resetWith c⟩
  obtain ⟨hconsistent, hinside⟩ := hreset .testDefault (by decide)
  exact ⟨hconsistent, hinside, hreset⟩

end Sys2Proof.Machine
end
